-- ==== Sys2Proof/Word.lean ====
section
/-! DEFINITION. The word types of the hardware (spec/00_scope.md rule R12): an unsigned or two's-complement
register of N bits is a bit vector of N bits; `toNat` reads it as uN and `toInt` as iN. -/
namespace Sys2Proof

/-- u8: a byte of the stream memory, a duty value, an 8-bit command word (R60, R81). -/
abbrev Byte := BitVec 8

/-- u32 or i32: an operand, a result, an address, a cursor, a microsecond counter (R9, R28, R81). -/
abbrev Word := BitVec 32

/-- i16: one PCM sample and every value inside the lattice filter (R17, R26, R155). -/
abbrev Sample := BitVec 16

end Sys2Proof
end

