-- ==== Sys2Proof/Config.lean ====
section
/-! DEFINITION. What an implementation fixes: the constants of spec/00_scope.md rule R7, the named parameters
of rules R8 and R9, their default values where the spec supplies one, and an opaque constant for each parameter
the spec leaves OPEN. -/
namespace Sys2Proof

namespace Config

/-- R7 `TICK_US`: microseconds per sample tick. -/
def tickUs : Nat := 125

/-- R7 `SAMPLE_RATE_HZ`. -/
def sampleRateHz : Nat := 8000

/-- R7 `N_VOICES`: voices and tracks of the mixer. -/
abbrev nVoices : Nat := 8

/-- R7 `FRAME_SAMPLES`: samples of one LPC frame. -/
def frameSamples : Nat := 200

/-- R7 `LFSR_POLY`: feedback word of the LPC noise register. -/
def lfsrPoly : BitVec 16 := 0xB800#16

/-- R7 `LFSR_SEED`. -/
def lfsrSeed : BitVec 16 := 1#16

/-- R7 `TWOBIT_IDX_MAX`. -/
def twobitIdxMax : Nat := 15

/-- R7 `IMA_IDX_MAX`. -/
def imaIdxMax : Nat := 88

/-- R7 `U0_MIN`. -/
def u0Min : Int := -512

/-- R7 `U0_MAX`. -/
def u0Max : Int := 511

/-- R7, R120 `TWOBIT_ADJ`: the step-index adjustment of the two-bit codes 0 to 3. -/
def twobitAdj : Vector Int 4 := #v[-1, -1, 2, 2]

/-- R131 `IMA_ADJ`, supplied by the spec from general knowledge (G2). -/
def imaAdj : Vector Int 16 := #v[-1, -1, -1, -1, 2, 4, 6, 8, -1, -1, -1, -1, 2, 4, 6, 8]

/-- R131 `IMA_STEP`, supplied by the spec from general knowledge (G1). -/
def imaStep : Vector Nat 89 := #v[
  7, 8, 9, 10, 11, 12, 13, 14,
  16, 17, 19, 21, 23, 25, 28, 31,
  34, 37, 41, 45, 50, 55, 60, 66,
  73, 80, 88, 97, 107, 118, 130, 143,
  157, 173, 190, 209, 230, 253, 279, 307,
  337, 371, 408, 449, 494, 544, 598, 658,
  724, 796, 876, 963, 1060, 1166, 1282, 1411,
  1552, 1707, 1878, 2066, 2272, 2499, 2749, 3024,
  3327, 3660, 4026, 4428, 4871, 5358, 5894, 6484,
  7132, 7845, 8630, 9493, 10442, 11487, 12635, 13899,
  15289, 16818, 18500, 20350, 22385, 24623, 27086, 29794,
  32767]

/-- R9 `IMA_INIT_PRED`, default of the spec. -/
def imaInitPred : BitVec 16 := 0

/-- R9 `IMA_INIT_IDX`, default of the spec. -/
def imaInitIdx : BitVec 7 := 0

/-- R9 `LPC_NARROW_WRAP`, default of the spec. -/
def lpcNarrowWrap : Bool := true

/-- R8 `MIX_LIMIT`, default of the spec. -/
def mixLimit : Nat := 220

/-- R8 `MIX_BIAS`, default of the spec. -/
def mixBias : Int := 128

end Config

/-- R140: the LPC tables of one table index, of the shapes of rule R8 (the period tables, whose size
depends on the table index, stand in `Params`). -/
structure LpcTables where
  /-- `LPC_ENERGY[t]`, u16. -/
  energy : Vector (BitVec 16) 16
  /-- `LPC_K[t][1]`, i16. -/
  k1 : Vector (BitVec 16) 32
  /-- `LPC_K[t][2]`, i16. -/
  k2 : Vector (BitVec 16) 32
  /-- `LPC_K[t][3]`, i8. -/
  k3 : Vector (BitVec 8) 16
  /-- `LPC_K[t][4]`, i8. -/
  k4 : Vector (BitVec 8) 16
  /-- `LPC_K[t][5]`, i8. -/
  k5 : Vector (BitVec 8) 16
  /-- `LPC_K[t][6]`, i8. -/
  k6 : Vector (BitVec 8) 16
  /-- `LPC_K[t][7]`, i8. -/
  k7 : Vector (BitVec 8) 16
  /-- `LPC_K[t][8]`, i8. -/
  k8 : Vector (BitVec 8) 8
  /-- `LPC_K[t][9]`, i8. -/
  k9 : Vector (BitVec 8) 8
  /-- `LPC_K[t][10]`, i8. -/
  k10 : Vector (BitVec 8) 8
deriving DecidableEq, Repr, Inhabited

/-- The parameters the model takes as arguments (R8, R9; spec/93_implementation_defined.md U5 to U11).
They ride in `State` as plain data that no command writes, so that a statement about every state is a statement
about every table, and the spec's own test instantiations can be run (log entry 3). -/
structure Params where
  /-- `IMA_STEP[0..88]`. -/
  imaStep : Vector Nat 89
  /-- `IMA_ADJ[0..15]`. -/
  imaAdj : Vector Int 16
  /-- `IMA_INIT_PRED`, i16. -/
  imaInitPred : BitVec 16
  /-- `IMA_INIT_IDX`, u7. -/
  imaInitIdx : BitVec 7
  /-- `TWOBIT_STEP[0..15]`. -/
  twobitStep : Vector Nat 16
  /-- The LPC tables of table index 0. -/
  lpc0 : LpcTables
  /-- The LPC tables of table index 1. -/
  lpc1 : LpcTables
  /-- `LPC_PERIOD[0][0..63]`, u8. -/
  lpcPeriod0 : Vector (BitVec 8) 64
  /-- `LPC_PERIOD[1][0..31]`, u8. -/
  lpcPeriod1 : Vector (BitVec 8) 32
  /-- `LPC_WAVE[0..40]`, i8. -/
  lpcWave : Vector (BitVec 8) 41
  /-- `LPC_NARROW_WRAP`. -/
  lpcNarrowWrap : Bool
  /-- `MIX_AMP`, i8. -/
  mixAmp : BitVec 8
  /-- `MIX_LIMIT`. -/
  mixLimit : Nat
  /-- `MIX_BIAS`. -/
  mixBias : Int
deriving DecidableEq, Repr

/-- What the spec lets a claim assume of the parameters (R121, R170, R8, R35): the two-bit steps lie in
2..80, start at 2, end at 80 and never decrease; `MIX_AMP` lies in 1..127; `MIX_LIMIT` and every IMA step are
positive; `IMA_INIT_IDX` is a step index. -/
abbrev Params.wf (P : Params) : Prop :=
  (∀ i : Fin 16, 2 ≤ P.twobitStep[i] ∧ P.twobitStep[i] ≤ 80) ∧
  P.twobitStep[0] = 2 ∧ P.twobitStep[15] = 80 ∧
  (∀ i : Fin 15, P.twobitStep[i.val] ≤ P.twobitStep[i.val + 1]) ∧
  (1 ≤ P.mixAmp.toInt) ∧ 0 < P.mixLimit ∧
  (∀ i : Fin 89, 0 < P.imaStep[i]) ∧ P.imaInitIdx.toNat ≤ Config.imaIdxMax

namespace Config

/-- R121 (OPEN): the increments from which `TWOBIT_STEP` is made; every table R121 admits arises from some
choice of it. -/
opaque twobitRaw : Nat → Fin 79

/-- Entry `n` of the OPEN two-bit step table, kept within the constraints of R121: it starts at 2, never
decreases and never exceeds 80. -/
def twobitStepAt : Nat → Nat
  | 0 => 2
  | n + 1 => max (twobitStepAt n) (2 + (twobitRaw (n + 1)).val)

/-- R121 `TWOBIT_STEP[0..15]`, OPEN within the constraints of the rule. -/
def twobitStep : Vector Nat 16 := Vector.ofFn fun i => if i.val = 15 then 80 else twobitStepAt i.val

/-- R140 (OPEN): the LPC tables of table index `t`, but for the period table. -/
opaque lpcTables : BitVec 1 → LpcTables

/-- R140 (OPEN): `LPC_PERIOD[0]`. -/
opaque lpcPeriod0 : Vector (BitVec 8) 64

/-- R140 (OPEN): `LPC_PERIOD[1]`. -/
opaque lpcPeriod1 : Vector (BitVec 8) 32

/-- R140 (OPEN): `LPC_WAVE`. -/
opaque lpcWave : Vector (BitVec 8) 41

/-- R170 (OPEN): one less than `MIX_AMP`, so that `MIX_AMP` is any integer in 1..127. -/
opaque mixAmpPred : Fin 127

/-- R60 (OPEN): `ROM_SIZE`, at most 2^32. -/
opaque romSize : Fin 4294967297

/-- R63 (OPEN): `NOTE_SIZE`. -/
opaque noteSize : Nat

/-- The parameters of the machine after power-on: the spec's defaults, and the OPEN constants. -/
def params : Params where
  imaStep := imaStep
  imaAdj := imaAdj
  imaInitPred := imaInitPred
  imaInitIdx := imaInitIdx
  twobitStep := twobitStep
  lpc0 := lpcTables 0
  lpc1 := lpcTables 1
  lpcPeriod0 := lpcPeriod0
  lpcPeriod1 := lpcPeriod1
  lpcWave := lpcWave
  lpcNarrowWrap := lpcNarrowWrap
  mixAmp := BitVec.ofNat 8 (mixAmpPred.val + 1)
  mixLimit := mixLimit
  mixBias := mixBias

end Config
end Sys2Proof
end

