-- ==== Sys2Proof/Syntax.lean ====
section
/-! DEFINITION. The instructions: one constructor for each of the 35 rows of spec/opcode_table.json, that is
the 21 commands of the command map (spec/30_encoding.md rule R83), the stream codes `NIB4` and `CODE2`
(R85, R87), the LPC frame layouts (R91, each in both chip modes) and the note record `NOTE3` (R94). -/
namespace Sys2Proof

/-- R81: what the host presents at the command port: an 8-bit command word and four 32-bit operands. -/
structure Command where
  /-- `CMD` = `unit[7:4] ‖ op[3:0]`. -/
  cmd : Byte
  /-- Operand `A`. -/
  a : Word
  /-- Operand `B`. -/
  b : Word
  /-- Operand `C`. -/
  c : Word
  /-- Operand `D`. -/
  d : Word
deriving DecidableEq, Repr

/-- R63, R94: one NoteCommand, three named u32 fields with no byte image. -/
structure NoteRec where
  /-- 0 = rest. -/
  periodUs : Word
  /-- How long to sound. -/
  durationUs : Word
  /-- How long to wait before it starts. -/
  delayUs : Word
deriving DecidableEq, Repr

/-- R91: the coefficient indices every normal frame without the repeat bit carries. -/
structure KLow where
  k1 : BitVec 5
  k2 : BitVec 5
  k3 : BitVec 4
  k4 : BitVec 4
deriving DecidableEq, Repr

/-- R91: the further coefficient indices of a voiced frame. -/
structure KHigh where
  k5 : BitVec 4
  k6 : BitVec 4
  k7 : BitVec 4
  k8 : BitVec 3
  k9 : BitVec 3
  k10 : BitVec 3
deriving DecidableEq, Repr

/-- R91: the five frame layouts, with the pitch index written in 6 bits in both modes (in mode 1 the field
has 5 bits and the sixth is 0). -/
inductive Frame where
  | silence
  | stop
  | repeated (e : BitVec 4) (pitch : BitVec 6)
  | unvoiced (e : BitVec 4) (pitch : BitVec 6) (lo : KLow)
  | voiced (e : BitVec 4) (pitch : BitVec 6) (lo : KLow) (hi : KHigh)
deriving DecidableEq, Repr

/-- One constructor per row of spec/opcode_table.json. -/
inductive Instr where
  /-- `IMA.RESET`, R132. -/
  | imaReset
  /-- `IMA.HASNEXT`, R133. -/
  | imaHasNext
  /-- `IMA.NEXT`, R134. -/
  | imaNext
  /-- `IMA.ATTACH`, R135: A = base, B = len in samples. -/
  | imaAttach (base len : Word)
  /-- `TWOBIT.RESET`, R122. -/
  | twobitReset
  /-- `TWOBIT.HASNEXT`, R123. -/
  | twobitHasNext
  /-- `TWOBIT.NEXT`, R124. -/
  | twobitNext
  /-- `TWOBIT.ATTACH`, R125: A = base, B = len in codes. -/
  | twobitAttach (base len : Word)
  /-- `LPC.RESET`, R143. -/
  | lpcReset
  /-- `LPC.HASNEXT`, R146. -/
  | lpcHasNext
  /-- `LPC.NEXT`, R147. -/
  | lpcNext
  /-- `LPC.ATTACH`, R145: A = base, B = len in bytes. -/
  | lpcAttach (base len : Word)
  /-- `LPC.START`, R144: A[0] = mode. -/
  | lpcStart (mode : BitVec 1)
  /-- `MIX.RESET`, R171. -/
  | mixReset
  /-- `MIX.BIND`, R172: A = track_id, B = seq_base, C = seq_len, D = pitch_shift. -/
  | mixBind (trackId seqBase seqLen pitchShift : Word)
  /-- `MIX.ALLOFF`, R173. -/
  | mixAllOff
  /-- `MIX.TICK`, R174. -/
  | mixTick
  /-- `PLAYER.RESET`, R191. -/
  | playerReset
  /-- `PLAYER.SELECT`, R192: A = sel, B[15:0] = now. -/
  | playerSelect (sel : Word) (now : BitVec 16)
  /-- `PLAYER.POLL`, R196: A[15:0] = now. -/
  | playerPoll (now : BitVec 16)
  /-- `PLAYER.TICK`, R197. -/
  | playerTick
  /-- `NIB4`, R85: one IMA code. -/
  | nib4 (c : BitVec 4)
  /-- `CODE2.0`, R87. -/
  | code2_0
  /-- `CODE2.1`, R87. -/
  | code2_1
  /-- `CODE2.2`, R87. -/
  | code2_2
  /-- `CODE2.3`, R87. -/
  | code2_3
  /-- `LPCF.SILENCE`, R149. -/
  | lpcfSilence
  /-- `LPCF.STOP`, R150. -/
  | lpcfStop
  /-- `LPCF.REPEAT.M0`, R151. -/
  | lpcfRepeatM0 (e : BitVec 4) (p : BitVec 6)
  /-- `LPCF.UNVOICED.M0`, R151. -/
  | lpcfUnvoicedM0 (e : BitVec 4) (p : BitVec 6) (lo : KLow)
  /-- `LPCF.VOICED.M0`, R151. -/
  | lpcfVoicedM0 (e : BitVec 4) (p : BitVec 6) (lo : KLow) (hi : KHigh)
  /-- `LPCF.REPEAT.M1`, R151. -/
  | lpcfRepeatM1 (e : BitVec 4) (p : BitVec 5)
  /-- `LPCF.UNVOICED.M1`, R151. -/
  | lpcfUnvoicedM1 (e : BitVec 4) (p : BitVec 5) (lo : KLow)
  /-- `LPCF.VOICED.M1`, R151. -/
  | lpcfVoicedM1 (e : BitVec 4) (p : BitVec 5) (lo : KLow) (hi : KHigh)
  /-- `NOTE3`, R94, R176: a note record, and the track at whose cursor it stands (log entry 9). -/
  | note3 (k : Fin 8) (r : NoteRec)
deriving DecidableEq, Repr

end Sys2Proof
end

