-- ==== Sys2Proof/WellFormed.lean ====
section
/-! DEFINITION. Which instructions are well formed: every operand of a command and every stream code is legal
(spec/30_encoding.md R95), and a frame of the normal layouts carries an energy code in 1..14 (R90, R91). -/
namespace Sys2Proof

/-- R90: the energy codes of a normal frame; 0 selects the silence frame and 15 the stop frame. -/
def normalEnergy (e : BitVec 4) : Bool := e != 0 && e != 15

/-- The static condition of the instruction's table row. -/
def wellFormed : Instr → Bool
  | .imaReset => true
  | .imaHasNext => true
  | .imaNext => true
  | .imaAttach _ _ => true
  | .twobitReset => true
  | .twobitHasNext => true
  | .twobitNext => true
  | .twobitAttach _ _ => true
  | .lpcReset => true
  | .lpcHasNext => true
  | .lpcNext => true
  | .lpcAttach _ _ => true
  | .lpcStart _ => true
  | .mixReset => true
  | .mixBind _ _ _ _ => true
  | .mixAllOff => true
  | .mixTick => true
  | .playerReset => true
  | .playerSelect _ _ => true
  | .playerPoll _ => true
  | .playerTick => true
  | .nib4 _ => true
  | .code2_0 => true
  | .code2_1 => true
  | .code2_2 => true
  | .code2_3 => true
  | .lpcfSilence => true
  | .lpcfStop => true
  | .lpcfRepeatM0 e _ => normalEnergy e
  | .lpcfUnvoicedM0 e _ _ => normalEnergy e
  | .lpcfVoicedM0 e _ _ _ => normalEnergy e
  | .lpcfRepeatM1 e _ => normalEnergy e
  | .lpcfUnvoicedM1 e _ _ => normalEnergy e
  | .lpcfVoicedM1 e _ _ _ => normalEnergy e
  | .note3 _ _ => true

/-- The condition of the row that rests on the period table (R91): `voiced t p` says that pitch index `p`
of table index `t` has a non-zero period. An UNVOICED row has a pitch of period 0, a VOICED row another. -/
def periodFits (voiced : BitVec 1 → BitVec 6 → Bool) : Instr → Bool
  | .lpcfUnvoicedM0 _ p _ => !voiced 0 p
  | .lpcfVoicedM0 _ p _ _ => voiced 0 p
  | .lpcfUnvoicedM1 _ p _ => !voiced 1 (p.setWidth 6)
  | .lpcfVoicedM1 _ p _ _ => voiced 1 (p.setWidth 6)
  | _ => true

end Sys2Proof
end

