-- ==== Sys2Proof/Decode.lean ====
section
/-! DEFINITION. The decoder, total and rejecting by name, and after it the encoder (spec/30_encoding.md).
Five formats are decoded (R80): the command word at the command port, the IMA nibble, the two-bit code, the LPC
frame (bit by bit, R89 to R92, R142) and the note record. Which format a piece of data has is fixed by who reads
it, never by its bits, so the input of `decode` names the format. -/
namespace Sys2Proof

/-! ## The bit reader (R89, R142) -/

/-- A bit stream: stream bit number `q`, or nothing where the bit may not be read (R75). -/
abbrev BitSource := Nat → Option Bool

/-- The loop of R142: `n` more bits from position `q`, each entering at the low end of `v`. An error carries
the position of the bit that may not be read. -/
def getBitsFrom (src : BitSource) : Nat → Nat → Nat → Except Nat (Nat × Nat)
  | 0, v, q => .ok (v, q)
  | n + 1, v, q =>
    match src q with
    | none => .error q
    | some b => getBitsFrom src n (2 * v + b.toNat) (q + 1)

/-- R142 `GetBits(n)`: the next `n` bits, the first one read the most significant, and the position after
them. -/
def getBits (src : BitSource) (n q : Nat) : Except Nat (BitVec n × Nat) :=
  match getBitsFrom src n 0 q with
  | .error q' => .error q'
  | .ok (v, q') => .ok (BitVec.ofNat n v, q')

/-! ## LPC frames (R90 to R93, R148, R151) -/

/-- The pitch field: 6 bits in mode 0, 5 bits in mode 1 (R93), written in 6 bits. -/
def getPitch (mode : BitVec 1) (src : BitSource) (q : Nat) : Except Nat (BitVec 6 × Nat) :=
  if mode = 0 then getBits src 6 q
  else
    match getBits src 5 q with
    | .error e => .error e
    | .ok (p, q') => .ok (p.setWidth 6, q')

/-- `K1`:5, `K2`:5, `K3`:4, `K4`:4 (R91). -/
def getKLow (src : BitSource) (q : Nat) : Except Nat (KLow × Nat) := do
  let (k1, q) ← getBits src 5 q
  let (k2, q) ← getBits src 5 q
  let (k3, q) ← getBits src 4 q
  let (k4, q) ← getBits src 4 q
  return (⟨k1, k2, k3, k4⟩, q)

/-- `K5`:4, `K6`:4, `K7`:4, `K8`:3, `K9`:3, `K10`:3 (R91). -/
def getKHigh (src : BitSource) (q : Nat) : Except Nat (KHigh × Nat) := do
  let (k5, q) ← getBits src 4 q
  let (k6, q) ← getBits src 4 q
  let (k7, q) ← getBits src 4 q
  let (k8, q) ← getBits src 3 q
  let (k9, q) ← getBits src 3 q
  let (k10, q) ← getBits src 3 q
  return (⟨k5, k6, k7, k8, k9, k10⟩, q)

/-- The part of a normal frame after the energy code `e` (R151, R91): the repeat bit, the pitch, and the
coefficient indices the layout has; `voiced p` says whether the looked-up period is non-zero. -/
def parseNormal (mode : BitVec 1) (voiced : BitVec 6 → Bool) (src : BitSource) (e : BitVec 4) (q : Nat) :
    Except Nat (Frame × Nat) := do
  let (r, q) ← getBits src 1 q
  let (p, q) ← getPitch mode src q
  if r = 1 then return (.repeated e p, q)
  else
    let (lo, q) ← getKLow src q
    if voiced p then
      let (hi, q) ← getKHigh src q
      return (.voiced e p lo hi, q)
    else return (.unvoiced e p lo, q)

/-- R90 to R92, R148: the frame that begins at bit `q`, and the position after it. -/
def parseFrame (mode : BitVec 1) (voiced : BitVec 6 → Bool) (src : BitSource) (q : Nat) :
    Except Nat (Frame × Nat) := do
  let (e, q) ← getBits src 4 q
  if e = 0 then return (.silence, q)
  else if e = 15 then return (.stop, q)
  else parseNormal mode voiced src e q

/-- The opcode-table row of a frame in a chip mode (R91). -/
def Frame.toInstr (mode : BitVec 1) : Frame → Instr
  | .silence => .lpcfSilence
  | .stop => .lpcfStop
  | .repeated e p => if mode = 0 then .lpcfRepeatM0 e p else .lpcfRepeatM1 e (p.setWidth 5)
  | .unvoiced e p lo => if mode = 0 then .lpcfUnvoicedM0 e p lo else .lpcfUnvoicedM1 e (p.setWidth 5) lo
  | .voiced e p lo hi => if mode = 0 then .lpcfVoicedM0 e p lo hi else .lpcfVoicedM1 e (p.setWidth 5) lo hi

/-! ## The command word (R81 to R84) -/

/-- R83: the command map. Operands a command does not name are ignored (R81); a timebase operand is the low
16 bits and a one-bit operand is bit 0 (R82). -/
def decodeCommand (c : Command) : Option Instr :=
  match c.cmd.toNat with
  | 0x00 => some .imaReset
  | 0x01 => some .imaHasNext
  | 0x02 => some .imaNext
  | 0x03 => some (.imaAttach c.a c.b)
  | 0x10 => some .twobitReset
  | 0x11 => some .twobitHasNext
  | 0x12 => some .twobitNext
  | 0x13 => some (.twobitAttach c.a c.b)
  | 0x20 => some .lpcReset
  | 0x21 => some .lpcHasNext
  | 0x22 => some .lpcNext
  | 0x23 => some (.lpcAttach c.a c.b)
  | 0x24 => some (.lpcStart (c.a.setWidth 1))
  | 0x30 => some .mixReset
  | 0x31 => some (.mixBind c.a c.b c.c c.d)
  | 0x32 => some .mixAllOff
  | 0x33 => some .mixTick
  | 0x40 => some .playerReset
  | 0x41 => some (.playerSelect c.a (c.b.setWidth 16))
  | 0x42 => some (.playerPoll (c.a.setWidth 16))
  | 0x43 => some .playerTick
  | _ => none

/-! ## The five formats together (R80) -/

/-- One encoded element, in the format of its reader (R80). -/
inductive Element where
  /-- Format `CMD`, read by the command port. -/
  | cmd (c : Command)
  /-- Format `NIB4`, read by `IMA.NEXT`. -/
  | nib4 (c : BitVec 4)
  /-- Format `CODE2`, read by `TWOBIT.NEXT`. -/
  | code2 (c : BitVec 2)
  /-- Format `LPCF`, read by `LPC.NEXT` in a chip mode: the bits in stream order. -/
  | lpcf (mode : BitVec 1) (bits : List Bool)
  /-- Format `NOTE3`, read by `MIX.TICK` for track `k`. -/
  | note3 (k : Fin 8) (r : NoteRec)
deriving DecidableEq, Repr

/-- Why an element is not decoded. -/
inductive DecodeError where
  /-- R84: the command word is not a row of the command map. -/
  | illegalCommand (cmd : Byte)
  /-- R75: the bits end before the frame does. -/
  | frameTruncated (bit : Nat)
deriving DecidableEq, Repr

/-- R87: the four two-bit codes. -/
def decodeCode2 (c : BitVec 2) : Instr :=
  if c = 0 then .code2_0 else if c = 1 then .code2_1 else if c = 2 then .code2_2 else .code2_3

/-- The instruction an element encodes. `voiced t p` says whether pitch index `p` of table index `t` has a
non-zero period, which decides the length of a normal frame (R92). -/
def decode (voiced : BitVec 1 → BitVec 6 → Bool) : Element → Except DecodeError Instr
  | .cmd c =>
    match decodeCommand c with
    | some i => .ok i
    | none => .error (.illegalCommand c.cmd)
  | .nib4 c => .ok (.nib4 c)
  | .code2 c => .ok (decodeCode2 c)
  | .lpcf mode bits =>
    match parseFrame mode (voiced mode) (fun q => bits[q]?) 0 with
    | .ok (f, _) => .ok (f.toInstr mode)
    | .error q => .error (.frameTruncated q)
  | .note3 k r => .ok (.note3 k r)

/-! ## The encoder -/

/-- The low `n` bits of `v`, most significant first (R89). -/
def bitsMsbFirst {w : Nat} (v : BitVec w) : Nat → List Bool
  | 0 => []
  | n + 1 => v.getLsbD n :: bitsMsbFirst v n

/-- A field of `n` bits in stream order (R89). -/
def fieldBits {n : Nat} (v : BitVec n) : List Bool := bitsMsbFirst v n

/-- The pitch field of a chip mode: 6 or 5 bits (R93). -/
def pitchBits (mode : BitVec 1) (p : BitVec 6) : List Bool :=
  if mode = 0 then fieldBits p else fieldBits (p.setWidth 5)

/-- `K1` to `K4` in stream order (R91). -/
def kLowBits (k : KLow) : List Bool :=
  fieldBits k.k1 ++ (fieldBits k.k2 ++ (fieldBits k.k3 ++ fieldBits k.k4))

/-- `K5` to `K10` in stream order (R91). -/
def kHighBits (k : KHigh) : List Bool :=
  fieldBits k.k5 ++ (fieldBits k.k6 ++ (fieldBits k.k7 ++ (fieldBits k.k8 ++ (fieldBits k.k9 ++ fieldBits k.k10))))

/-- R91: the bits of a frame in stream order. -/
def frameBits (mode : BitVec 1) : Frame → List Bool
  | .silence => fieldBits (0 : BitVec 4)
  | .stop => fieldBits (15 : BitVec 4)
  | .repeated e p => fieldBits e ++ (true :: pitchBits mode p)
  | .unvoiced e p lo => fieldBits e ++ (false :: (pitchBits mode p ++ kLowBits lo))
  | .voiced e p lo hi => fieldBits e ++ (false :: (pitchBits mode p ++ (kLowBits lo ++ kHighBits hi)))

/-- A command word with its operands. -/
def command (cmd : Byte) (a b c d : Word) : Element := .cmd ⟨cmd, a, b, c, d⟩

/-- The encoding of an instruction (R83, R85, R87, R91, R94); operands a command does not name are 0. -/
def encode : Instr → Element
  | .imaReset => command 0x00 0 0 0 0
  | .imaHasNext => command 0x01 0 0 0 0
  | .imaNext => command 0x02 0 0 0 0
  | .imaAttach base len => command 0x03 base len 0 0
  | .twobitReset => command 0x10 0 0 0 0
  | .twobitHasNext => command 0x11 0 0 0 0
  | .twobitNext => command 0x12 0 0 0 0
  | .twobitAttach base len => command 0x13 base len 0 0
  | .lpcReset => command 0x20 0 0 0 0
  | .lpcHasNext => command 0x21 0 0 0 0
  | .lpcNext => command 0x22 0 0 0 0
  | .lpcAttach base len => command 0x23 base len 0 0
  | .lpcStart mode => command 0x24 (mode.setWidth 32) 0 0 0
  | .mixReset => command 0x30 0 0 0 0
  | .mixBind trackId seqBase seqLen pitchShift => command 0x31 trackId seqBase seqLen pitchShift
  | .mixAllOff => command 0x32 0 0 0 0
  | .mixTick => command 0x33 0 0 0 0
  | .playerReset => command 0x40 0 0 0 0
  | .playerSelect sel now => command 0x41 sel (now.setWidth 32) 0 0
  | .playerPoll now => command 0x42 (now.setWidth 32) 0 0 0
  | .playerTick => command 0x43 0 0 0 0
  | .nib4 c => .nib4 c
  | .code2_0 => .code2 0
  | .code2_1 => .code2 1
  | .code2_2 => .code2 2
  | .code2_3 => .code2 3
  | .lpcfSilence => .lpcf 0 (frameBits 0 .silence)
  | .lpcfStop => .lpcf 0 (frameBits 0 .stop)
  | .lpcfRepeatM0 e p => .lpcf 0 (frameBits 0 (.repeated e p))
  | .lpcfUnvoicedM0 e p lo => .lpcf 0 (frameBits 0 (.unvoiced e p lo))
  | .lpcfVoicedM0 e p lo hi => .lpcf 0 (frameBits 0 (.voiced e p lo hi))
  | .lpcfRepeatM1 e p => .lpcf 1 (frameBits 1 (.repeated e (p.setWidth 6)))
  | .lpcfUnvoicedM1 e p lo => .lpcf 1 (frameBits 1 (.unvoiced e (p.setWidth 6) lo))
  | .lpcfVoicedM1 e p lo hi => .lpcf 1 (frameBits 1 (.voiced e (p.setWidth 6) lo hi))
  | .note3 k r => .note3 k r

/-! ## Words as spec/opcode_table.json numbers them -/

/-- The element a word of the opcode table stands for, by the width of its row (log entry 10): a command word,
with any operands above it; a row of 2 or 4 bits in its own width; a frame row in its own width or in whole bytes
(where the two chip modes share a width, mode 0); a note record in the field order of spec/30_encoding.md R94. -/
def tableElement (nbits w : Nat) : Option Element :=
  let w := w % 2 ^ nbits
  let frame (mode : BitVec 1) : Element := .lpcf mode ((List.range nbits).map w.testBit)
  match nbits with
  | 2 => some (.code2 (BitVec.ofNat 2 w))
  | 4 => some (.nib4 (BitVec.ofNat 4 w))
  | 8 | 136 =>
    some (.cmd ⟨BitVec.ofNat 8 w, BitVec.ofNat 32 (w >>> 8), BitVec.ofNat 32 (w >>> 40),
      BitVec.ofNat 32 (w >>> 72), BitVec.ofNat 32 (w >>> 104)⟩)
  | 10 => some (frame 1)
  | 11 | 16 => some (frame 0)
  | 28 => some (frame 1)
  | 29 | 32 => some (frame 0)
  | 49 => some (frame 1)
  | 50 | 56 => some (frame 0)
  | 96 => some (.note3 0 ⟨BitVec.ofNat 32 w, BitVec.ofNat 32 (w >>> 32), BitVec.ofNat 32 (w >>> 64)⟩)
  | _ => none

/-- The period-table condition under which a word of that width is a frame of its row (R92): the rows of 49
bits or more are VOICED, the shorter ones are not. -/
def tableVoiced (nbits : Nat) : BitVec 1 → BitVec 6 → Bool := fun _ _ => decide (49 ≤ nbits)

/-- The instruction the decoder reads from a word of the opcode table. -/
def decodeTableWord (nbits w : Nat) : Option Instr :=
  match tableElement nbits w with
  | none => none
  | some el =>
    match decode (tableVoiced nbits) el with
    | .ok i => some i
    | .error _ => none

end Sys2Proof
end

