-- ==== Sys2Proof/Machine/State.lean ====
section
/-! DEFINITION. The state of the machine (spec/10_state.md rules R20 to R31): the registers of the five units,
the two read-only memories, the parameters, and the model's own command port and result. The reset state (R34,
R220). The reasons a step can stop: the hardware has no fault (R200), and the spec names two refusals (R201). -/
namespace Sys2Proof.Machine

/-- R18: the five units, as refusals name them. -/
inductive UnitId where
  | ima
  | twobit
  | lpc
  | mix
  | player
deriving DecidableEq, Repr

/-- R200: the hardware raises no exception and has no fault or halted state, so no fault can be named. -/
inductive Fault
deriving DecidableEq, Repr

/-- R201: the situations to which the spec gives no meaning. -/
inductive Refusal where
  /-- Raised by an arm of `exec` whose instruction has no meaning yet; no arm does. Safe. -/
  | notModelled (mnemonic : String)
  /-- R84, R201 `IllegalCommand(CMD)`: raised by the command port for a word that is not in the command map.
  Safe: the spec claims nothing after it. -/
  | illegalCommand (cmd : Byte)
  /-- R75, R201 `StreamOverrun(unit, addr)`: raised by a stream read outside the attached window or outside
  `ROM`, and by a note read outside `NOTE`. Safe: the spec claims nothing after it. -/
  | streamOverrun (unit : UnitId) (addr : Nat)
deriving DecidableEq, Repr

/-- R21. -/
structure Ima where
  /-- ROM address of byte 0 of the attached stream. -/
  base : Word
  /-- Length of the stream in samples. -/
  len : Word
  /-- Byte cursor. -/
  cur : Word
  /-- Sub-byte position: 0 = the low nibble is next. -/
  nib : BitVec 1
  /-- Predictor, i16. -/
  pred : BitVec 16
  /-- Step index, 0..88. -/
  idx : BitVec 7
deriving DecidableEq, Repr

/-- R22. -/
structure Twobit where
  /-- ROM address of byte 0 of the attached stream. -/
  base : Word
  /-- Length of the stream in codes. -/
  len : Word
  /-- Byte cursor. -/
  cur : Word
  /-- Codes of the current byte already consumed, 0..3. -/
  pos : BitVec 2
  /-- Predictor, u8. -/
  pred : Byte
  /-- Step index, 0..15. -/
  idx : BitVec 4
deriving DecidableEq, Repr

/-- R25: the ten reflection coefficients, two i16 and eight i8. -/
structure LpcK where
  k1 : BitVec 16
  k2 : BitVec 16
  k3 : BitVec 8
  k4 : BitVec 8
  k5 : BitVec 8
  k6 : BitVec 8
  k7 : BitVec 8
  k8 : BitVec 8
  k9 : BitVec 8
  k10 : BitVec 8
deriving DecidableEq, Repr

/-- All ten coefficients 0 (R34, R150). -/
def LpcK.zero : LpcK := ⟨0, 0, 0, 0, 0, 0, 0, 0, 0, 0⟩

/-- R23, R25, R26. -/
structure Lpc where
  /-- ROM address of byte 0 of the attached stream. -/
  base : Word
  /-- Length of the attached stream in bytes. -/
  len : Word
  /-- Chip mode. -/
  mode : BitVec 1
  /-- Byte cursor of the bit reader. -/
  cur : Word
  /-- Bits of the current byte already consumed, 0..7. -/
  bit : BitVec 3
  /-- Position of the next sample inside the frame, 0..199. -/
  fpos : Byte
  /-- Frame energy, u16. -/
  energy : BitVec 16
  /-- Frame pitch period, 0 = unvoiced. -/
  period : Byte
  /-- The stop frame has been decoded. -/
  fin : Bool
  /-- `LPC.K[1..10]`. -/
  k : LpcK
  /-- `LPC.x[0..9]`, i16: the lattice delay line; `x[0]` is the previous clamped output. -/
  x : Vector Sample 10
  /-- Voiced pitch-period position, u8. -/
  ppos : Byte
  /-- Noise shift register, 16 bits. -/
  lfsr : BitVec 16
deriving DecidableEq, Repr

/-- R27: one oscillator. -/
structure Voice where
  phase : Word
  phaseInc : Word
  active : Bool
  /-- i8. -/
  amp : BitVec 8
deriving DecidableEq, Repr

/-- R28: one scheduling cursor. -/
structure Track where
  /-- Record index in `NOTE` of the first NoteCommand. -/
  seqBase : Word
  /-- Number of records. -/
  seqLen : Word
  /-- Index of the next command not yet consumed. -/
  index : Word
  /-- i32. -/
  delayLeftUs : Word
  /-- i32. -/
  durationLeftUs : Word
  /-- At least 1. -/
  pitchShift : Word
  armed : Bool
deriving DecidableEq, Repr

/-- R27, R28: voice k is the voice of track k. -/
structure Mix where
  voice : Vector Voice 8
  track : Vector Track 8
deriving DecidableEq, Repr

/-- R29. -/
structure Player where
  /-- 0 = `IMA`, 1 = `TWOBIT`, 2 = `LPC`, 3 = `MIX`. -/
  sel : BitVec 2
  /-- A source has been selected and ticks are executed. -/
  run : Bool
  /-- The last-tick mark, a value of the 16-bit timebase. -/
  mark : BitVec 16
  /-- The register the PWM sink reads; no value until the first tick after reset (the spec's own state). -/
  duty : Option Byte
deriving DecidableEq, Repr

/-- R60: the stream memory, `size` bytes at addresses 0 .. size - 1. `cells` lists the bytes that differ from
`romFill`, by rising address; a byte inside the memory that is not listed reads as `romFill`. -/
structure Rom where
  size : Nat
  cells : List Host.Cell
deriving DecidableEq, Repr

/-- R63: the note memory, `size` records, listed as in `Rom`; an unlisted record reads as `noteFill`. -/
structure NoteMem where
  size : Nat
  cells : List (Nat × NoteRec)
deriving DecidableEq, Repr

/-- R20: the state of the five units; beside it what the spec calls inputs of the step (R33), which no command
writes, and the command port (R81). -/
structure State where
  ima : Ima
  twobit : Twobit
  lpc : Lpc
  mix : Mix
  player : Player
  /-- R60: the stream memory. -/
  rom : Rom
  /-- R63: the note memory. -/
  note : NoteMem
  /-- R8, R9: the parameters (log entry 3). -/
  params : Params
  /-- The model's own: the commands the host has still to issue, in order (R96; log entry 1). -/
  port : List Command
  /-- The model's own: `RES`, the result of the last command (R81; log entry 2). -/
  res : Word
deriving DecidableEq, Repr

/-! ## Reset values (R34, R220) -/

/-- R34: a voice after power-on. -/
def Voice.reset : Voice := { phase := 0, phaseInc := 0, active := false, amp := 0 }

/-- R34: a track after power-on. -/
def Track.reset : Track :=
  { seqBase := 0, seqLen := 0, index := 0, delayLeftUs := 0, durationLeftUs := 0, pitchShift := 1, armed := false }

/-- R34, R220: the machine right after power-on, the memories as the host has yet to fill them (log entry 4) and
no command issued. -/
def State.reset : State where
  ima :=
    { base := 0, len := 0, cur := 0, nib := 0, pred := Config.params.imaInitPred, idx := Config.params.imaInitIdx }
  twobit := { base := 0, len := 0, cur := 0, pos := 0, pred := 128, idx := 0 }
  lpc :=
    { base := 0, len := 0, mode := 0, cur := 0, bit := 0, fpos := 0, energy := 0, period := 0, fin := false,
      k := LpcK.zero, x := #v[0, 0, 0, 0, 0, 0, 0, 0, 0, 0], ppos := 0, lfsr := Config.lfsrSeed }
  mix :=
    { voice := #v[Voice.reset, Voice.reset, Voice.reset, Voice.reset,
        Voice.reset, Voice.reset, Voice.reset, Voice.reset],
      track := #v[Track.reset, Track.reset, Track.reset, Track.reset,
        Track.reset, Track.reset, Track.reset, Track.reset] }
  player := { sel := 0, run := false, mark := 0, duty := none }
  rom := { size := Config.romSize.val, cells := [] }
  note := { size := Config.noteSize, cells := [] }
  params := Config.params
  port := []
  res := 0

end Sys2Proof.Machine
end

