-- ==== Sys2Proof/Machine/Arith.lean ====
section
/-! DEFINITION. The integer functions of spec/00_scope.md rule R13. Expressions are computed over the unbounded
integers (R12) and narrowed only where a rule stores into a register: `BitVec.ofInt N` is `wraps_N` and
`BitVec.ofNat N` is `wrapu_N`. -/
namespace Sys2Proof.Machine

/-- R13 `clamp(v, lo, hi)`. -/
def clamp (v lo hi : Int) : Int := if v < lo then lo else if v > hi then hi else v

/-- R13 `v >>a n`: the floor of `v / 2^n`. -/
def asr (v : Int) (n : Nat) : Int := v / 2 ^ n

/-- `wraps_16`: the value stored into an i16. -/
def wraps16 (v : Int) : Sample := BitVec.ofInt 16 v

/-- `wraps_32`: the value stored into an i32. -/
def wraps32 (v : Int) : Word := BitVec.ofInt 32 v

end Sys2Proof.Machine
end

