-- ==== Sys2Proof/Machine/Operands.lean ====
section
/-! DEFINITION. Operand and result forms: the elements inside a byte (spec/20_memory.md R62), the result
register (spec/30_encoding.md R82) and the conversion of a sample to a duty value (spec/45_player.md R194). The
operands of a command word are taken in the decoder (`decodeCommand`, R82). -/
namespace Sys2Proof.Machine

/-- R62, R86: the nibble at a sub-byte position, low nibble first. -/
def nibbleAt (b : Byte) (nib : BitVec 1) : BitVec 4 :=
  if nib = 0 then b.extractLsb' 0 4 else b.extractLsb' 4 4

/-- R62, R88: the two-bit code at a sub-byte position, most significant pair first. -/
def codeAt (b : Byte) (pos : BitVec 2) : BitVec 2 := b.extractLsb' (6 - 2 * pos.toNat) 2

/-- R82: a bool result in `RES[0]`. -/
def resBool (b : Bool) : Word := if b then 1 else 0

/-- R82: a sample in `RES[15:0]`, upper bits 0. -/
def resSample (v : Sample) : Word := v.setWidth 32

/-- R82: a duty value in `RES[7:0]`, upper bits 0. -/
def resDuty (d : Byte) : Word := d.setWidth 32

/-- R82, R196: the result of a poll that ticked. -/
def resTicked (d : Byte) : Word := 0x100 + d.setWidth 32

/-- R194 `Duty16(s)`. -/
def duty16 (v : Sample) : Byte := BitVec.ofInt 8 (asr v.toInt 8 + 128)

end Sys2Proof.Machine
end

