-- ==== Sys2Proof/Machine/Flags.lean ====
section
/-! DEFINITION. The conditions the units test. The hardware has no condition codes (spec/10_state.md R30); its
one-bit registers are written where R30 says, from these. -/
namespace Sys2Proof.Machine

/-- R133: nibbles remain. The product is formed without wrap. -/
def imaHasNext (u : Ima) : Bool := decide (2 * u.cur.toNat + u.nib.toNat < u.len.toNat)

/-- R123: codes remain. -/
def twobitHasNext (u : Twobit) : Bool := decide (4 * u.cur.toNat + u.pos.toNat < u.len.toNat)

/-- R146. -/
def lpcHasNext (u : Lpc) : Bool := !u.fin

/-- R30: "voiced" is recomputed from the stored period. -/
def lpcVoiced (u : Lpc) : Bool := u.period != 0

/-- R175, R176: an i32 counter has reached zero. -/
def expired (counter : Word) : Bool := decide (counter.toInt ≤ 0)

/-- R176: commands of the sequence remain. -/
def commandsRemain (t : Track) : Bool := decide (t.index.toNat < t.seqLen.toNat)

/-- R196: microseconds since the mark, by wraparound-safe subtraction. -/
def elapsedUs (now mark : BitVec 16) : Nat := (now - mark).toNat

/-- R196: a sample period has passed. -/
def tickDue (now mark : BitVec 16) : Bool := decide (Config.tickUs ≤ elapsedUs now mark)

end Sys2Proof.Machine
end

