-- ==== Sys2Proof/Machine/Ops.lean ====
section
/-! DEFINITION. The named operations over the memories, and the end of a command. The hardware writes no memory
(spec/20_memory.md R65): the write operations stand for the host that fills `ROM` and `NOTE` before a run (R60,
R222). The hardware takes no exception, saves no state and has no handler or return (spec/60_exceptions.md R200,
R206, R207), so there is no operation for either. -/
namespace Sys2Proof.Machine

/-! ## Sparse memories in one canonical form -/

/-- What address `a` reads as. -/
def readCells {α : Type} (fill : α) : List (Nat × α) → Nat → α
  | [], _ => fill
  | (b, v) :: rest, a => if a = b then v else readCells fill rest a

/-- The list with no entry for address `a`. -/
def eraseCell {α : Type} (a : Nat) : List (Nat × α) → List (Nat × α)
  | [] => []
  | (b, w) :: rest => if a = b then rest else (b, w) :: eraseCell a rest

/-- The list with `v` at address `a`, kept in rising order. -/
def insertCell {α : Type} (a : Nat) (v : α) : List (Nat × α) → List (Nat × α)
  | [] => [(a, v)]
  | (b, w) :: rest =>
    if a < b then (a, v) :: (b, w) :: rest
    else if a = b then (a, v) :: rest
    else (b, w) :: insertCell a v rest

/-- A write keeps the canonical form: the fill value removes the entry. -/
def writeCells {α : Type} [DecidableEq α] (fill : α) (cells : List (Nat × α)) (a : Nat) (v : α) : List (Nat × α) :=
  if v = fill then eraseCell a cells else insertCell a v cells

/-- The canonical form: every address at least `lo` and below `size`, strictly rising, and no entry equal to the
fill value. -/
def cellsWf {α : Type} [DecidableEq α] (fill : α) (size : Nat) : Nat → List (Nat × α) → Bool
  | _, [] => true
  | lo, (a, v) :: rest => decide (lo ≤ a) && decide (a < size) && !decide (v = fill) && cellsWf fill size (a + 1) rest

/-- The size of a memory that has grown to hold its first `n` cells: the larger of `size` and `n`, in a form whose
order against a numeral can be evaluated when `size` is OPEN. -/
def grownSize (size n : Nat) : Nat := size - n + n

/-! ## The stream memory (R60) -/

/-- What a byte of `ROM` that is not listed reads as (log entry 4). -/
def romFill : Byte := 0

/-- R15 `MemRead(addr, 1)`; nothing outside `ROM` (R75). -/
def romRead (m : Rom) (a : Nat) : Option Byte :=
  if a < m.size then some (readCells romFill m.cells a) else none

/-- The host places a byte, the memory growing to hold it. -/
def romWrite (m : Rom) (a : Nat) (v : Byte) : Rom :=
  { size := grownSize m.size (a + 1), cells := writeCells romFill m.cells a v }

/-- The host places bytes from address `a` on. -/
def romLoad (m : Rom) : Nat → List Byte → Rom
  | _, [] => m
  | a, v :: rest => romLoad (romWrite m a v) (a + 1) rest

/-- The canonical form of the stream memory, whose size R60 bounds. -/
def romWf (m : Rom) : Bool := decide (m.size ≤ 2 ^ 32) && cellsWf romFill m.size 0 m.cells

/-! ## The note memory (R63) -/

/-- What a record of `NOTE` that is not listed reads as (log entry 4). -/
def noteFill : NoteRec := ⟨0, 0, 0⟩

/-- R15 `NoteRead`: record number `i`; nothing outside `NOTE` (R75). -/
def noteRead (m : NoteMem) (i : Nat) : Option NoteRec :=
  if i < m.size then some (readCells noteFill m.cells i) else none

/-- The host places a record, the memory growing to hold it. -/
def noteWrite (m : NoteMem) (i : Nat) (r : NoteRec) : NoteMem :=
  { size := grownSize m.size (i + 1), cells := writeCells noteFill m.cells i r }

/-- The canonical form of the note memory. -/
def noteWf (m : NoteMem) : Bool := cellsWf noteFill m.size 0 m.cells

/-- The canonical form of both memories. -/
def Memory.wf (s : State) : Bool := romWf s.rom && noteWf s.note

/-! ## The end of a command -/

/-- R81, R10: a command that ends leaves its result in `RES`; one that is refused leaves nothing (R201). -/
def finish (r : Except Refusal (State × Word)) : Host.Outcome State Fault Refusal :=
  match r with
  | .ok (s, v) => .next { s with res := v }
  | .error e => .refused e

end Sys2Proof.Machine
end

