-- ==== Sys2Proof/Machine/Ima.lean ====
section
/-! DEFINITION. The four-bit IMA ADPCM decoder (spec/42_ima_adpcm.md): commands `IMA.RESET`, `IMA.HASNEXT`,
`IMA.NEXT`, `IMA.ATTACH`, and the stream code `NIB4`. -/
namespace Sys2Proof.Machine

/-- `IMA_STEP[idx]` (R134). The step index is always 0..88 (R21); the lookup is clamped into the table, as R200
says of every table lookup. -/
def imaStepAt (P : Params) (idx : BitVec 7) : Int :=
  (P.imaStep[min idx.toNat Config.imaIdxMax]'(Nat.lt_of_le_of_lt (Nat.min_le_right _ _) (by decide)) : Nat)

/-- `IMA_ADJ[c]` (R131). -/
def imaAdjAt (P : Params) (c : BitVec 4) : Int := P.imaAdj[c.toNat]

/-- R134, R85: the magnitude of a nibble's delta, a sum of separately truncated terms. -/
def imaMagnitude (step : Int) (c : BitVec 4) : Int :=
  asr step 3 + (if c.getLsbD 0 then asr step 2 else 0) + (if c.getLsbD 1 then asr step 1 else 0) +
    (if c.getLsbD 2 then step else 0)

/-- R134: `diff`, negated as a whole when bit 3 is set. -/
def imaDiff (step : Int) (c : BitVec 4) : Int :=
  if c.getLsbD 3 then -imaMagnitude step c else imaMagnitude step c

/-- R134: the cursor moves on by one nibble; the byte cursor only after the high nibble. -/
def imaAdvance (u : Ima) : Ima :=
  if u.nib = 0 then { u with nib := 1 } else { u with nib := 0, cur := u.cur + 1 }

/-- R134: one nibble is decoded. Step and predictor are those before the update. -/
def imaDecode (P : Params) (c : BitVec 4) (u : Ima) : Ima :=
  { imaAdvance u with
    pred := BitVec.ofInt 16 (clamp (u.pred.toInt + imaDiff (imaStepAt P u.idx) c) (-32768) 32767)
    idx := BitVec.ofInt 7 (clamp (u.idx.toNat + imaAdjAt P c) 0 Config.imaIdxMax) }

/-- R134: the ROM address of the byte that holds the next nibble, formed without wrap (R61). -/
def imaAddr (u : Ima) : Nat := u.base.toNat + u.cur.toNat

/-- R134 `nextSample()`, with the nibble taken from the byte read as `pick` says. -/
def imaPull (P : Params) (rom : Rom) (pick : Byte → BitVec 4) (u : Ima) : Except Refusal (Ima × Sample) :=
  if imaHasNext u then
    match romRead rom (imaAddr u) with
    | some b => .ok (imaDecode P (pick b) u, (imaDecode P (pick b) u).pred)
    | none => .error (.streamOverrun .ima (imaAddr u))
  else .ok (u, 0)

/-- `IMA.NEXT`'s pull: the nibble at the cursor (R134, R86). -/
def imaNextPull (P : Params) (rom : Rom) (u : Ima) : Except Refusal (Ima × Sample) :=
  imaPull P rom (fun b => nibbleAt b u.nib) u

/-- R132: the start-of-stream state; `base` and `len` are unchanged. -/
def imaRestart (P : Params) (u : Ima) : Ima :=
  { u with cur := 0, nib := 0, pred := P.imaInitPred, idx := P.imaInitIdx }

/-- The end of a command that pulls a sample from the unit. -/
def imaFinish (s : State) (r : Except Refusal (Ima × Sample)) : Host.Outcome State Fault Refusal :=
  match r with
  | .ok (u, v) => finish (.ok ({ s with ima := u }, resSample v))
  | .error e => finish (.error e)

/-- `IMA.RESET` (R132). -/
def execImaReset (s : State) : Host.Outcome State Fault Refusal :=
  finish (.ok ({ s with ima := imaRestart s.params s.ima }, 0))

/-- `IMA.HASNEXT` (R133). -/
def execImaHasNext (s : State) : Host.Outcome State Fault Refusal :=
  finish (.ok (s, resBool (imaHasNext s.ima)))

/-- `IMA.NEXT` (R134). -/
def execImaNext (s : State) : Host.Outcome State Fault Refusal :=
  imaFinish s (imaNextPull s.params s.rom s.ima)

/-- `IMA.ATTACH` (R135). -/
def execImaAttach (base len : Word) (s : State) : Host.Outcome State Fault Refusal :=
  finish (.ok ({ s with ima := imaRestart s.params { s.ima with base := base, len := len } }, 0))

/-- `NIB4` (R85, R134): what `IMA.NEXT` does when the nibble at its cursor is `c` (log entry 8). -/
def execNib4 (c : BitVec 4) (s : State) : Host.Outcome State Fault Refusal :=
  imaFinish s (imaPull s.params s.rom (fun _ => c) s.ima)

end Sys2Proof.Machine
end

