-- ==== Sys2Proof/Machine/Lpc.lean ====
section
/-! DEFINITION. The LPC speech synthesizer (spec/43_lpc_synth.md): commands `LPC.RESET`, `LPC.HASNEXT`,
`LPC.NEXT`, `LPC.ATTACH`, `LPC.START`, and the frame layouts `LPCF`. -/
namespace Sys2Proof.Machine

/-! ## Tables by chip mode (R140, R141) -/

/-- The tables of table index `t = LPC.mode`. -/
def lpcTables (P : Params) (mode : BitVec 1) : LpcTables := if mode = 0 then P.lpc0 else P.lpc1

/-- `LPC_PERIOD[t][p]`, `p` of 6 bits in mode 0 and of 5 bits in mode 1. -/
def lpcPeriodAt (P : Params) (mode : BitVec 1) (p : BitVec 6) : Byte :=
  if mode = 0 then P.lpcPeriod0[p.toNat] else P.lpcPeriod1[(p.setWidth 5 : BitVec 5).toNat]

/-- R91: the looked-up period is not 0. -/
def lpcVoicedPitch (P : Params) (mode : BitVec 1) (p : BitVec 6) : Bool := lpcPeriodAt P mode p != 0

/-! ## The bit reader (R142) -/

/-- The bit cursor as a stream bit number (R89). -/
def lpcPos (u : Lpc) : Nat := 8 * u.cur.toNat + u.bit.toNat

/-- The unit with its cursor at stream bit `q`. -/
def lpcSeek (u : Lpc) (q : Nat) : Lpc := { u with cur := BitVec.ofNat 32 (q / 8), bit := BitVec.ofNat 3 (q % 8) }

/-- R89, R142: stream bit `q` of the attached window, nothing outside it or outside `ROM` (R75). -/
def lpcBit (rom : Rom) (u : Lpc) : BitSource := fun q =>
  if q / 8 < u.len.toNat then (romRead rom (u.base.toNat + q / 8)).map (fun b => b.getLsbD (q % 8)) else none

/-- The bits of `src` from position `q0` on replaced by `given`, as far as it goes. -/
def overlay (given : List Bool) (q0 : Nat) (src : BitSource) : BitSource := fun q =>
  (src q).map (fun b => given.getD (q - q0) b)

/-! ## Frames (R148 to R151) -/

/-- R151: `K1` to `K4` from the tables. -/
def lpcLowK (T : LpcTables) (lo : KLow) (k : LpcK) : LpcK :=
  { k with k1 := T.k1[lo.k1.toNat], k2 := T.k2[lo.k2.toNat], k3 := T.k3[lo.k3.toNat], k4 := T.k4[lo.k4.toNat] }

/-- R151: `K5` to `K10` from the tables. -/
def lpcHighK (T : LpcTables) (hi : KHigh) (k : LpcK) : LpcK :=
  { k with
    k5 := T.k5[hi.k5.toNat], k6 := T.k6[hi.k6.toNat], k7 := T.k7[hi.k7.toNat]
    k8 := T.k8[hi.k8.toNat], k9 := T.k9[hi.k9.toNat], k10 := T.k10[hi.k10.toNat] }

/-- R151: `K5` to `K10` zeroed. -/
def lpcClearHighK (k : LpcK) : LpcK := { k with k5 := 0, k6 := 0, k7 := 0, k8 := 0, k9 := 0, k10 := 0 }

/-- The frame registers a decoded frame writes (R149, R150, R151). -/
def lpcApply (P : Params) (f : Frame) (u : Lpc) : Lpc :=
  match f with
  | .silence => { u with energy := 0, period := 0 }
  | .stop => { u with energy := 0, k := LpcK.zero, fin := true }
  | .repeated e p =>
    { u with
      energy := (lpcTables P u.mode).energy[e.toNat]
      period := lpcPeriodAt P u.mode p
      k := if lpcPeriodAt P u.mode p = 0 then lpcClearHighK u.k else u.k }
  | .unvoiced e p lo =>
    { u with
      energy := (lpcTables P u.mode).energy[e.toNat]
      period := lpcPeriodAt P u.mode p
      k := lpcClearHighK (lpcLowK (lpcTables P u.mode) lo u.k) }
  | .voiced e p lo hi =>
    { u with
      energy := (lpcTables P u.mode).energy[e.toNat]
      period := lpcPeriodAt P u.mode p
      k := lpcHighK (lpcTables P u.mode) hi (lpcLowK (lpcTables P u.mode) lo u.k) }

/-- R148 `DecodeFrame()`, with the bits at the cursor being `given` as far as it goes and the stream's after it.
The refusal records the byte address of the first bit that may not be read (R142). -/
def lpcDecodeFrame (P : Params) (rom : Rom) (given : List Bool) (u : Lpc) : Except Refusal Lpc :=
  match parseFrame u.mode (lpcVoicedPitch P u.mode) (overlay given (lpcPos u) (lpcBit rom u)) (lpcPos u) with
  | .ok (f, q) => .ok (lpcApply P f (lpcSeek u q))
  | .error q => .error (.streamOverrun .lpc (u.base.toNat + q / 8))

/-! ## Excitation (R152, R154) -/

/-- R152: the waveform entry at a pitch position, the lookup index clamped into the table. -/
def lpcWaveAt (P : Params) (ppos : Byte) : BitVec 8 :=
  if h : ppos.toNat < 41 then P.lpcWave[ppos.toNat] else P.lpcWave[0]

/-- R152: the pitch position after this sample. -/
def lpcNextPpos (u : Lpc) : Byte := if u.period.toNat ≤ u.ppos.toNat + 1 then 0 else u.ppos + 1

/-- R152 `VoicedExcitation()`: the excitation value. -/
def lpcVoicedValue (P : Params) (u : Lpc) : Sample :=
  wraps16 (asr ((lpcWaveAt P u.ppos).toInt * u.energy.toNat) 8)

/-- R154: one step of the right-shifting Galois register. -/
def lfsrStep (r : BitVec 16) : BitVec 16 := if r.getLsbD 0 then (r >>> 1) ^^^ Config.lfsrPoly else r >>> 1

/-- R154 `UnvoicedExcitation()`: the excitation value, by the new low bit. -/
def lpcUnvoicedValue (u : Lpc) : Sample :=
  if (lfsrStep u.lfsr).getLsbD 0 then wraps16 u.energy.toNat else wraps16 (-(u.energy.toNat : Int))

/-- The excitation of this sample and the unit with its generator stepped (R147, R152, R154). -/
def lpcExcite (P : Params) (u : Lpc) : Lpc × Sample :=
  if lpcVoiced u then ({ u with ppos := lpcNextPpos u }, lpcVoicedValue P u)
  else ({ u with lfsr := lfsrStep u.lfsr }, lpcUnvoicedValue u)

/-! ## The lattice filter (R153, R155 to R157) -/

/-- R153 `Term(i, v)` for i = 1, 2: the exact 32-bit product, shifted by 15. -/
def wideTerm (k : BitVec 16) (v : Sample) : Int := asr (k.toInt * v.toInt) 15

/-- R153 `Term(i, v)` for i = 3..10: the product, wrapped to 16 bits where `LPC_NARROW_WRAP` says, shifted
by 7. -/
def narrowTerm (P : Params) (k : BitVec 8) (v : Sample) : Int :=
  asr (if P.lpcNarrowWrap then (wraps16 (k.toInt * v.toInt)).toInt else k.toInt * v.toInt) 7

/-- R155: `wraps_16(u[i] - term)`. -/
def forwardStage (u : Sample) (term : Int) : Sample := wraps16 (u.toInt - term)

/-- R157: `wraps_16(x[i-1] + term)`. -/
def reverseStage (x : Sample) (term : Int) : Sample := wraps16 (x.toInt + term)

/-- The intermediate values of one sample (R155); they do not outlive it (R33). -/
structure Forward where
  u9 : Sample
  u8 : Sample
  u7 : Sample
  u6 : Sample
  u5 : Sample
  u4 : Sample
  u3 : Sample
  u2 : Sample
  u1 : Sample
  u0 : Sample
deriving DecidableEq, Repr

/-- R155 `ForwardPass(u10)`, from K10 down to K1. -/
def forwardPass (P : Params) (k : LpcK) (x : Vector Sample 10) (u10 : Sample) : Forward :=
  let u9 := forwardStage u10 (narrowTerm P k.k10 x[9])
  let u8 := forwardStage u9 (narrowTerm P k.k9 x[8])
  let u7 := forwardStage u8 (narrowTerm P k.k8 x[7])
  let u6 := forwardStage u7 (narrowTerm P k.k7 x[6])
  let u5 := forwardStage u6 (narrowTerm P k.k6 x[5])
  let u4 := forwardStage u5 (narrowTerm P k.k5 x[4])
  let u3 := forwardStage u4 (narrowTerm P k.k4 x[3])
  let u2 := forwardStage u3 (narrowTerm P k.k3 x[2])
  let u1 := forwardStage u2 (wideTerm k.k2 x[1])
  let u0 := forwardStage u1 (wideTerm k.k1 x[0])
  ⟨u9, u8, u7, u6, u5, u4, u3, u2, u1, u0⟩

/-- R156: the clamped filter output. -/
def clampOutput (u0 : Sample) : Sample := BitVec.ofInt 16 (clamp u0.toInt Config.u0Min Config.u0Max)

/-- R157 `ReversePass`: the new delay line, every right-hand side taken before the update. -/
def reversePass (P : Params) (k : LpcK) (x : Vector Sample 10) (f : Forward) (u0c : Sample) : Vector Sample 10 :=
  #v[u0c,
    reverseStage x[0] (wideTerm k.k1 u0c),
    reverseStage x[1] (wideTerm k.k2 f.u1),
    reverseStage x[2] (narrowTerm P k.k3 f.u2),
    reverseStage x[3] (narrowTerm P k.k4 f.u3),
    reverseStage x[4] (narrowTerm P k.k5 f.u4),
    reverseStage x[5] (narrowTerm P k.k6 f.u5),
    reverseStage x[6] (narrowTerm P k.k7 f.u6),
    reverseStage x[7] (narrowTerm P k.k8 f.u7),
    reverseStage x[8] (narrowTerm P k.k9 f.u8)]

/-- The filter of one sample: the new delay line and the clamped output (R155 to R157). -/
def lattice (P : Params) (k : LpcK) (x : Vector Sample 10) (u10 : Sample) : Vector Sample 10 × Sample :=
  (reversePass P k x (forwardPass P k x u10) (clampOutput (forwardPass P k x u10).u0),
    clampOutput (forwardPass P k x u10).u0)

/-- R158: `u0c << 6`. -/
def scaleOutput (u0c : Sample) : Sample := wraps16 (u0c.toInt * 64)

/-! ## One sample (R147) -/

/-- R147 after the frame decode: the position, the excitation, the filter, the result. -/
def lpcSample (P : Params) (u : Lpc) : Lpc × Sample :=
  ({ (lpcExcite P u).1 with
      fpos := BitVec.ofNat 8 ((u.fpos.toNat + 1) % Config.frameSamples)
      x := (lattice P u.k u.x (lpcExcite P u).2).1 },
    scaleOutput (lattice P u.k u.x (lpcExcite P u).2).2)

/-- R147 `nextSample()`: a frame is decoded when the position is 0; the call that meets the stop frame
returns 0. -/
def lpcNextPull (P : Params) (rom : Rom) (u : Lpc) : Except Refusal (Lpc × Sample) :=
  if u.fin then .ok (u, 0)
  else if u.fpos = 0 then
    match lpcDecodeFrame P rom [] u with
    | .ok v => if v.fin then .ok (v, 0) else .ok (lpcSample P v)
    | .error e => .error e
  else .ok (lpcSample P u)

/-- R143: the start-of-stream state; `base`, `len` and `mode` are unchanged. -/
def lpcRestart (u : Lpc) : Lpc :=
  { u with
    cur := 0, bit := 0, fpos := 0, energy := 0, period := 0, k := LpcK.zero
    x := #v[0, 0, 0, 0, 0, 0, 0, 0, 0, 0], ppos := 0, lfsr := Config.lfsrSeed, fin := false }

/-- The end of a command that pulls a sample from the unit. -/
def lpcFinish (s : State) (r : Except Refusal (Lpc × Sample)) : Host.Outcome State Fault Refusal :=
  match r with
  | .ok (u, v) => finish (.ok ({ s with lpc := u }, resSample v))
  | .error e => finish (.error e)

/-- A frame by itself (log entry 8): what `DecodeFrame()` does when the bits at the cursor are those of the
frame. It is no command and leaves `RES` as it was. -/
def lpcFrame (mode : BitVec 1) (f : Frame) (s : State) : Host.Outcome State Fault Refusal :=
  match lpcDecodeFrame s.params s.rom (frameBits mode f) s.lpc with
  | .ok u => finish (.ok ({ s with lpc := u }, s.res))
  | .error e => finish (.error e)

/-- `LPC.RESET` (R143). -/
def execLpcReset (s : State) : Host.Outcome State Fault Refusal :=
  finish (.ok ({ s with lpc := lpcRestart s.lpc }, 0))

/-- `LPC.HASNEXT` (R146). -/
def execLpcHasNext (s : State) : Host.Outcome State Fault Refusal :=
  finish (.ok (s, resBool (lpcHasNext s.lpc)))

/-- `LPC.NEXT` (R147). -/
def execLpcNext (s : State) : Host.Outcome State Fault Refusal :=
  lpcFinish s (lpcNextPull s.params s.rom s.lpc)

/-- `LPC.ATTACH` (R145). -/
def execLpcAttach (base len : Word) (s : State) : Host.Outcome State Fault Refusal :=
  finish (.ok ({ s with lpc := lpcRestart { s.lpc with base := base, len := len } }, 0))

/-- `LPC.START` (R144). -/
def execLpcStart (mode : BitVec 1) (s : State) : Host.Outcome State Fault Refusal :=
  finish (.ok ({ s with lpc := lpcRestart { s.lpc with mode := mode } }, 0))

/-- `LPCF.SILENCE` (R149). -/
def execLpcfSilence (s : State) : Host.Outcome State Fault Refusal := lpcFrame s.lpc.mode .silence s

/-- `LPCF.STOP` (R150). -/
def execLpcfStop (s : State) : Host.Outcome State Fault Refusal := lpcFrame s.lpc.mode .stop s

/-- `LPCF.REPEAT.M0` (R151). -/
def execLpcfRepeatM0 (e : BitVec 4) (p : BitVec 6) (s : State) : Host.Outcome State Fault Refusal :=
  lpcFrame 0 (.repeated e p) s

/-- `LPCF.UNVOICED.M0` (R151). -/
def execLpcfUnvoicedM0 (e : BitVec 4) (p : BitVec 6) (lo : KLow) (s : State) : Host.Outcome State Fault Refusal :=
  lpcFrame 0 (.unvoiced e p lo) s

/-- `LPCF.VOICED.M0` (R151). -/
def execLpcfVoicedM0 (e : BitVec 4) (p : BitVec 6) (lo : KLow) (hi : KHigh) (s : State) :
    Host.Outcome State Fault Refusal :=
  lpcFrame 0 (.voiced e p lo hi) s

/-- `LPCF.REPEAT.M1` (R151). -/
def execLpcfRepeatM1 (e : BitVec 4) (p : BitVec 5) (s : State) : Host.Outcome State Fault Refusal :=
  lpcFrame 1 (.repeated e (p.setWidth 6)) s

/-- `LPCF.UNVOICED.M1` (R151). -/
def execLpcfUnvoicedM1 (e : BitVec 4) (p : BitVec 5) (lo : KLow) (s : State) : Host.Outcome State Fault Refusal :=
  lpcFrame 1 (.unvoiced e (p.setWidth 6) lo) s

/-- `LPCF.VOICED.M1` (R151). -/
def execLpcfVoicedM1 (e : BitVec 4) (p : BitVec 5) (lo : KLow) (hi : KHigh) (s : State) :
    Host.Outcome State Fault Refusal :=
  lpcFrame 1 (.voiced e (p.setWidth 6) lo hi) s

end Sys2Proof.Machine
end

