-- ==== Sys2Proof/Machine/Mix.lean ====
section
/-! DEFINITION. The polyphonic mixer (spec/44_mixer.md): the note scheduler, the oscillator bank and the output
stage; commands `MIX.RESET`, `MIX.BIND`, `MIX.ALLOFF`, `MIX.TICK`, and the note record `NOTE3`. -/
namespace Sys2Proof.Machine

/-- The voices and tracks in ascending order (R174). -/
def lanes : List (Fin 8) := [0, 1, 2, 3, 4, 5, 6, 7]

/-- `NoteRead(base, i)` of the mixer (R15, R75): the record index is formed without wrap. -/
def mixNoteRead (note : NoteMem) (index : Nat) : Except Refusal NoteRec :=
  match noteRead note index with
  | some r => .ok r
  | none => .error (.streamOverrun .mix index)

/-- The record index at the track's cursor. -/
def cursorIndex (t : Track) : Nat := t.seqBase.toNat + t.index.toNat

/-- R177: the adjusted period, a truncating division. -/
def adjustedPeriod (periodUs pitchShift : Word) : Nat :=
  if 1 < pitchShift.toNat then periodUs.toNat / pitchShift.toNat else periodUs.toNat

/-- R177 `PhaseInc(period_us, pitch_shift)`. -/
def phaseInc (periodUs pitchShift : Word) : Word :=
  let adj := adjustedPeriod periodUs pitchShift
  if adj = 0 then 0
  else BitVec.ofNat 32 ((2 ^ 32 * 10 ^ 6 + adj * Config.sampleRateHz / 2) / (adj * Config.sampleRateHz))

/-- An i32 counter less one tick (R175, R176). -/
def countDown (counter : Word) : Word := wraps32 (counter.toInt - Config.tickUs)

/-! ## The scheduler (R174 to R178) -/

/-- R175 `ScheduleActive(k)`: `rd` answers the read of the record at the track's cursor. -/
def scheduleActive (rd : Nat → Except Refusal NoteRec) (t : Track) (v : Voice) : Except Refusal (Track × Voice) :=
  let t := { t with durationLeftUs := countDown t.durationLeftUs }
  if expired t.durationLeftUs then
    let v := { v with active := false, amp := 0 }
    if commandsRemain t then
      match rd (cursorIndex t) with
      | .ok r => .ok ({ t with delayLeftUs := r.delayUs }, v)
      | .error e => .error e
    else .ok ({ t with armed := false }, v)
  else .ok (t, v)

/-- R176, R177, R178: the track consumes record `r` and starts its voice, or leaves it silent for a rest. -/
def startNote (P : Params) (r : NoteRec) (t : Track) (v : Voice) : Track × Voice :=
  ({ t with index := t.index + 1, durationLeftUs := r.durationUs },
    { v with
      phaseInc := phaseInc r.periodUs t.pitchShift
      phase := 0
      amp := P.mixAmp
      active := phaseInc r.periodUs t.pitchShift != 0 })

/-- R176 `ScheduleInactive(k)`, for a track with commands left. -/
def scheduleInactive (P : Params) (rd : Nat → Except Refusal NoteRec) (t : Track) (v : Voice) :
    Except Refusal (Track × Voice) :=
  let t := { t with delayLeftUs := countDown t.delayLeftUs }
  if expired t.delayLeftUs then
    match rd (cursorIndex t) with
    | .ok r => .ok (startNote P r t v)
    | .error e => .error e
  else .ok (t, v)

/-- R174: exactly one branch for a track in a tick. -/
def scheduleTrack (P : Params) (rd : Nat → Except Refusal NoteRec) (t : Track) (v : Voice) :
    Except Refusal (Track × Voice) :=
  if t.armed then
    if v.active then scheduleActive rd t v
    else if commandsRemain t then scheduleInactive P rd t v
    else .ok (t, v)
  else .ok (t, v)

/-- One track of the mixer is scheduled. -/
def scheduleLane (P : Params) (rd : Nat → Except Refusal NoteRec) (m : Mix) (k : Fin 8) : Except Refusal Mix :=
  match scheduleTrack P rd m.track[k] m.voice[k] with
  | .ok (t, v) => .ok { voice := m.voice.set k v, track := m.track.set k t }
  | .error e => .error e

/-- R174: the tracks of the list are scheduled in its order; the first refusal is reported (R205). -/
def scheduleLanes (P : Params) (rd : Nat → Except Refusal NoteRec) : List (Fin 8) → Mix → Except Refusal Mix
  | [], m => .ok m
  | k :: ks, m =>
    match scheduleLane P rd m k with
    | .ok m' => scheduleLanes P rd ks m'
    | .error e => .error e

/-! ## The oscillators and the output stage (R179, R180) -/

/-- R179: the phase of an active voice advances; an inactive voice is left alone. -/
def advanceVoice (v : Voice) : Voice := if v.active then { v with phase := v.phase + v.phaseInc } else v

/-- R179: what a voice contributes, by the top bit of its (advanced) phase. -/
def voiceSample (v : Voice) : Int :=
  if v.active then (if v.phase.getLsbD 31 then v.amp.toInt else -v.amp.toInt) else 0

/-- R179: every active voice advances. -/
def advanceVoices (m : Mix) : Mix := { m with voice := Vector.ofFn fun k => advanceVoice m.voice[k] }

/-- R174: the sum over the voices. -/
def mixSum (m : Mix) : Int := (lanes.map fun k => voiceSample m.voice[k]).sum

/-- R180 `Finish(sum)`. -/
def mixOutput (P : Params) (sum : Int) : Byte :=
  BitVec.ofInt 8 (clamp (clamp sum (-P.mixLimit) P.mixLimit + P.mixBias) 0 255)

/-- R174: scheduling, then mixing. -/
def mixTickPull (P : Params) (note : NoteMem) (m : Mix) : Except Refusal (Mix × Byte) :=
  match scheduleLanes P (mixNoteRead note) lanes m with
  | .ok m' => .ok (advanceVoices m', mixOutput P (mixSum (advanceVoices m')))
  | .error e => .error e

/-! ## Bind and all-off (R172, R173) -/

/-- R172: a `pitch_shift` of 0 is stored as 1. -/
def storedShift (d : Word) : Word := if d = 0 then 1 else d

/-- R172: the track after a bind whose first record has delay `delayUs`. -/
def boundTrack (t : Track) (seqBase seqLen pitchShift delayUs : Word) : Track :=
  { t with
    seqBase := seqBase, seqLen := seqLen, index := 0, pitchShift := storedShift pitchShift
    delayLeftUs := delayUs, armed := seqLen != 0 }

/-- R172: the bind of track `k`; an empty sequence reads no record. -/
def bindTrack (note : NoteMem) (m : Mix) (k : Fin 8) (seqBase seqLen pitchShift : Word) : Except Refusal Mix :=
  if seqLen = 0 then .ok { m with track := m.track.set k (boundTrack m.track[k] seqBase seqLen pitchShift 0) }
  else
    match mixNoteRead note seqBase.toNat with
    | .ok r => .ok { m with track := m.track.set k (boundTrack m.track[k] seqBase seqLen pitchShift r.delayUs) }
    | .error e => .error e

/-- R173. -/
def silenceAll (m : Mix) : Mix where
  voice := Vector.ofFn fun k => { m.voice[k] with active := false }
  track := Vector.ofFn fun k => { m.track[k] with durationLeftUs := 0 }

/-- R171: every voice and track zeroed, but for `pitch_shift`, which is 1. -/
def mixRestart : Mix where
  voice := Vector.ofFn fun _ => { phase := 0, phaseInc := 0, active := false, amp := 0 }
  track := Vector.ofFn fun _ =>
    { seqBase := 0, seqLen := 0, index := 0, delayLeftUs := 0, durationLeftUs := 0, pitchShift := 1, armed := false }

/-- The end of a mixer command with result `v`. -/
def mixFinish (s : State) (r : Except Refusal (Mix × Word)) : Host.Outcome State Fault Refusal :=
  match r with
  | .ok (m, v) => finish (.ok ({ s with mix := m }, v))
  | .error e => finish (.error e)

/-- `MIX.RESET` (R171). -/
def execMixReset (s : State) : Host.Outcome State Fault Refusal :=
  finish (.ok ({ s with mix := mixRestart }, 0))

/-- `MIX.BIND` (R172): an out-of-range track is a no-op, the comparison being on the whole operand. -/
def execMixBind (trackId seqBase seqLen pitchShift : Word) (s : State) : Host.Outcome State Fault Refusal :=
  if h : trackId.toNat < 8 then
    mixFinish s ((bindTrack s.note s.mix ⟨trackId.toNat, h⟩ seqBase seqLen pitchShift).map fun m => (m, 0))
  else finish (.ok (s, 0))

/-- `MIX.ALLOFF` (R173). -/
def execMixAllOff (s : State) : Host.Outcome State Fault Refusal :=
  finish (.ok ({ s with mix := silenceAll s.mix }, 0))

/-- `MIX.TICK` (R174). -/
def execMixTick (s : State) : Host.Outcome State Fault Refusal :=
  mixFinish s ((mixTickPull s.params s.note s.mix).map fun (m, d) => (m, resDuty d))

/-- `NOTE3` (R94, R175, R176): what the scheduler does with track `k` in one tick when the record at the track's
cursor is `r` (log entry 9). The read is still of a place inside `NOTE` (R75). It is no command and leaves `RES`
as it was. -/
def execNote3 (k : Fin 8) (r : NoteRec) (s : State) : Host.Outcome State Fault Refusal :=
  mixFinish s ((scheduleLane s.params (fun i => (mixNoteRead s.note i).map fun _ => r) s.mix k).map fun m => (m, s.res))

end Sys2Proof.Machine
end

