-- ==== Sys2Proof/Machine/Twobit.lean ====
section
/-! DEFINITION. The two-bit ADPCM decoder (spec/41_twobit_adpcm.md): commands `TWOBIT.RESET`, `TWOBIT.HASNEXT`,
`TWOBIT.NEXT`, `TWOBIT.ATTACH`, and the stream codes `CODE2.0` to `CODE2.3`. -/
namespace Sys2Proof.Machine

/-- `TWOBIT_STEP[idx]` (R124, R121). -/
def twobitStepAt (P : Params) (idx : BitVec 4) : Int := (P.twobitStep[idx.toNat] : Nat)

/-- `TWOBIT_ADJ[code]` (R120). -/
def twobitAdjAt (c : BitVec 2) : Int := Config.twobitAdj[c.toNat]

/-- R87, R124: `-step`, `+step`, `-2*step`, `+2*step` by code. -/
def twobitDelta (step : Int) (c : BitVec 2) : Int :=
  if c = 0 then -step else if c = 1 then step else if c = 2 then -2 * step else 2 * step

/-- R124: the cursor moves on by one code; the byte cursor after the fourth. -/
def twobitAdvance (u : Twobit) : Twobit :=
  if u.pos = 3 then { u with pos := 0, cur := u.cur + 1 } else { u with pos := u.pos + 1 }

/-- R124: one code is decoded. Step and predictor are those before the update. -/
def twobitDecode (P : Params) (c : BitVec 2) (u : Twobit) : Twobit :=
  { twobitAdvance u with
    pred := BitVec.ofInt 8 (clamp (u.pred.toNat + twobitDelta (twobitStepAt P u.idx) c) 0 255)
    idx := BitVec.ofInt 4 (clamp (u.idx.toNat + twobitAdjAt c) 0 Config.twobitIdxMax) }

/-- R124: `(pred - 128) * 256`. -/
def twobitSample (u : Twobit) : Sample := BitVec.ofInt 16 (((u.pred.toNat : Int) - 128) * 256)

/-- R124: the ROM address of the byte that holds the next code, formed without wrap (R61). -/
def twobitAddr (u : Twobit) : Nat := u.base.toNat + u.cur.toNat

/-- R124 `nextSample()`, with the code taken from the byte read as `pick` says. -/
def twobitPull (P : Params) (rom : Rom) (pick : Byte → BitVec 2) (u : Twobit) : Except Refusal (Twobit × Sample) :=
  if twobitHasNext u then
    match romRead rom (twobitAddr u) with
    | some b => .ok (twobitDecode P (pick b) u, twobitSample (twobitDecode P (pick b) u))
    | none => .error (.streamOverrun .twobit (twobitAddr u))
  else .ok (u, 0)

/-- `TWOBIT.NEXT`'s pull: the code at the cursor (R124, R88). -/
def twobitNextPull (P : Params) (rom : Rom) (u : Twobit) : Except Refusal (Twobit × Sample) :=
  twobitPull P rom (fun b => codeAt b u.pos) u

/-- R122: the start-of-stream state; `base` and `len` are unchanged. -/
def twobitRestart (u : Twobit) : Twobit := { u with cur := 0, pos := 0, pred := 128, idx := 0 }

/-- The end of a command that pulls a sample from the unit. -/
def twobitFinish (s : State) (r : Except Refusal (Twobit × Sample)) : Host.Outcome State Fault Refusal :=
  match r with
  | .ok (u, v) => finish (.ok ({ s with twobit := u }, resSample v))
  | .error e => finish (.error e)

/-- `TWOBIT.RESET` (R122). -/
def execTwobitReset (s : State) : Host.Outcome State Fault Refusal :=
  finish (.ok ({ s with twobit := twobitRestart s.twobit }, 0))

/-- `TWOBIT.HASNEXT` (R123). -/
def execTwobitHasNext (s : State) : Host.Outcome State Fault Refusal :=
  finish (.ok (s, resBool (twobitHasNext s.twobit)))

/-- `TWOBIT.NEXT` (R124). -/
def execTwobitNext (s : State) : Host.Outcome State Fault Refusal :=
  twobitFinish s (twobitNextPull s.params s.rom s.twobit)

/-- `TWOBIT.ATTACH` (R125). -/
def execTwobitAttach (base len : Word) (s : State) : Host.Outcome State Fault Refusal :=
  finish (.ok ({ s with twobit := twobitRestart { s.twobit with base := base, len := len } }, 0))

/-- `CODE2.0` (R87, R124): what `TWOBIT.NEXT` does when the code at its cursor is 0 (log entry 8). -/
def execCode2_0 (s : State) : Host.Outcome State Fault Refusal :=
  twobitFinish s (twobitPull s.params s.rom (fun _ => 0) s.twobit)

/-- `CODE2.1` (R87, R124): what `TWOBIT.NEXT` does when the code at its cursor is 1. -/
def execCode2_1 (s : State) : Host.Outcome State Fault Refusal :=
  twobitFinish s (twobitPull s.params s.rom (fun _ => 1) s.twobit)

/-- `CODE2.2` (R87, R124): what `TWOBIT.NEXT` does when the code at its cursor is 2. -/
def execCode2_2 (s : State) : Host.Outcome State Fault Refusal :=
  twobitFinish s (twobitPull s.params s.rom (fun _ => 2) s.twobit)

/-- `CODE2.3` (R87, R124): what `TWOBIT.NEXT` does when the code at its cursor is 3. -/
def execCode2_3 (s : State) : Host.Outcome State Fault Refusal :=
  twobitFinish s (twobitPull s.params s.rom (fun _ => 3) s.twobit)

end Sys2Proof.Machine
end

