-- ==== Sys2Proof/Machine/Player.lean ====
section
/-! DEFINITION. The sample-clock player (spec/45_player.md): the tick body with its source mux and duty output;
commands `PLAYER.RESET`, `PLAYER.SELECT`, `PLAYER.POLL`, `PLAYER.TICK`. -/
namespace Sys2Proof.Machine

/-- R193: the pull of the selected source and the duty value it gives. -/
def playerPull (s : State) : Except Refusal (State × Byte) :=
  if s.player.sel = 0 then (imaNextPull s.params s.rom s.ima).map fun (u, v) => ({ s with ima := u }, duty16 v)
  else if s.player.sel = 1 then
    (twobitNextPull s.params s.rom s.twobit).map fun (u, v) => ({ s with twobit := u }, duty16 v)
  else if s.player.sel = 2 then (lpcNextPull s.params s.rom s.lpc).map fun (u, v) => ({ s with lpc := u }, duty16 v)
  else (mixTickPull s.params s.note s.mix).map fun (m, d) => ({ s with mix := m }, d)

/-- R195 `DutyWrite(d)`. -/
def dutyWrite (s : State) (d : Byte) : State := { s with player := { s.player with duty := some d } }

/-- R193 `DoTick()`: exactly one pull, and its duty value written to the PWM sink. -/
def doTick (s : State) : Except Refusal (State × Byte) := (playerPull s).map fun (t, d) => (dutyWrite t d, d)

/-- R196: the mark advances by exactly one sample period. -/
def advanceMark (s : State) : State :=
  { s with player := { s.player with mark := s.player.mark + BitVec.ofNat 16 Config.tickUs } }

/-- R191. -/
def playerRestart : Player := { sel := 0, run := false, mark := 0, duty := none }

/-- `PLAYER.RESET` (R191). -/
def execPlayerReset (s : State) : Host.Outcome State Fault Refusal :=
  finish (.ok ({ s with player := playerRestart }, 0))

/-- `PLAYER.SELECT` (R192): an out-of-range select is a no-op, the comparison being on the whole operand. -/
def execPlayerSelect (sel : Word) (now : BitVec 16) (s : State) : Host.Outcome State Fault Refusal :=
  if sel.toNat < 4 then
    finish (.ok ({ s with player := { s.player with sel := sel.setWidth 2, run := true, mark := now } }, 0))
  else finish (.ok (s, 0))

/-- `PLAYER.POLL` (R196): the mark is advanced before the tick body runs. -/
def execPlayerPoll (now : BitVec 16) (s : State) : Host.Outcome State Fault Refusal :=
  if s.player.run && tickDue now s.player.mark then
    finish ((doTick (advanceMark s)).map fun (t, d) => (t, resTicked d))
  else finish (.ok (s, 0))

/-- `PLAYER.TICK` (R197). -/
def execPlayerTick (s : State) : Host.Outcome State Fault Refusal :=
  if s.player.run then finish ((doTick s).map fun (t, d) => (t, resDuty d))
  else finish (.ok (s, 0))

end Sys2Proof.Machine
end

