-- ==== Sys2Proof/Machine/Dispatch.lean ====
section
/-! DEFINITION. `exec`: one arm per instruction, each one call of its meaning. -/
namespace Sys2Proof.Machine

def exec (i : Instr) (s : State) : Host.Outcome State Fault Refusal :=
  match i with
  | .imaReset => Sys2Proof.Machine.execImaReset s
  | .imaHasNext => Sys2Proof.Machine.execImaHasNext s
  | .imaNext => Sys2Proof.Machine.execImaNext s
  | .imaAttach base len => Sys2Proof.Machine.execImaAttach base len s
  | .twobitReset => Sys2Proof.Machine.execTwobitReset s
  | .twobitHasNext => Sys2Proof.Machine.execTwobitHasNext s
  | .twobitNext => Sys2Proof.Machine.execTwobitNext s
  | .twobitAttach base len => Sys2Proof.Machine.execTwobitAttach base len s
  | .lpcReset => Sys2Proof.Machine.execLpcReset s
  | .lpcHasNext => Sys2Proof.Machine.execLpcHasNext s
  | .lpcNext => Sys2Proof.Machine.execLpcNext s
  | .lpcAttach base len => Sys2Proof.Machine.execLpcAttach base len s
  | .lpcStart mode => Sys2Proof.Machine.execLpcStart mode s
  | .mixReset => Sys2Proof.Machine.execMixReset s
  | .mixBind trackId seqBase seqLen pitchShift => Sys2Proof.Machine.execMixBind trackId seqBase seqLen pitchShift s
  | .mixAllOff => Sys2Proof.Machine.execMixAllOff s
  | .mixTick => Sys2Proof.Machine.execMixTick s
  | .playerReset => Sys2Proof.Machine.execPlayerReset s
  | .playerSelect sel now => Sys2Proof.Machine.execPlayerSelect sel now s
  | .playerPoll now => Sys2Proof.Machine.execPlayerPoll now s
  | .playerTick => Sys2Proof.Machine.execPlayerTick s
  | .nib4 c => Sys2Proof.Machine.execNib4 c s
  | .code2_0 => Sys2Proof.Machine.execCode2_0 s
  | .code2_1 => Sys2Proof.Machine.execCode2_1 s
  | .code2_2 => Sys2Proof.Machine.execCode2_2 s
  | .code2_3 => Sys2Proof.Machine.execCode2_3 s
  | .lpcfSilence => Sys2Proof.Machine.execLpcfSilence s
  | .lpcfStop => Sys2Proof.Machine.execLpcfStop s
  | .lpcfRepeatM0 e p => Sys2Proof.Machine.execLpcfRepeatM0 e p s
  | .lpcfUnvoicedM0 e p lo => Sys2Proof.Machine.execLpcfUnvoicedM0 e p lo s
  | .lpcfVoicedM0 e p lo hi => Sys2Proof.Machine.execLpcfVoicedM0 e p lo hi s
  | .lpcfRepeatM1 e p => Sys2Proof.Machine.execLpcfRepeatM1 e p s
  | .lpcfUnvoicedM1 e p lo => Sys2Proof.Machine.execLpcfUnvoicedM1 e p lo s
  | .lpcfVoicedM1 e p lo hi => Sys2Proof.Machine.execLpcfVoicedM1 e p lo hi s
  | .note3 k r => Sys2Proof.Machine.execNote3 k r s

end Sys2Proof.Machine
end

