-- ==== Sys2Proof/Machine/Fetch.lean ====
section
/-! DEFINITION. Where the next instruction comes from. A command stands at the head of the command port (R81,
R96); a stream code, a frame or a note record is read from its memory by the command of its unit, so placing one
means attaching a window that holds it and issuing that command (R60, R63, R222). -/
namespace Sys2Proof.Machine

/-- The next command of the host and the state with it taken from the port. -/
def fetch (s : State) : Option (Command × State) :=
  match s.port with
  | [] => none
  | c :: rest => some (c, { s with port := rest })

/-- One step of the machine: the next command is decoded and executed (R10); a word outside the command map is
refused (R84); with no command the state does not change (R11). -/
def stepCommand (s : State) : Host.Outcome State Fault Refusal :=
  match fetch s with
  | none => .next s
  | some (c, t) =>
    match decodeCommand c with
    | some i => exec i t
    | none => .refused (.illegalCommand c.cmd)

/-- The host's next command is `c`, in place of the one that stood there. -/
def withCommand (s : State) (c : Command) : State := { s with port := c :: s.port.tail }

/-- A command word with operands 0. -/
def plainCommand (cmd : Byte) : Command := ⟨cmd, 0, 0, 0, 0⟩

/-- `ROM` from address 0 on holds the first `n` bytes of `w`, the lowest byte first. -/
def withBytes (s : State) (n w : Nat) : State :=
  { s with rom := romLoad s.rom 0 ((List.range n).map fun j => BitVec.ofNat 8 (w >>> (8 * j))) }

/-- A table with entry `i` set to `v`, in a form that can be evaluated when the table is OPEN. -/
def withEntry {α : Type} {n : Nat} (t : Vector α n) (i : Nat) (v : α) : Vector α n :=
  Vector.ofFn fun j => if j.val = i then v else t[j]

/-- `LPC_PERIOD[mode][p]` set to `v`: whether a normal frame is VOICED is a property of the OPEN period table
(R91). -/
def withPeriod (s : State) (mode : BitVec 1) (p : BitVec 6) (v : Byte) : State :=
  if mode = 0 then { s with params := { s.params with lpcPeriod0 := withEntry s.params.lpcPeriod0 p.toNat v } }
  else
    { s with
      params := { s.params with lpcPeriod1 := withEntry s.params.lpcPeriod1 (p.setWidth 5 : BitVec 5).toNat v } }

/-- The period-table entry under which a frame is the one of its row. -/
def withFramePeriod (s : State) : Instr → State
  | .lpcfUnvoicedM0 _ p _ => withPeriod s 0 p 0
  | .lpcfVoicedM0 _ p _ _ => withPeriod s 0 p 1
  | .lpcfUnvoicedM1 _ p _ => withPeriod s 1 (p.setWidth 6) 0
  | .lpcfVoicedM1 _ p _ _ => withPeriod s 1 (p.setWidth 6) 1
  | _ => s

/-- `s` with the element of an opcode-table word stored where the next step fetches it (log entry 10). -/
def placeElement (s : State) (nbits w : Nat) : Element → State
  | .cmd c => withCommand s c
  | .nib4 _ =>
    let s := withCommand (withBytes s 1 w) (plainCommand 0x02)
    { s with ima := imaRestart s.params { s.ima with base := 0, len := 1 } }
  | .code2 _ =>
    let s := withCommand (withBytes s 1 (w <<< 6)) (plainCommand 0x12)
    { s with twobit := twobitRestart { s.twobit with base := 0, len := 1 } }
  | .lpcf mode _ =>
    let s := withCommand (withBytes s ((nbits + 7) / 8) w) (plainCommand 0x22)
    let s := { s with lpc := lpcRestart { s.lpc with base := 0, len := BitVec.ofNat 32 ((nbits + 7) / 8), mode := mode } }
    match decodeTableWord nbits w with
    | some i => withFramePeriod s i
    | none => s
  | .note3 k r =>
    let s := withCommand s (plainCommand 0x33)
    { s with
      note := noteWrite s.note 0 r
      mix :=
        { voice := s.mix.voice.set k { s.mix.voice[k] with active := false }
          track := s.mix.track.set k
            { s.mix.track[k] with
              seqBase := 0, seqLen := 1, index := 0, delayLeftUs := 0, durationLeftUs := 0, pitchShift := 1
              armed := true } } }

/-- `s` with an opcode-table word stored where the next step fetches it; a width that no row has changes
nothing. -/
def placeWord (s : State) (nbits w : Nat) : State :=
  match tableElement nbits w with
  | some el => placeElement s nbits (w % 2 ^ nbits) el
  | none => s

end Sys2Proof.Machine
end

