-- ==== Sys2Proof/Machine/Step.lean ====
section
/-! DEFINITION. One step of the machine, and the placing of an instruction where the step fetches it. -/
namespace Sys2Proof.Machine

/-- One command of the host, atomic and complete (R10, R11). -/
def step (s : State) : Host.Outcome State Fault Refusal := stepCommand s

/-- The state with an opcode-table word stored where `step` fetches its next instruction. -/
def State.withFetchWord (s : State) (nbits w : Nat) : State := placeWord s nbits w

end Sys2Proof.Machine
end

