-- ==== Sys2Proof/Safety.lean ====
section
/-! DEFINITION. The terms claims are stated in: the invariant of the machine (spec/10_state.md R35 and the rules
it gathers), runs of commands, the units an instruction belongs to (spec/60_exceptions.md R209), and the spec's own
index notation for the lattice filter. -/
namespace Sys2Proof.Machine

/-! ## The invariant -/

/-- R35, R61, R134: the step index is in its table, and the cursor is inside the stream. -/
abbrev ImaOk (u : Ima) : Prop := u.idx.toNat ≤ Config.imaIdxMax ∧ 2 * u.cur.toNat + u.nib.toNat ≤ u.len.toNat

/-- R35, R124: the cursor is inside the stream. -/
abbrev TwobitOk (u : Twobit) : Prop := 4 * u.cur.toNat + u.pos.toNat ≤ u.len.toNat

/-- R35: the frame position and the clamped output are in range; R142: the bit cursor is inside the window;
R154: the noise register is not 0; R150: after the stop frame the energy and the coefficients are 0. -/
abbrev LpcOk (u : Lpc) : Prop :=
  u.fpos.toNat < Config.frameSamples ∧ (Config.u0Min ≤ u.x[0].toInt ∧ u.x[0].toInt ≤ Config.u0Max) ∧
  lpcPos u ≤ 8 * u.len.toNat ∧ u.lfsr ≠ 0 ∧ (u.fin = true → u.energy = 0 ∧ u.k = LpcK.zero)

/-- R35, R182: every track's index is inside its sequence and its pitch shift is at least 1; an active voice has
amplitude `MIX_AMP` and a non-zero increment. -/
abbrev MixOk (P : Params) (m : Mix) : Prop :=
  ∀ k : Fin 8, (m.track[k].index.toNat ≤ m.track[k].seqLen.toNat ∧ 1 ≤ m.track[k].pitchShift.toNat) ∧
    (m.voice[k].active = true → m.voice[k].amp = P.mixAmp ∧ m.voice[k].phaseInc ≠ 0)

/-- R29, R193: a duty value has been written only after a source was selected. -/
abbrev PlayerOk (p : Player) : Prop := p.duty ≠ none → p.run = true

/-- The invariant every step keeps: the memories in canonical form, the parameters within the constraints of
the spec, and every unit within R35. -/
structure Inv (s : State) : Prop where
  memory : Memory.wf s = true
  params : s.params.wf
  ima : ImaOk s.ima
  twobit : TwobitOk s.twobit
  lpc : LpcOk s.lpc
  mix : MixOk s.params s.mix
  player : PlayerOk s.player

/-! ## The units an instruction belongs to (R209) -/

/-- The instruction is a command of the command port (R83). -/
def isCommand : Instr → Bool
  | .imaReset | .imaHasNext | .imaNext | .imaAttach _ _ => true
  | .twobitReset | .twobitHasNext | .twobitNext | .twobitAttach _ _ => true
  | .lpcReset | .lpcHasNext | .lpcNext | .lpcAttach _ _ | .lpcStart _ => true
  | .mixReset | .mixBind _ _ _ _ | .mixAllOff | .mixTick => true
  | .playerReset | .playerSelect _ _ | .playerPoll _ | .playerTick => true
  | .nib4 _ | .code2_0 | .code2_1 | .code2_2 | .code2_3 => false
  | .lpcfSilence | .lpcfStop | .lpcfRepeatM0 _ _ | .lpcfUnvoicedM0 _ _ _ | .lpcfVoicedM0 _ _ _ _ => false
  | .lpcfRepeatM1 _ _ | .lpcfUnvoicedM1 _ _ _ | .lpcfVoicedM1 _ _ _ _ | .note3 _ _ => false

/-- The unit a command is addressed to, or whose stream the element belongs to (R80, R83). -/
def unitOf : Instr → UnitId
  | .imaReset | .imaHasNext | .imaNext | .imaAttach _ _ | .nib4 _ => .ima
  | .twobitReset | .twobitHasNext | .twobitNext | .twobitAttach _ _ => .twobit
  | .code2_0 | .code2_1 | .code2_2 | .code2_3 => .twobit
  | .lpcReset | .lpcHasNext | .lpcNext | .lpcAttach _ _ | .lpcStart _ => .lpc
  | .lpcfSilence | .lpcfStop | .lpcfRepeatM0 _ _ | .lpcfUnvoicedM0 _ _ _ | .lpcfVoicedM0 _ _ _ _ => .lpc
  | .lpcfRepeatM1 _ _ | .lpcfUnvoicedM1 _ _ _ | .lpcfVoicedM1 _ _ _ _ => .lpc
  | .mixReset | .mixBind _ _ _ _ | .mixAllOff | .mixTick | .note3 _ _ => .mix
  | .playerReset | .playerSelect _ _ | .playerPoll _ | .playerTick => .player

/-- The player's two tick commands, which run the pull of the selected source (R193, R209). -/
def ticks : Instr → Bool
  | .playerPoll _ => true
  | .playerTick => true
  | _ => false

/-- The source the player has selected (R29). -/
def selected (s : State) : UnitId :=
  if s.player.sel = 0 then .ima else if s.player.sel = 1 then .twobit else if s.player.sel = 2 then .lpc else .mix

/-- The instruction may run the operations of unit `u`: it is addressed to it, or it is a tick and the player
has selected it. -/
def reaches (i : Instr) (s : State) (u : UnitId) : Prop := unitOf i = u ∨ (ticks i = true ∧ selected s = u)

/-! ## Where the reads of a unit lie (R61, R75) -/

/-- The attached window of `IMA` lies in `ROM`. -/
abbrev ImaWindowInRom (s : State) : Prop := s.ima.base.toNat + (s.ima.len.toNat + 1) / 2 ≤ s.rom.size

/-- The attached window of `TWOBIT` lies in `ROM`. -/
abbrev TwobitWindowInRom (s : State) : Prop := s.twobit.base.toNat + (s.twobit.len.toNat + 3) / 4 ≤ s.rom.size

/-- R89: the bit cursor of `LPC`, as a bit number of the attached stream. -/
def bitCursor (u : Lpc) : Nat := 8 * u.cur.toNat + u.bit.toNat

/-- Bit `q` of the stream attached to `LPC` lies in its window and in `ROM` (R89, R142). -/
abbrev LpcBitReadable (s : State) (q : Nat) : Prop :=
  q / 8 < s.lpc.len.toNat ∧ s.lpc.base.toNat + q / 8 < s.rom.size

/-- The next `n` bits at the cursor of `LPC` lie in its window and in `ROM`. -/
abbrev LpcBitsReadable (s : State) (n : Nat) : Prop := ∀ j, j < n → LpcBitReadable s (bitCursor s.lpc + j)

/-- The bits `bits` stand at the cursor of `LPC`, inside its window and `ROM`: stream bit `q` is bit `q mod 8` of
the byte at `base + q / 8` (R89). -/
abbrev LpcBitsStand (s : State) (bits : List Bool) : Prop :=
  ∀ j (h : j < bits.length), LpcBitReadable s (bitCursor s.lpc + j) ∧
    (readCells romFill s.rom.cells (s.lpc.base.toNat + (bitCursor s.lpc + j) / 8)).getLsbD
      ((bitCursor s.lpc + j) % 8) = bits[j]

/-- R141: the period a pitch index looks up in the chip mode of `LPC`, an index of 6 bits or of 5. -/
def lookedUpPeriod (s : State) (p : BitVec 6) : Byte :=
  if s.lpc.mode = 0 then s.params.lpcPeriod0[p.toNat] else s.params.lpcPeriod1[p.toNat % 32]

/-- R90, R91: the frame is one of its layout in a chip mode: a normal energy code, a pitch index as wide as the
field, and the layout the looked-up period selects. -/
def frameFits (mode : BitVec 1) (voiced : BitVec 6 → Bool) : Frame → Prop
  | .silence => True
  | .stop => True
  | .repeated e p => normalEnergy e = true ∧ (mode = 1 → p.toNat < 32)
  | .unvoiced e p _ => normalEnergy e = true ∧ (mode = 1 → p.toNat < 32) ∧ voiced p = false
  | .voiced e p _ _ => normalEnergy e = true ∧ (mode = 1 → p.toNat < 32) ∧ voiced p = true

/-- The frame is one of the chip mode and the period table of `LPC`. -/
abbrev LpcFrameFits (s : State) (f : Frame) : Prop :=
  frameFits s.lpc.mode (fun p => decide (lookedUpPeriod s p ≠ 0)) f

/-- A whole frame stands at the cursor of `LPC`. -/
abbrev LpcFrameStands (s : State) (f : Frame) : Prop := LpcFrameFits s f ∧ LpcBitsStand s (frameBits s.lpc.mode f)

/-- `v` is `LPC` with the frame in force for the next sample (R147): the unit itself within a frame; at the start
of one, what the decode of the frame at the cursor leaves, where that is not the stop frame. -/
def LpcFrameInForce (s : State) (v : Lpc) : Prop :=
  (s.lpc.fpos ≠ 0 ∧ v = s.lpc) ∨
  (s.lpc.fpos = 0 ∧ lpcDecodeFrame s.params s.rom [] s.lpc = .ok v ∧ v.fin = false)

/-- The record index at the cursor of track `k` (R172, R175), formed without wrap. -/
abbrev noteCursor (s : State) (k : Fin 8) : Nat := s.mix.track[k].seqBase.toNat + s.mix.track[k].index.toNat

/-- The record at the cursor of track `k` lies in `NOTE`. -/
abbrev NoteReadable (s : State) (k : Fin 8) : Prop := noteCursor s k < s.note.size

/-- R174 to R176: the next tick reads the record at the cursor of track `k`: the track is armed with commands
left, and its counter (of the duration, or for a silent voice of the delay) reaches zero. -/
abbrev ReadsNote (s : State) (k : Fin 8) : Prop :=
  s.mix.track[k].armed = true ∧ s.mix.track[k].index.toNat < s.mix.track[k].seqLen.toNat ∧
  (BitVec.ofInt 32 ((if s.mix.voice[k].active then s.mix.track[k].durationLeftUs
    else s.mix.track[k].delayLeftUs).toInt - 125)).toInt ≤ 0

/-- The pull of the selected source reads nothing outside its window, `ROM` or `NOTE` (R75, R193). -/
def PullReadable (s : State) : Prop :=
  (s.player.sel = 0 → 2 * s.ima.cur.toNat + s.ima.nib.toNat < s.ima.len.toNat →
    s.ima.base.toNat + s.ima.cur.toNat < s.rom.size) ∧
  (s.player.sel = 1 → 4 * s.twobit.cur.toNat + s.twobit.pos.toNat < s.twobit.len.toNat →
    s.twobit.base.toNat + s.twobit.cur.toNat < s.rom.size) ∧
  (s.player.sel = 2 → s.lpc.fin = true ∨ s.lpc.fpos ≠ 0 ∨ ∃ f, LpcFrameStands s f) ∧
  (s.player.sel = 3 → ∀ k : Fin 8, ReadsNote s k → NoteReadable s k)

/-- The instruction reads, for `unit`, a place outside what it may read, at address (or record index) `addr` (R61,
R75, R142, R205): an ADPCM decoder with input left, outside `ROM`; `LPC` at the first bit of a frame that lies
outside the window or `ROM`; `MIX` a record outside `NOTE`, for a tick that of the first such track. -/
def ReadsOutside (i : Instr) (s : State) : UnitId → Nat → Prop
  | .ima, addr =>
    2 * s.ima.cur.toNat + s.ima.nib.toNat < s.ima.len.toNat ∧ addr = s.ima.base.toNat + s.ima.cur.toNat ∧
    s.rom.size ≤ addr
  | .twobit, addr =>
    4 * s.twobit.cur.toNat + s.twobit.pos.toNat < s.twobit.len.toNat ∧
    addr = s.twobit.base.toNat + s.twobit.cur.toNat ∧ s.rom.size ≤ addr
  | .lpc, addr =>
    (isCommand i = true → s.lpc.fin = false ∧ s.lpc.fpos = 0) ∧
    ∃ n, n < 50 ∧ LpcBitsReadable s n ∧ ¬ LpcBitReadable s (bitCursor s.lpc + n) ∧
      addr = s.lpc.base.toNat + (bitCursor s.lpc + n) / 8
  | .mix, addr =>
    s.note.size ≤ addr ∧
    match i with
    | .mixBind trackId seqBase seqLen _ => trackId.toNat < 8 ∧ seqLen ≠ 0 ∧ addr = seqBase.toNat
    | .note3 k _ => ReadsNote s k ∧ addr = noteCursor s k
    | _ => ∃ k : Fin 8, ReadsNote s k ∧ addr = noteCursor s k ∧ ∀ j, j < k → ReadsNote s j → NoteReadable s j
  | .player, _ => False

/-! ## What one tick does to a track and its voice (R174 to R178) -/

/-- R174 to R178: the track and the voice after the scheduler, the record at the track's cursor being `r`. -/
def scheduled (P : Params) (r : NoteRec) (t : Track) (v : Voice) : Track × Voice :=
  let dur : Word := BitVec.ofInt 32 (t.durationLeftUs.toInt - 125)
  let del : Word := BitVec.ofInt 32 (t.delayLeftUs.toInt - 125)
  let inc := phaseInc r.periodUs t.pitchShift
  if t.armed = false then (t, v)
  else if v.active = true then
    if 0 < dur.toInt then ({ t with durationLeftUs := dur }, v)
    else if t.index.toNat < t.seqLen.toNat then
      ({ t with durationLeftUs := dur, delayLeftUs := r.delayUs }, { v with active := false, amp := 0 })
    else ({ t with durationLeftUs := dur, armed := false }, { v with active := false, amp := 0 })
  else if t.index.toNat < t.seqLen.toNat then
    if 0 < del.toInt then ({ t with delayLeftUs := del }, v)
    else
      ({ t with delayLeftUs := del, index := t.index + 1, durationLeftUs := r.durationUs },
        { phase := 0, phaseInc := inc, amp := P.mixAmp, active := decide (inc ≠ 0) })
  else (t, v)

/-- R179: a voice after the oscillators. -/
def oscillated (v : Voice) : Voice := if v.active then { v with phase := v.phase + v.phaseInc } else v

/-- R171: every voice and track as `MIX.RESET` leaves it. -/
abbrev MixIsReset (m : Mix) : Prop :=
  ∀ k : Fin 8, m.voice[k] = ⟨0, 0, false, 0⟩ ∧ m.track[k] = ⟨0, 0, 0, 0, 0, 1, false⟩

/-! ## Runs of commands -/

/-- `n` times `IMA.NEXT`. -/
def runImaNext : Nat → State → Host.Outcome State Fault Refusal
  | 0, s => .next s
  | n + 1, s =>
    match exec .imaNext s with
    | .next t => runImaNext n t
    | o => o

/-- `n` times `PLAYER.TICK`: the duty values returned, and the state after it; nothing where one is refused. -/
def tickRun : Nat → State → Option (List Byte × State)
  | 0, s => some ([], s)
  | n + 1, s =>
    match exec .playerTick s with
    | .next t => (tickRun n t).map fun (ds, u) => (t.res.setWidth 8 :: ds, u)
    | .fault _ => none
    | .refused _ => none

/-- `PLAYER.POLL` at each of the timebase values: the duty values of the polls that ticked (R82: `RES[8]`), and
the state after it; nothing where one is refused. -/
def pollRun : List (BitVec 16) → State → Option (List Byte × State)
  | [], s => some ([], s)
  | now :: rest, s =>
    match exec (.playerPoll now) s with
    | .next t => (pollRun rest t).map fun (ds, u) => (if t.res.getLsbD 8 then t.res.setWidth 8 :: ds else ds, u)
    | .fault _ => none
    | .refused _ => none

/-- The state but for what the two deployment shapes leave different (R198): the mark and the last result. -/
def forgetMark (s : State) : State := { s with player := { s.player with mark := 0 }, res := 0 }

/-! ## The lattice filter in the spec's index notation (R153) -/

/-- `LPC.K[i]`, i = 1..10. -/
def coeff (k : LpcK) : Nat → Int
  | 1 => k.k1.toInt
  | 2 => k.k2.toInt
  | 3 => k.k3.toInt
  | 4 => k.k4.toInt
  | 5 => k.k5.toInt
  | 6 => k.k6.toInt
  | 7 => k.k7.toInt
  | 8 => k.k8.toInt
  | 9 => k.k9.toInt
  | 10 => k.k10.toInt
  | _ => 0

/-- R153 `Term(i, v)`. -/
def latticeTerm (P : Params) (k : LpcK) (i : Nat) (v : Sample) : Int :=
  if i ≤ 2 then asr (coeff k i * v.toInt) 15
  else if P.lpcNarrowWrap then asr (wraps16 (coeff k i * v.toInt)).toInt 7
  else asr (coeff k i * v.toInt) 7

end Sys2Proof.Machine
end

