-- ==== Sys2Proof/Certificates/Slice0/Obligations.lean ====
section
/-! DEFINITION. The statements for the provers. "(the spec's own choice Dn)" marks a clause that
spec/92_eei_decisions.md decides where the source is open; "log entry n" names a choice of this model. -/
open Sys2Proof Sys2Proof.Machine

/-! ## Encoding -/

/-- Words written out from R83, R85, R87, R91 and V22 decode to the instructions they stand for, operands and
ignored bits included (R81, R82). -/
def Obligations.SpecWordsDecode : Prop :=
  decodeCommand ⟨0x02, 7, 7, 7, 7⟩ = some .imaNext ∧
  decodeCommand ⟨0x03, 0x100, 16, 7, 7⟩ = some (.imaAttach 0x100 16) ∧
  decodeCommand ⟨0x13, 0x20, 10, 7, 7⟩ = some (.twobitAttach 0x20 10) ∧
  decodeCommand ⟨0x24, 0xFFFFFFFE, 7, 7, 7⟩ = some (.lpcStart 0) ∧
  decodeCommand ⟨0x31, 1, 3, 2, 5⟩ = some (.mixBind 1 3 2 5) ∧
  decodeCommand ⟨0x41, 0x10003, 0xABCDFFC0, 7, 7⟩ = some (.playerSelect 0x10003 0xFFC0) ∧
  decodeCommand ⟨0x42, 0xABCD003D, 7, 7, 7⟩ = some (.playerPoll 0x003D) ∧
  decode (fun _ _ => true) (.nib4 0xF) = .ok (.nib4 0xF) ∧
  decode (fun _ _ => true) (.code2 2) = .ok .code2_2 ∧
  decode (fun _ _ => true) (.lpcf 0
    [true, false, false, false, false, true, false, true, false, false, false,
      true, false, true, false, false, false, true, true, false, false, true, false, true, false,
      false, true, false, true, true, false, false, true, true, false, false, false, false, true, true, true,
      true, false, true, false, true, true, true, false, false]) =
    .ok (.lpcfVoicedM0 8 40 ⟨20, 12, 10, 5⟩ ⟨9, 8, 7, 5, 3, 4⟩)

/-- Decoding the encoding of a well-formed instruction gives it back, every operand at every value; `voiced` is
any period table, and a frame of an UNVOICED or VOICED row has a pitch of that kind in it (R83, R85, R87, R91). -/
def Obligations.DecodeEncodeRoundTrip : Prop :=
  ∀ (voiced : BitVec 1 → BitVec 6 → Bool) (i : Instr),
    wellFormed i = true → periodFits voiced i = true → decode voiced (encode i) = .ok i

/-- A command word has one meaning: whatever it decodes to encodes to the same command word, with operands that
decode alike (R83). -/
def Obligations.DecodedCommandsEncodeToTheirWord : Prop :=
  ∀ (c : Command) (i : Instr), decodeCommand c = some i →
    ∃ a b d e, encode i = .cmd ⟨c.cmd, a, b, d, e⟩ ∧ decodeCommand ⟨c.cmd, a, b, d, e⟩ = some i

/-- A frame that stands at any bit of any stream, whatever follows it, is parsed as itself, and its length is
the one R92 gives: 4, 5 + P, 5 + P + 18 or 5 + P + 39 bits, P = 6 or 5 by mode. -/
def Obligations.FramesParseAtAnyBit : Prop :=
  ∀ (mode : BitVec 1) (voiced : BitVec 6 → Bool) (src : BitSource) (q : Nat) (f : Frame),
    frameFits mode voiced f →
    (∀ j (h : j < (frameBits mode f).length), src (q + j) = some (frameBits mode f)[j]) →
    parseFrame mode voiced src q = .ok (f, q +
      (match f with
        | .silence => 4
        | .stop => 4
        | .repeated _ _ => 5 + (if mode = 0 then 6 else 5)
        | .unvoiced _ _ _ => 5 + (if mode = 0 then 6 else 5) + 18
        | .voiced _ _ _ _ => 5 + (if mode = 0 then 6 else 5) + 39))

/-- `GetBits(n)` returns the next `n` bits of the attached window, bit `q` of it being bit `q mod 8` of the byte
at `base + q / 8`, the first bit read the most significant (R89, R142); and where one of them may not be read it
stops at the first such bit (R142, the spec's own choice D5). -/
def Obligations.GetBitsReadsMostSignificantFirst : Prop :=
  ∀ (rom : Rom) (u : Lpc) (n q : Nat),
    ((∀ j, j < n → (q + j) / 8 < u.len.toNat ∧ u.base.toNat + (q + j) / 8 < rom.size) →
      ∃ v, getBits (lpcBit rom u) n q = .ok (v, q + n) ∧
        v.toNat = ((List.range n).map fun j =>
          ((readCells romFill rom.cells (u.base.toNat + (q + j) / 8)).getLsbD ((q + j) % 8)).toNat
            * 2 ^ (n - 1 - j)).sum) ∧
    (∀ j, j < n → (∀ i, i < j → (q + i) / 8 < u.len.toNat ∧ u.base.toNat + (q + i) / 8 < rom.size) →
      ¬ ((q + j) / 8 < u.len.toNat ∧ u.base.toNat + (q + j) / 8 < rom.size) →
      getBits (lpcBit rom u) n q = .error (q + j))

/-! ## The step -/

/-- A step runs the decoded command, with the command taken from the port; with no command issued it changes
nothing (R10, R11). That the commands still to be issued stand in a list is the model's choice, log entry 1. -/
def Obligations.StepRunsTheDecodedCommand : Prop :=
  ∀ (s : State) (c : Command) (rest : List Command) (i : Instr), s.port = c :: rest → decodeCommand c = some i →
    step s = exec i { s with port := rest } ∧ step { s with port := [] } = .next { s with port := [] }

/-- A command word outside the command map is refused, and every word inside it decodes (R84, the spec's own
choices D2, D31). -/
def Obligations.ReservedCommandsAreRefused : Prop :=
  ∀ (s : State) (c : Command) (rest : List Command), s.port = c :: rest →
    (c.cmd ∉ [0x00#8, 0x01#8, 0x02#8, 0x03#8, 0x10#8, 0x11#8, 0x12#8, 0x13#8, 0x20#8, 0x21#8, 0x22#8, 0x23#8, 0x24#8,
        0x30#8, 0x31#8, 0x32#8, 0x33#8, 0x40#8, 0x41#8, 0x42#8, 0x43#8] →
      step s = .refused (.illegalCommand c.cmd)) ∧
    (c.cmd ∈ [0x00#8, 0x01#8, 0x02#8, 0x03#8, 0x10#8, 0x11#8, 0x12#8, 0x13#8, 0x20#8, 0x21#8, 0x22#8, 0x23#8, 0x24#8,
        0x30#8, 0x31#8, 0x32#8, 0x33#8, 0x40#8, 0x41#8, 0x42#8, 0x43#8] →
      (decodeCommand c).isSome)

/-- An opcode-table word placed where the step fetches is the command the step runs, for every command row
(log entry 10). -/
def Obligations.PlacedCommandWordsRun : Prop :=
  ∀ (s : State) (w : Nat) (i : Instr), s.port = [] → decodeTableWord 8 w = some i →
    step (s.withFetchWord 8 w) = exec i s

/-! ## Reset -/

/-- The values of R34 after power-on, and those the unit resets give (the spec's own choices D6, D7, D11, D25,
D29, D32). The last clause, that a unit reset leaves the power-on state as it is, rests besides on the result
register being 0 after power-on, the model's choice of log entry 2. -/
def Obligations.PowerOnState : Prop :=
  let s := State.reset
  (s.ima.base = 0 ∧ s.ima.len = 0 ∧ s.ima.cur = 0 ∧ s.ima.nib = 0 ∧ s.ima.pred = 0 ∧ s.ima.idx = 0) ∧
  (s.twobit.base = 0 ∧ s.twobit.len = 0 ∧ s.twobit.cur = 0 ∧ s.twobit.pos = 0 ∧ s.twobit.pred = 128 ∧
    s.twobit.idx = 0) ∧
  (s.lpc.base = 0 ∧ s.lpc.len = 0 ∧ s.lpc.mode = 0 ∧ s.lpc.cur = 0 ∧ s.lpc.bit = 0 ∧ s.lpc.fpos = 0 ∧
    s.lpc.energy = 0 ∧ s.lpc.period = 0 ∧ s.lpc.k = ⟨0, 0, 0, 0, 0, 0, 0, 0, 0, 0⟩ ∧
    (∀ i : Fin 10, s.lpc.x[i] = 0) ∧ s.lpc.ppos = 0 ∧ s.lpc.lfsr = 1 ∧ s.lpc.fin = false) ∧
  (∀ k : Fin 8, s.mix.voice[k] = ⟨0, 0, false, 0⟩ ∧ s.mix.track[k] = ⟨0, 0, 0, 0, 0, 1, false⟩) ∧
  (s.player.sel = 0 ∧ s.player.run = false ∧ s.player.mark = 0 ∧ s.player.duty = none) ∧
  (∀ i ∈ [Instr.imaReset, .twobitReset, .lpcReset, .mixReset, .playerReset], exec i s = .next s)

/-- The state after power-on meets the invariant, whatever the OPEN parameters are within their constraints
(R34, R35, R121, R170). -/
def Obligations.PowerOnMeetsTheInvariant : Prop := Inv State.reset

/-- Every step keeps the invariant, from every state that meets it: the memories stay canonical, every register
stays in the range R35 gives it, an active voice keeps amplitude `MIX_AMP` and a non-zero increment (R182), the
noise register never becomes 0 (R154). -/
def Obligations.EveryStepKeepsTheInvariant : Prop :=
  ∀ s t : State, Inv s → step s = .next t → Inv t

/-! ## The IMA decoder -/

/-- `IMA.RESET` and `IMA.ATTACH`: the start-of-stream state over the window (R132, R135, the spec's own choices
D4, D6), nothing else changed, result 0. -/
def Obligations.ImaResetAndAttach : Prop :=
  ∀ (s : State) (base len : Word),
    exec .imaReset s = .next { s with
      ima := { base := s.ima.base, len := s.ima.len, cur := 0, nib := 0, pred := s.params.imaInitPred,
               idx := s.params.imaInitIdx }
      res := 0 } ∧
    exec (.imaAttach base len) s = .next { s with
      ima := { base := base, len := len, cur := 0, nib := 0, pred := s.params.imaInitPred, idx := s.params.imaInitIdx }
      res := 0 }

/-- `U.HASNEXT` of the three decoders: 1 while codes consumed are fewer than `len`, or while the stop frame has
not been decoded; nothing but the result changes (R112, R133, R123, R146, the spec's own choice D12). -/
def Obligations.HasNextReportsUnreadInput : Prop :=
  ∀ s : State,
    exec .imaHasNext s =
      .next { s with res := if 2 * s.ima.cur.toNat + s.ima.nib.toNat < s.ima.len.toNat then 1 else 0 } ∧
    exec .twobitHasNext s =
      .next { s with res := if 4 * s.twobit.cur.toNat + s.twobit.pos.toNat < s.twobit.len.toNat then 1 else 0 } ∧
    exec .lpcHasNext s = .next { s with res := if s.lpc.fin then 0 else 1 }

/-- `NEXT` past the end of a stream, and a stream code there: result 0, no register of the unit changes, no byte
is read (R113, R134, R124, R147; for the codes by themselves log entry 8). -/
def Obligations.PullPastTheEndReturnsZero : Prop :=
  ∀ s : State,
    (¬ 2 * s.ima.cur.toNat + s.ima.nib.toNat < s.ima.len.toNat →
      exec .imaNext s = .next { s with res := 0 } ∧ ∀ c, exec (.nib4 c) s = .next { s with res := 0 }) ∧
    (¬ 4 * s.twobit.cur.toNat + s.twobit.pos.toNat < s.twobit.len.toNat →
      exec .twobitNext s = .next { s with res := 0 } ∧
      ∀ i ∈ [Instr.code2_0, .code2_1, .code2_2, .code2_3], exec i s = .next { s with res := 0 }) ∧
    (s.lpc.fin = true → exec .lpcNext s = .next { s with res := 0 })

/-- `NIB4` and `IMA.NEXT` decode one nibble (R134, R85, the spec's own choice D10; `NIB4` as an instruction, log entry
8): the difference is the sum of separately truncated terms, negated when bit 3 is set; predictor and step index
saturate; the cursor moves on by one nibble; the result is the new predictor; nothing else changes. `IMA.NEXT` does
what `NIB4` does for the nibble at its cursor. -/
def Obligations.ImaNextDecodesOneNibble : Prop :=
  ∀ (s : State) (c : BitVec 4) (h : s.ima.idx.toNat < 89),
    2 * s.ima.cur.toNat + s.ima.nib.toNat < s.ima.len.toNat →
    s.ima.base.toNat + s.ima.cur.toNat < s.rom.size →
    ∃ t, exec (.nib4 c) s = .next t ∧
      (c = nibbleAt (readCells romFill s.rom.cells (s.ima.base.toNat + s.ima.cur.toNat)) s.ima.nib →
        exec .imaNext s = .next t) ∧
      t = { s with ima := t.ima, res := t.ima.pred.setWidth 32 } ∧
      t.ima.base = s.ima.base ∧ t.ima.len = s.ima.len ∧
      2 * t.ima.cur.toNat + t.ima.nib.toNat = 2 * s.ima.cur.toNat + s.ima.nib.toNat + 1 ∧
      (let step := s.params.imaStep[s.ima.idx.toNat]
       let mag := step / 8 + (if c.getLsbD 0 then step / 4 else 0) + (if c.getLsbD 1 then step / 2 else 0) +
         (if c.getLsbD 2 then step else 0)
       t.ima.pred.toInt =
         max (-32768) (min 32767 (s.ima.pred.toInt + (if c.getLsbD 3 then -(mag : Int) else (mag : Int)))) ∧
       (t.ima.idx.toNat : Int) = max 0 (min 88 (s.ima.idx.toNat + s.params.imaAdj[c.toNat])))

/-- The nibble `IMA.NEXT` decodes as sample number n of the stream is the low nibble of byte n / 2 when n is
even and the high nibble of the same byte when n is odd (R86); said through the row `NIB4`, log entry 8. -/
def Obligations.ImaNibblesArePackedLowFirst : Prop :=
  ∀ (s : State) (n : Nat), 2 * s.ima.cur.toNat + s.ima.nib.toNat = n → n < s.ima.len.toNat →
    s.ima.base.toNat + n / 2 < s.rom.size →
    let b := readCells romFill s.rom.cells (s.ima.base.toNat + n / 2)
    n / 2 < (s.ima.len.toNat + 1) / 2 ∧
    exec .imaNext s =
      exec (.nib4 (BitVec.ofNat 4 (if n % 2 = 0 then b.toNat % 16 else b.toNat / 16))) s

/-- A drained IMA stream: over a window that lies in `ROM`, from `IMA.RESET` on, exactly as many pulls as the
length complete with input left, and the position counts them (R86, R133, R134, R97 `DRAIN`). -/
def Obligations.ImaStreamDrainsInItsLength : Prop :=
  ∀ (s t : State) (n : Nat), ImaWindowInRom s → exec .imaReset s = .next t → n ≤ s.ima.len.toNat →
    ∃ u, runImaNext n t = .next u ∧ 2 * u.ima.cur.toNat + u.ima.nib.toNat = n ∧
      (imaHasNext u.ima = true ↔ n < s.ima.len.toNat)

/-! ## The two-bit decoder -/

/-- `TWOBIT_ADJ` (R120). -/
def Obligations.TwobitAdjustmentTable : Prop :=
  twobitAdjAt 0 = -1 ∧ twobitAdjAt 1 = -1 ∧ twobitAdjAt 2 = 2 ∧ twobitAdjAt 3 = 2

/-- `TWOBIT.RESET` and `TWOBIT.ATTACH` (R122, R125, the spec's own choices D4, D7). -/
def Obligations.TwobitResetAndAttach : Prop :=
  ∀ (s : State) (base len : Word),
    exec .twobitReset s = .next { s with
      twobit := { base := s.twobit.base, len := s.twobit.len, cur := 0, pos := 0, pred := 128, idx := 0 }, res := 0 } ∧
    exec (.twobitAttach base len) s = .next { s with
      twobit := { base := base, len := len, cur := 0, pos := 0, pred := 128, idx := 0 }, res := 0 }

/-- `CODE2.0` to `CODE2.3` and `TWOBIT.NEXT` decode one code (R124, R87, R126, the spec's own choices D8, D10; `CODE2`
as instructions, log entry 8): the delta by code, the predictor clamped to 0..255, the index adjusted and clamped to
0..15, the cursor moved on by one code, the result `(pred - 128) * 256` exactly; nothing else changes. `TWOBIT.NEXT`
does what the row of the code at its cursor does, the most significant pair of a byte first (R88). -/
def Obligations.TwobitNextDecodesOneCode : Prop :=
  ∀ (s : State) (c : BitVec 2) (i : Instr) (m adj : Int),
    (c, i, m, adj) ∈ [((0 : BitVec 2), Instr.code2_0, (-1 : Int), (-1 : Int)), (1, .code2_1, 1, -1),
      (2, .code2_2, -2, 2), (3, .code2_3, 2, 2)] →
    4 * s.twobit.cur.toNat + s.twobit.pos.toNat < s.twobit.len.toNat →
    s.twobit.base.toNat + s.twobit.cur.toNat < s.rom.size →
    ∃ t, exec i s = .next t ∧
      (c.toNat = (readCells romFill s.rom.cells (s.twobit.base.toNat + s.twobit.cur.toNat)).toNat
          / 4 ^ (3 - s.twobit.pos.toNat) % 4 → exec .twobitNext s = .next t) ∧
      t = { s with twobit := t.twobit, res := t.res } ∧
      t.twobit.base = s.twobit.base ∧ t.twobit.len = s.twobit.len ∧
      4 * t.twobit.cur.toNat + t.twobit.pos.toNat = 4 * s.twobit.cur.toNat + s.twobit.pos.toNat + 1 ∧
      (t.twobit.pred.toNat : Int) =
        max 0 (min 255 (s.twobit.pred.toNat + m * (s.params.twobitStep[s.twobit.idx.toNat] : Nat))) ∧
      (t.twobit.idx.toNat : Int) = max 0 (min 15 (s.twobit.idx.toNat + adj)) ∧
      (t.res.setWidth 16 : Sample).toInt = ((t.twobit.pred.toNat : Int) - 128) * 256 ∧ t.res.toNat < 65536

/-! ## The LPC synthesizer -/

/-- `LPC.RESET`, `LPC.ATTACH` and `LPC.START`: all decode and filter state at its start values (R143, R144, R145,
the spec's own choices D4, D5, D11), the configuration registers kept or loaded, nothing else changed. -/
def Obligations.LpcResetAttachAndStart : Prop :=
  ∀ (s : State) (base len : Word) (mode : BitVec 1),
    let fresh : Lpc := { base := s.lpc.base, len := s.lpc.len, mode := s.lpc.mode, cur := 0, bit := 0, fpos := 0,
                         energy := 0, period := 0, fin := false, k := ⟨0, 0, 0, 0, 0, 0, 0, 0, 0, 0⟩,
                         x := #v[0, 0, 0, 0, 0, 0, 0, 0, 0, 0], ppos := 0, lfsr := 1 }
    exec .lpcReset s = .next { s with lpc := fresh, res := 0 } ∧
    exec (.lpcAttach base len) s = .next { s with lpc := { fresh with base := base, len := len }, res := 0 } ∧
    exec (.lpcStart mode) s = .next { s with lpc := { fresh with mode := mode }, res := 0 }

/-- `LPC.START` takes the mode from bit 0 of `A`, resets the unit, and is the only instruction that can change
`LPC.mode` (R144). -/
def Obligations.OnlyLpcStartChangesTheMode : Prop :=
  (∀ (s : State) (a b c d : Word) (rest : List Command), s.port = ⟨0x24, a, b, c, d⟩ :: rest →
    step s = exec .lpcReset { s with lpc := { s.lpc with mode := BitVec.ofBool (a.getLsbD 0) }, port := rest }) ∧
  (∀ (s : State) (mode : BitVec 1),
    exec (.lpcStart mode) s = exec .lpcReset { s with lpc := { s.lpc with mode := mode } }) ∧
  (∀ (i : Instr) (s t : State), exec i s = .next t → t.lpc.mode ≠ s.lpc.mode → ∃ mode, i = .lpcStart mode)

/-- The silence frame (R149): where its four bits stand at the cursor, the frame decoder sets energy and period to
0, leaves the coefficients, moves the bit cursor on by four and changes nothing else. -/
def Obligations.SilenceFrameEffect : Prop :=
  ∀ s : State, LpcBitsStand s [false, false, false, false] →
    ∃ v, lpcDecodeFrame s.params s.rom [] s.lpc = .ok v ∧ bitCursor v = bitCursor s.lpc + 4 ∧
      v = { s.lpc with cur := v.cur, bit := v.bit, energy := 0, period := 0 }

/-- The stop frame (R150): where its four bits stand at the cursor, the frame decoder sets the energy to 0, zeroes
all ten coefficients and sets `fin`, leaves the period, moves the bit cursor on by four and changes nothing else; in
every state in which `fin` is set `LPC.HASNEXT` is 0 and `LPC.NEXT` leaves the unit so. -/
def Obligations.StopFrameEffect : Prop :=
  (∀ s : State, LpcBitsStand s [true, true, true, true] →
    ∃ v, lpcDecodeFrame s.params s.rom [] s.lpc = .ok v ∧ bitCursor v = bitCursor s.lpc + 4 ∧
      v = { s.lpc with cur := v.cur, bit := v.bit, energy := 0, k := ⟨0, 0, 0, 0, 0, 0, 0, 0, 0, 0⟩, fin := true }) ∧
  ∀ t : State, t.lpc.fin = true →
    exec .lpcHasNext t = .next { t with res := 0 } ∧ exec .lpcNext t = .next { t with res := 0 }

/-- The normal frames (R151), in both chip modes, decoded where their bits stand at the cursor: energy and period from
the new frame, the period looked up with the whole pitch index in mode 0 and with its five bits in mode 1; without the
repeat bit K1..K4 from the tables, and K5..K10 from the tables when the looked-up period is not 0 and zero when it is;
with the repeat bit the coefficients kept, but K5..K10 zeroed when the period is 0; the bit cursor moved on by exactly
the frame's bits, read in the order of the layout; nothing else changed. -/
def Obligations.NormalFrameEffect : Prop :=
  ∀ (s : State) (e : BitVec 4) (p : BitVec 6) (lo : KLow) (hi : KHigh), e ≠ 0 → e ≠ 15 →
    (s.lpc.mode = 1 → p.toNat < 32) →
    let T := if s.lpc.mode = 0 then s.params.lpc0 else s.params.lpc1
    let period : Byte := if s.lpc.mode = 0 then s.params.lpcPeriod0[p.toNat] else s.params.lpcPeriod1[p.toNat % 32]
    let k := s.lpc.k
    let low : LpcK := { k with k1 := T.k1[lo.k1.toNat], k2 := T.k2[lo.k2.toNat], k3 := T.k3[lo.k3.toNat],
                               k4 := T.k4[lo.k4.toNat], k5 := 0, k6 := 0, k7 := 0, k8 := 0, k9 := 0, k10 := 0 }
    let leaves (n : Nat) (k : LpcK) : Prop :=
      ∃ v, lpcDecodeFrame s.params s.rom [] s.lpc = .ok v ∧ bitCursor v = bitCursor s.lpc + n ∧
        v = { s.lpc with cur := v.cur, bit := v.bit, energy := T.energy[e.toNat], period := period, k := k }
    let P := if s.lpc.mode = 0 then 6 else 5
    (LpcBitsStand s (fieldBits e ++ (true :: pitchBits s.lpc.mode p)) →
      leaves (5 + P) (if period = 0 then { k with k5 := 0, k6 := 0, k7 := 0, k8 := 0, k9 := 0, k10 := 0 } else k)) ∧
    (period = 0 →
      LpcBitsStand s (fieldBits e ++ (false :: (pitchBits s.lpc.mode p ++ kLowBits lo))) →
      leaves (5 + P + 18) low) ∧
    (period ≠ 0 →
      LpcBitsStand s (fieldBits e ++ (false :: (pitchBits s.lpc.mode p ++ (kLowBits lo ++ kHighBits hi)))) →
      leaves (5 + P + 39)
        { low with k5 := T.k5[hi.k5.toNat], k6 := T.k6[hi.k6.toNat], k7 := T.k7[hi.k7.toNat],
                   k8 := T.k8[hi.k8.toNat], k9 := T.k9[hi.k9.toNat], k10 := T.k10[hi.k10.toNat] })

/-- The rows `LPCF.SILENCE` and `LPCF.STOP` by themselves (R149, R150; the model's choice of log entry 8): where
four bits can be read at the cursor they complete, with the effect of their frame, the bit cursor moved on by four,
and of nothing else. -/
def Obligations.SilenceAndStopRowsComplete : Prop :=
  ∀ s : State, LpcBitsReadable s 4 →
    (∃ v : Lpc, exec .lpcfSilence s = .next { s with lpc := v } ∧ bitCursor v = bitCursor s.lpc + 4 ∧
      v = { s.lpc with cur := v.cur, bit := v.bit, energy := 0, period := 0 }) ∧
    (∃ v : Lpc, exec .lpcfStop s = .next { s with lpc := v } ∧ bitCursor v = bitCursor s.lpc + 4 ∧
      v = { s.lpc with cur := v.cur, bit := v.bit, energy := 0, k := ⟨0, 0, 0, 0, 0, 0, 0, 0, 0, 0⟩, fin := true })

/-- The rows `LPCF.REPEAT`, `LPCF.UNVOICED` and `LPCF.VOICED` by themselves, in both chip modes (R151; the model's
choice of log entry 8): where the bits of the row can be read at the cursor, in the row's mode and, for the last two,
with a looked-up period of the row's kind, they complete with the effect of their frame, the bit cursor moved on by
the row's bits, and of nothing else. -/
def Obligations.NormalFrameRowsComplete : Prop :=
  ∀ (s : State) (e : BitVec 4) (p : BitVec 6) (lo : KLow) (hi : KHigh), e ≠ 0 → e ≠ 15 →
    (s.lpc.mode = 1 → p.toNat < 32) →
    let T := if s.lpc.mode = 0 then s.params.lpc0 else s.params.lpc1
    let period : Byte := if s.lpc.mode = 0 then s.params.lpcPeriod0[p.toNat] else s.params.lpcPeriod1[p.toNat % 32]
    let k := s.lpc.k
    let low : LpcK := { k with k1 := T.k1[lo.k1.toNat], k2 := T.k2[lo.k2.toNat], k3 := T.k3[lo.k3.toNat],
                               k4 := T.k4[lo.k4.toNat], k5 := 0, k6 := 0, k7 := 0, k8 := 0, k9 := 0, k10 := 0 }
    let completes (i : Instr) (n : Nat) (k : LpcK) : Prop :=
      ∃ v : Lpc, exec i s = .next { s with lpc := v } ∧ bitCursor v = bitCursor s.lpc + n ∧
        v = { s.lpc with cur := v.cur, bit := v.bit, energy := T.energy[e.toNat], period := period, k := k }
    let P := if s.lpc.mode = 0 then 6 else 5
    (LpcBitsReadable s (5 + P) →
      completes (if s.lpc.mode = 0 then .lpcfRepeatM0 e p else .lpcfRepeatM1 e (p.setWidth 5)) (5 + P)
        (if period = 0 then { k with k5 := 0, k6 := 0, k7 := 0, k8 := 0, k9 := 0, k10 := 0 } else k)) ∧
    (period = 0 → LpcBitsReadable s (5 + P + 18) →
      completes (if s.lpc.mode = 0 then .lpcfUnvoicedM0 e p lo else .lpcfUnvoicedM1 e (p.setWidth 5) lo)
        (5 + P + 18) low) ∧
    (period ≠ 0 → LpcBitsReadable s (5 + P + 39) →
      completes (if s.lpc.mode = 0 then .lpcfVoicedM0 e p lo hi else .lpcfVoicedM1 e (p.setWidth 5) lo hi)
        (5 + P + 39)
        { low with k5 := T.k5[hi.k5.toNat], k6 := T.k6[hi.k6.toNat], k7 := T.k7[hi.k7.toNat],
                   k8 := T.k8[hi.k8.toNat], k9 := T.k9[hi.k9.toNat], k10 := T.k10[hi.k10.toNat] })

/-- A frame row acts by its bits alone: in any state, its own chip mode or the other, it does what the frame
decoder does when those bits stand at the cursor, since nothing in a stream says which mode it was encoded for
(R93, R228; log entry 8). -/
def Obligations.FrameRowsActByTheirBits : Prop :=
  ∀ (i : Instr) (mode : BitVec 1) (bits : List Bool) (s : State), encode i = .lpcf mode bits →
    (∀ u, lpcDecodeFrame s.params s.rom bits s.lpc = .ok u → exec i s = .next { s with lpc := u }) ∧
    (∀ r, lpcDecodeFrame s.params s.rom bits s.lpc = .error r → exec i s = .refused r)

/-- `LPC.NEXT` at the start of a frame (R147, the spec's own choices D12, D13): the frame at the cursor is decoded
first; the call that meets the stop frame returns 0 and runs neither excitation nor filter; any other frame is
followed by its first sample. -/
def Obligations.LpcNextDecodesTheFrameFirst : Prop :=
  ∀ (s : State) (f : Frame), s.lpc.fin = false → s.lpc.fpos = 0 → LpcFrameStands s f →
    ∃ v, lpcDecodeFrame s.params s.rom [] s.lpc = .ok v ∧
      (f = .stop → v.fin = true ∧ exec .lpcNext s = .next { s with lpc := v, res := 0 }) ∧
      (f ≠ .stop → v.fin = false ∧
        exec .lpcNext s = .next { s with lpc := (lpcSample s.params v).1, res := resSample (lpcSample s.params v).2 })

/-- `LPC.NEXT` synthesises one sample, the first of a frame just decoded as well as every later one (R147, R152 to
R158; the spec's own choices D14 to D17, D19): from the unit `v` with the frame in force, the frame position counts
modulo 200, one generator steps, the forward pass runs from K10 to K1 over the old delay line, the output is clamped,
the reverse pass fills the new delay line, the result is 64 times the clamped output; frame registers and cursor are
those of `v`, and nothing outside the unit but the result changes. -/
def Obligations.LpcNextSynthesisesOneSample : Prop :=
  ∀ (s : State) (v : Lpc), s.lpc.fin = false → LpcFrameInForce s v →
    ∃ (t : State) (u : Nat → Sample), exec .lpcNext s = .next t ∧
      t = { s with lpc := t.lpc, res := t.res } ∧
      t.lpc = { v with fpos := t.lpc.fpos, ppos := t.lpc.ppos, lfsr := t.lpc.lfsr, x := t.lpc.x } ∧
      t.lpc.fpos.toNat = (s.lpc.fpos.toNat + 1) % 200 ∧
      (v.period ≠ 0 →
        t.lpc.lfsr = s.lpc.lfsr ∧
        t.lpc.ppos.toNat = (if s.lpc.ppos.toNat + 1 ≥ v.period.toNat then 0 else s.lpc.ppos.toNat + 1) ∧
        (u 10).toInt = (s.params.lpcWave[(if s.lpc.ppos.toNat < 41 then s.lpc.ppos.toNat else 0)]'(by split <;> omega)).toInt
          * v.energy.toNat / 256) ∧
      (v.period = 0 →
        t.lpc.ppos = s.lpc.ppos ∧
        t.lpc.lfsr = (s.lpc.lfsr >>> 1) ^^^ (if s.lpc.lfsr.getLsbD 0 then 0xB800#16 else 0) ∧
        u 10 = BitVec.ofInt 16 (if t.lpc.lfsr.getLsbD 0 then (v.energy.toNat : Int) else -v.energy.toNat)) ∧
      (∀ i : Fin 10, u i.val =
        BitVec.ofInt 16 ((u (i.val + 1)).toInt - latticeTerm s.params v.k (i.val + 1) s.lpc.x[i])) ∧
      t.lpc.x[0].toInt = max (-512) (min 511 (u 0).toInt) ∧
      (∀ i : Fin 9, t.lpc.x[i.val + 1] = BitVec.ofInt 16 (s.lpc.x[i.val].toInt +
        latticeTerm s.params v.k (i.val + 1) (if i.val = 0 then t.lpc.x[0] else u i.val))) ∧
      (t.res.setWidth 16 : Sample).toInt = 64 * t.lpc.x[0].toInt ∧ t.res.toNat < 65536

/-- The sample returned is 64 times the clamped filter output: in -32768..32704, a multiple of 64 (R158). -/
def Obligations.OutputIsScaledBySixtyFour : Prop :=
  ∀ (P : Params) (u : Lpc),
    (lpcSample P u).2.toInt = (lpcSample P u).1.x[0].toInt * 64 ∧
    -32768 ≤ (lpcSample P u).2.toInt ∧ (lpcSample P u).2.toInt ≤ 32704 ∧ 64 ∣ (lpcSample P u).2.toInt

/-- With energy 0 and all delay-line registers 0 the output is 0 and stays 0, whatever the coefficients and the
generators hold (R159). -/
def Obligations.SilentLpcStaysSilent : Prop :=
  ∀ (P : Params) (u : Lpc), u.energy = 0 → (∀ i : Fin 10, u.x[i] = 0) →
    (lpcSample P u).2 = 0 ∧ (lpcSample P u).1.energy = 0 ∧ (∀ i : Fin 10, (lpcSample P u).1.x[i] = 0)

/-- The noise register: its first values from the seed are those R154 lists, and a step never turns a non-zero
value into 0 (the spec's own choice D17). -/
def Obligations.NoiseRegisterSequence : Prop :=
  [1, 2, 3, 4, 5, 6, 7, 8, 9, 10, 11, 12, 13, 14].map (fun n => Nat.repeat lfsrStep n 1#16) =
    [0xB800#16, 0x5C00#16, 0x2E00#16, 0x1700#16, 0x0B80#16, 0x05C0#16, 0x02E0#16, 0x0170#16, 0x00B8#16, 0x005C#16,
      0x002E#16, 0x0017#16, 0xB80B#16, 0xE405#16] ∧
  ∀ r : BitVec 16, r ≠ 0 → lfsrStep r ≠ 0

/-! ## The mixer -/

/-- `MIX.RESET` and `MIX.ALLOFF` (R171, R173, the spec's own choices D24, D25): every voice and track zeroed but
for a pitch shift of 1; or every voice made inactive and every duration counter zeroed, and nothing else. -/
def Obligations.MixResetAndAllOff : Prop :=
  ∀ s : State,
    (∃ t, exec .mixReset s = .next t ∧ t = { s with mix := t.mix, res := 0 } ∧
      ∀ k : Fin 8, t.mix.voice[k] = ⟨0, 0, false, 0⟩ ∧ t.mix.track[k] = ⟨0, 0, 0, 0, 0, 1, false⟩) ∧
    (∃ t, exec .mixAllOff s = .next t ∧ t = { s with mix := t.mix, res := 0 } ∧
      ∀ k : Fin 8, t.mix.voice[k] = { s.mix.voice[k] with active := false } ∧
        t.mix.track[k] = { s.mix.track[k] with durationLeftUs := 0 })

/-- `MIX.BIND` (R172, the spec's own choice D23): an out-of-range track is a no-op; otherwise the track takes the
sequence, its index 0 and a pitch shift of at least 1; a non-empty sequence loads the first record's delay and arms
the track, and is refused where that record lies outside `NOTE` (R75); an empty one disarms it; the duration
counter, every voice and every other track are unchanged. -/
def Obligations.MixBindEffect : Prop :=
  ∀ (s : State) (a b c d : Word),
    let shift : Word := if d = 0 then 1 else d
    let bound (k : Fin 8) (delay : Word) (armed : Bool) : Track :=
      { s.mix.track[k] with
        seqBase := b, seqLen := c, index := 0, pitchShift := shift, delayLeftUs := delay, armed := armed }
    (8 ≤ a.toNat → exec (.mixBind a b c d) s = .next { s with res := 0 }) ∧
    (∀ k : Fin 8, a.toNat = k.val →
      (c = 0 → exec (.mixBind a b c d) s = .next { s with
        mix := { s.mix with track := s.mix.track.set k (bound k 0 false) }
        res := 0 }) ∧
      (c ≠ 0 → b.toNat < s.note.size → exec (.mixBind a b c d) s = .next { s with
        mix := { s.mix with
          track := s.mix.track.set k (bound k (readCells noteFill s.note.cells b.toNat).delayUs true) }
        res := 0 }) ∧
      (c ≠ 0 → s.note.size ≤ b.toNat → exec (.mixBind a b c d) s = .refused (.streamOverrun .mix b.toNat)))

/-- The scheduler over one track, whether or not it reads the record at its cursor, as long as a record it reads lies
inside `NOTE` (R174, R175, R176, R178, the spec's own choices D20, D21, D27; that the record is an instruction of its
own, log entry 9): exactly one branch is taken; counters step by 125 and reach zero at 0 or below; the voice of an
ended note is switched off and the next record's delay loaded, or the track disarmed after its last; an expired delay
consumes the record and starts the voice from phase 0, unless its increment is 0; nothing else changes. -/
def Obligations.Note3SchedulesOneTrack : Prop :=
  ∀ (s : State) (k : Fin 8) (r : NoteRec), (ReadsNote s k → NoteReadable s k) →
    let after := scheduled s.params r s.mix.track[k] s.mix.voice[k]
    exec (.note3 k r) s = .next { s with
      mix := { voice := s.mix.voice.set k after.2, track := s.mix.track.set k after.1 } }

/-- `MIX.TICK` (R174, R179, R180, the spec's own choice D30): every track is scheduled as its record at the cursor
says, independently of the others; then every active voice advances by its increment modulo 2^32 and contributes
its amplitude with the sign of the top bit; the sum is limited, biased and clamped into the result. It completes
wherever each record that is read lies inside `NOTE`. -/
def Obligations.MixTickSchedulesThenMixes : Prop :=
  ∀ s : State, (∀ k : Fin 8, ReadsNote s k → NoteReadable s k) →
    ∃ t, exec .mixTick s = .next t ∧ t = { s with mix := t.mix, res := t.res } ∧
      (∀ k : Fin 8,
        let after := scheduled s.params (readCells noteFill s.note.cells (noteCursor s k)) s.mix.track[k] s.mix.voice[k]
        t.mix.track[k] = after.1 ∧ t.mix.voice[k] = oscillated after.2) ∧
      (let contribution (k : Fin 8) : Int :=
         let v := t.mix.voice[k]
         if v.active = false then 0 else if 2 ^ 31 ≤ v.phase.toNat then v.amp.toInt else -v.amp.toInt
       let sum := contribution 0 + contribution 1 + contribution 2 + contribution 3 + contribution 4 +
         contribution 5 + contribution 6 + contribution 7
       let limited := max (-(s.params.mixLimit : Int)) (min s.params.mixLimit sum)
       (t.res.toNat : Int) = max 0 (min 255 (limited + s.params.mixBias)))

/-- Where `MIX.TICK` completes, `NOTE3` with the record at the cursor completes for every track, and the tick leaves
that track as `NOTE3` does and its voice as `NOTE3` does after the oscillator has advanced it (R174 to R176, R179;
`NOTE3` as an instruction, log entry 9). -/
def Obligations.MixTickTracksFollowNote3 : Prop :=
  ∀ (s t : State) (k : Fin 8), exec .mixTick s = .next t →
    ∃ u, exec (.note3 k (readCells noteFill s.note.cells (noteCursor s k))) s = .next u ∧
      t.mix.track[k] = u.mix.track[k] ∧ t.mix.voice[k] = oscillated u.mix.voice[k]

/-- A track's index never decreases, grows by at most one in a tick, and stays inside the sequence (R24, R35,
R176). -/
def Obligations.TrackIndexGrowsByAtMostOne : Prop :=
  ∀ (s t : State) (k : Fin 8), exec .mixTick s = .next t →
    s.mix.track[k].index.toNat ≤ s.mix.track[k].seqLen.toNat →
    s.mix.track[k].index.toNat ≤ t.mix.track[k].index.toNat ∧
    t.mix.track[k].index.toNat ≤ s.mix.track[k].index.toNat + 1 ∧
    t.mix.track[k].index.toNat ≤ t.mix.track[k].seqLen.toNat

/-- `MIX.RESET` leaves a reset mixer, and over a reset mixer, whatever the rest of the state, `MIX.TICK` returns the
clamped bias and changes nothing else; so every further tick does the same (R171, the spec's own choices D25,
D26). -/
def Obligations.ResetMixerIsSilent : Prop :=
  (∀ s : State, ∃ t, exec .mixReset s = .next t ∧ MixIsReset t.mix) ∧
  ∀ s : State, MixIsReset s.mix →
    ∃ r : Word, exec .mixTick s = .next { s with res := r } ∧ (r.toNat : Int) = max 0 (min 255 s.params.mixBias)

/-- `PhaseInc` (R177, the spec's own choice D22): 0 for a rest or a period shifted down to nothing; otherwise the
nearest integer to 2^32 * 10^6 / (adj * 8000), ties upward, modulo 2^32: so 0 at 125 microseconds (2^32 itself),
wrapped below, and from 126 on the nearest integer itself. -/
def Obligations.PhaseIncIsTheNearestInteger : Prop :=
  ∀ period shift : Word,
    let adj := if 1 < shift.toNat then period.toNat / shift.toNat else period.toNat
    let nearest (q : Nat) : Prop :=
      2 * q * (adj * 8000) ≤ 2 * (2 ^ 32 * 10 ^ 6) + adj * 8000 ∧
      2 * (2 ^ 32 * 10 ^ 6) < 2 * q * (adj * 8000) + adj * 8000
    (adj = 0 → phaseInc period shift = 0) ∧
    (0 < adj → ∃ q, nearest q ∧ (phaseInc period shift).toNat = q % 2 ^ 32) ∧
    (adj = 125 → phaseInc period shift = 0) ∧
    (125 < adj → nearest (phaseInc period shift).toNat)

/-- The output stage (R180, the spec's own choice D26): every sum at or beyond the limit gives the same byte, on
either side; with limit 220 and bias 128 the stage is the clamp of the sum plus 128, and those bytes are 255
and 0. -/
def Obligations.OutputSaturatesAtTheLimit : Prop :=
  ∀ (P : Params) (sum : Int), 0 < P.mixLimit →
    ((P.mixLimit : Int) ≤ sum → mixOutput P sum = mixOutput P P.mixLimit) ∧
    (sum ≤ -(P.mixLimit : Int) → mixOutput P sum = mixOutput P (-(P.mixLimit : Int))) ∧
    (P.mixLimit = 220 → P.mixBias = 128 →
      ((mixOutput P sum).toNat : Int) = max 0 (min 255 (sum + 128)) ∧
      mixOutput P 220 = 255 ∧ mixOutput P (-220) = 0)

/-! ## The player -/

/-- `PLAYER.RESET` and `PLAYER.SELECT` (R191, R192, the spec's own choice D29): the reset values; or the source,
the run flag and the mark; a select of 4 or more is a no-op; nothing else changes. -/
def Obligations.PlayerResetAndSelect : Prop :=
  ∀ (s : State) (a : Word) (now : BitVec 16),
    exec .playerReset s = .next { s with
      player := { sel := 0, run := false, mark := 0, duty := none }, res := 0 } ∧
    (a.toNat < 4 → exec (.playerSelect a now) s = .next { s with
      player := { s.player with sel := BitVec.ofNat 2 a.toNat, run := true, mark := now }, res := 0 }) ∧
    (4 ≤ a.toNat → exec (.playerSelect a now) s = .next { s with res := 0 })

/-- `PLAYER.TICK` and the tick body (R193, R194, R197, the spec's own choice D29): with no source selected the result
is 0 and nothing changes; otherwise exactly the pull of the selected source runs, with all its state changes and its
refusals, its duty value is written to `PLAYER.duty` and returned, and the mark is not touched. A decoder's sample
gives the duty value floor(sample / 256) + 128 (the spec's own choice D28). -/
def Obligations.PlayerTickPullsTheSource : Prop :=
  ∀ s : State,
    (s.player.run = false → exec .playerTick s = .next { s with res := 0 }) ∧
    (s.player.run = true →
      (∀ (i : Instr) (sel : BitVec 2), (i, sel) ∈ [(Instr.imaNext, (0 : BitVec 2)), (.twobitNext, 1), (.lpcNext, 2)] →
        s.player.sel = sel →
        (∀ t, exec i s = .next t → ∃ d : Byte, (d.toNat : Int) = (t.res.setWidth 16 : Sample).toInt / 256 + 128 ∧
          exec .playerTick s = .next { t with player := { s.player with duty := some d }, res := d.setWidth 32 }) ∧
        (∀ r, exec i s = .refused r → exec .playerTick s = .refused r)) ∧
      (s.player.sel = 3 →
        (∀ t, exec .mixTick s = .next t →
          exec .playerTick s = .next { t with player := { s.player with duty := some (t.res.setWidth 8) } }) ∧
        (∀ r, exec .mixTick s = .refused r → exec .playerTick s = .refused r)))

/-- `PLAYER.TICK` completes, and so does a `PLAYER.POLL` that is due, whenever the pull of the selected source reads
nothing outside its window, `ROM` or `NOTE` (R193 to R197, R75): the source's own command completes, and the tick
leaves the state of that pull with its duty value `d` written and returned, the poll the same with the mark on by 125
and bit 8 of the result set; `d` is floor(sample / 256) + 128 of a decoder's sample (the spec's own choice D28) and
the mixer's byte itself. -/
def Obligations.PlayerTicksComplete : Prop :=
  ∀ (s : State) (now : BitVec 16), s.player.run = true → PullReadable s →
    ∀ (i : Instr) (sel : BitVec 2),
      (i, sel) ∈ [(Instr.imaNext, (0 : BitVec 2)), (.twobitNext, 1), (.lpcNext, 2), (.mixTick, 3)] →
      s.player.sel = sel →
      ∃ (t : State) (d : Byte), exec i s = .next t ∧
        (sel ≠ 3 → (d.toNat : Int) = (t.res.setWidth 16 : Sample).toInt / 256 + 128) ∧
        (sel = 3 → t.res = d.setWidth 32) ∧
        exec .playerTick s =
          .next { t with player := { s.player with duty := some d }, res := d.setWidth 32 } ∧
        (125 ≤ (now - s.player.mark).toNat →
          exec (.playerPoll now) s = .next { t with
            player := { s.player with mark := s.player.mark + 125, duty := some d }
            res := 0x100 + d.setWidth 32 })

/-- `PLAYER.POLL` (R196, the spec's own choices D29, D34): with no source selected, or before 125 microseconds have
elapsed by 16-bit subtraction, the result is 0 and nothing changes; otherwise it is the tick of `PLAYER.TICK` after
the mark has advanced by exactly 125, with bit 8 of the result set; it is refused exactly where that tick is. -/
def Obligations.PlayerPollTicksWhenDue : Prop :=
  ∀ (s : State) (now : BitVec 16),
    ((s.player.run = false ∨ (now - s.player.mark).toNat < 125) →
      exec (.playerPoll now) s = .next { s with res := 0 }) ∧
    (s.player.run = true → 125 ≤ (now - s.player.mark).toNat →
      (∀ t, exec .playerTick s = .next t →
        exec (.playerPoll now) s = .next { t with
          player := { t.player with mark := s.player.mark + 125 }, res := 0x100 + t.res }) ∧
      (∀ r, exec .playerTick s = .refused r → exec (.playerPoll now) s = .refused r))

/-- The two deployment shapes behave identically (R198), without drift (R199): a run of polls that completes, of
which n ticked, writes the same n duty values as n callback ticks and leaves the same state but for the mark and
the last result; the mark has advanced by exactly 125 for each tick, whatever the poll times were. -/
def Obligations.PollingEqualsTheTimerCallback : Prop :=
  ∀ (nows : List (BitVec 16)) (s t : State) (ds : List Byte), pollRun nows s = some (ds, t) →
    ∃ u, tickRun ds.length s = some (ds, u) ∧ forgetMark u = forgetMark t ∧
      u.player.mark = s.player.mark ∧
      t.player.mark = s.player.mark + BitVec.ofNat 16 (125 * ds.length)

/-- A decoder sample of the two-bit decoder comes out of the player as exactly the predictor (R194). -/
def Obligations.DutyOfATwobitSampleIsThePredictor : Prop :=
  ∀ u : Twobit, duty16 (twobitSample u) = u.pred

/-! ## The whole machine -/

/-- A command writes only the registers of its own unit, a tick of the player those of the selected source too,
and nothing writes a memory, a parameter or the command port (R65, R209, R20). -/
def Obligations.UnitsAreProtectedFromEachOther : Prop :=
  ∀ (i : Instr) (s t : State), exec i s = .next t →
    t.rom = s.rom ∧ t.note = s.note ∧ t.params = s.params ∧ t.port = s.port ∧
    (¬ reaches i s .ima → t.ima = s.ima) ∧ (¬ reaches i s .twobit → t.twobit = s.twobit) ∧
    (¬ reaches i s .lpc → t.lpc = s.lpc) ∧ (¬ reaches i s .mix → t.mix = s.mix) ∧
    (unitOf i ≠ .player → t.player = s.player)

/-- What an instruction does to a unit, and what it returns, depends only on that unit, the memories and the
parameters (R20, R115, R181): two states that agree in them give the same outcome for every instruction of the unit
but the ticks of the player. -/
def Obligations.UnitsDoNotObserveEachOther : Prop :=
  ∀ (i : Instr) (s t s' : State), s.rom = t.rom → s.note = t.note → s.params = t.params → exec i s = .next s' →
    (unitOf i = .ima → s.ima = t.ima → ∃ t', exec i t = .next t' ∧ t'.ima = s'.ima ∧ t'.res = s'.res) ∧
    (unitOf i = .twobit → s.twobit = t.twobit → ∃ t', exec i t = .next t' ∧ t'.twobit = s'.twobit ∧ t'.res = s'.res) ∧
    (unitOf i = .lpc → s.lpc = t.lpc → ∃ t', exec i t = .next t' ∧ t'.lpc = s'.lpc ∧
      (isCommand i = true → t'.res = s'.res)) ∧
    (unitOf i = .mix → s.mix = t.mix → ∃ t', exec i t = .next t' ∧ t'.mix = s'.mix ∧
      (isCommand i = true → t'.res = s'.res))

/-- Only a read that leaves its window, `ROM` or `NOTE` is refused (R75, R201, R205, the spec's own choice D31): every
refusal of an instruction is a `StreamOverrun` of a unit the instruction runs, at the address (or record index) of a
read of that unit that lies outside, the first of a frame and of the tracks; no instruction faults, and the commands
that read no memory always complete. (`NIB4`, `CODE2`, `LPCF`, `NOTE3` as instructions: log entries 8, 9.) -/
def Obligations.OnlyOverrunningReadsAreRefused : Prop :=
  ∀ (i : Instr) (s : State),
    (∀ f, exec i s ≠ .fault f) ∧
    (∀ r, exec i s = .refused r →
      ∃ unit addr, r = .streamOverrun unit addr ∧ reaches i s unit ∧ ReadsOutside i s unit addr) ∧
    (isCommand i = true →
      (∀ a b c d, i ≠ .mixBind a b c d) →
      i ∉ [Instr.imaNext, .twobitNext, .lpcNext, .mixTick] → ticks i = false → ∃ t, exec i s = .next t)

/-- Where an ADPCM pull and an `LPC.NEXT` are refused (R75, R201, R205, the spec's own choices D5, D31; `NIB4` and
`CODE2`, log entry 8): a pull with input left whose byte lies outside `ROM`, and an `LPC.NEXT` due to decode a frame
whose cursor stands at the end of its window or of `ROM`, each with the address of the read. -/
def Obligations.OverrunsAreRefusedWithTheirAddress : Prop :=
  ∀ s : State,
    (2 * s.ima.cur.toNat + s.ima.nib.toNat < s.ima.len.toNat → s.rom.size ≤ s.ima.base.toNat + s.ima.cur.toNat →
      exec .imaNext s = .refused (.streamOverrun .ima (s.ima.base.toNat + s.ima.cur.toNat)) ∧
      ∀ c, exec (.nib4 c) s = .refused (.streamOverrun .ima (s.ima.base.toNat + s.ima.cur.toNat))) ∧
    (4 * s.twobit.cur.toNat + s.twobit.pos.toNat < s.twobit.len.toNat →
      s.rom.size ≤ s.twobit.base.toNat + s.twobit.cur.toNat →
      ∀ i ∈ [Instr.twobitNext, .code2_0, .code2_1, .code2_2, .code2_3],
        exec i s = .refused (.streamOverrun .twobit (s.twobit.base.toNat + s.twobit.cur.toNat))) ∧
    (s.lpc.fin = false → s.lpc.fpos = 0 →
      (s.lpc.len.toNat ≤ s.lpc.cur.toNat ∨ s.rom.size ≤ s.lpc.base.toNat + s.lpc.cur.toNat) →
      exec .lpcNext s = .refused (.streamOverrun .lpc (s.lpc.base.toNat + s.lpc.cur.toNat)))

/-- The ADPCM decoders never leave a window that lies in `ROM`: their pull always completes (R61, R75). -/
def Obligations.AdpcmPullsStayInTheirWindow : Prop :=
  ∀ s : State,
    (ImaWindowInRom s → ∃ t, exec .imaNext s = .next t ∧ ImaWindowInRom t) ∧
    (TwobitWindowInRom s → ∃ t, exec .twobitNext s = .next t ∧ TwobitWindowInRom t)

/-- A frame whose bits run out in its middle (R75, R142, R205, the spec's own choices D5, D31; the frame rows as
instructions, log entry 8): where bit number `n` of a frame is the first that lies outside the window or `ROM`, its row
is refused with the address of that bit's byte, and so is an `LPC.NEXT` due to decode a frame whose first `n` bits
stand at the cursor. -/
def Obligations.FramesThatRunOutAreRefused : Prop :=
  ∀ (s : State) (f : Frame) (n : Nat), LpcFrameFits s f → n < (frameBits s.lpc.mode f).length →
    ¬ LpcBitReadable s (bitCursor s.lpc + n) →
    let addr := s.lpc.base.toNat + (bitCursor s.lpc + n) / 8
    (LpcBitsReadable s n → exec (f.toInstr s.lpc.mode) s = .refused (.streamOverrun .lpc addr)) ∧
    (s.lpc.fin = false → s.lpc.fpos = 0 → LpcBitsStand s ((frameBits s.lpc.mode f).take n) →
      exec .lpcNext s = .refused (.streamOverrun .lpc addr))

/-- A note record outside `NOTE` (R75, R205, the spec's own choice D31; `NOTE3` as an instruction, log entry 9): a
track that reads the record at its cursor, with the cursor outside `NOTE`, has `NOTE3` refused with the record index
of the cursor, and `MIX.TICK` too where every earlier track reads inside `NOTE` or reads nothing. -/
def Obligations.RecordsOutsideNoteAreRefused : Prop :=
  ∀ (s : State) (k : Fin 8), ReadsNote s k → s.note.size ≤ noteCursor s k →
    (∀ r, exec (.note3 k r) s = .refused (.streamOverrun .mix (noteCursor s k))) ∧
    ((∀ j, j < k → ReadsNote s j → NoteReadable s j) →
      exec .mixTick s = .refused (.streamOverrun .mix (noteCursor s k)))
end

