-- ==== Sys2Proof/Laws/Arith.lean ====
section
/-! SUPPORT. The integer functions of rule R13 and the narrowing into registers. -/
namespace Sys2Proof.Machine

theorem clamp_eq_max_min (v lo hi : Int) (h : lo ≤ hi) : clamp v lo hi = max lo (min hi v) := by
  unfold clamp; split <;> [skip; split] <;> omega

theorem le_clamp (v lo hi : Int) (h : lo ≤ hi) : lo ≤ clamp v lo hi := by
  unfold clamp; split <;> [skip; split] <;> omega

theorem clamp_le (v lo hi : Int) (h : lo ≤ hi) : clamp v lo hi ≤ hi := by
  unfold clamp; split <;> [skip; split] <;> omega

theorem toInt_ofInt16 (v : Int) (h1 : -32768 ≤ v) (h2 : v ≤ 32767) : (BitVec.ofInt 16 v).toInt = v := by
  rw [BitVec.toInt_ofInt, Int.bmod_eq_of_le] <;> omega

theorem toNat_ofInt (w : Nat) (v : Int) (h1 : 0 ≤ v) (h2 : v < 2 ^ w) : ((BitVec.ofInt w v).toNat : Int) = v := by
  rw [BitVec.toNat_ofInt, Int.toNat_of_nonneg (Int.emod_nonneg _ (by positivity))]
  exact Int.emod_eq_of_lt h1 (by exact_mod_cast h2)

/-- The clamped filter output lies in the range R156 gives it. -/
theorem clampOutput_toInt (u : Sample) : (clampOutput u).toInt = max (-512) (min 511 u.toInt) := by
  have h := clamp_eq_max_min u.toInt Config.u0Min Config.u0Max (by decide)
  rw [clampOutput, toInt_ofInt16 _ (by rw [h]; simp only [Config.u0Min, Config.u0Max]; omega)
    (by rw [h]; simp only [Config.u0Min, Config.u0Max]; omega), h]
  rfl

/-- R158: scaling by 64 is exact on the clamped range. -/
theorem scaleOutput_toInt (u : Sample) : (scaleOutput (clampOutput u)).toInt = (clampOutput u).toInt * 64 := by
  have h := clampOutput_toInt u
  rw [scaleOutput, wraps16, toInt_ofInt16] <;> omega

/-- R154: a step of the noise register never gives 0 from a non-zero value. -/
theorem lfsrStep_ne_zero (r : BitVec 16) (h : r ≠ 0) : lfsrStep r ≠ 0 := by
  intro e
  unfold lfsrStep at e
  split at e
  · have hb : (r >>> 1 ^^^ Config.lfsrPoly).getLsbD 15 = false := by rw [e]; rfl
    simp [Config.lfsrPoly] at hb
  · rename_i hz
    apply h
    have e' : r.toNat >>> 1 = 0 := by simpa using congrArg BitVec.toNat e
    have hz' : r.toNat % 2 = 0 := by
      have := Bool.not_eq_true _ ▸ hz
      simpa [BitVec.getLsbD, Nat.testBit, Nat.and_comm 1] using this
    apply BitVec.eq_of_toNat_eq
    simp [Nat.shiftRight_eq_div_pow] at e' ⊢
    omega

end Sys2Proof.Machine
end

