-- ==== Sys2Proof/Laws/Bits.lean ====
section
/-! SUPPORT. The bit reader (R142) over fields that stand in a stream. -/
namespace Sys2Proof

/-- The bits `bits` stand at position `q` of `src`. -/
def Stands (src : BitSource) (q : Nat) (bits : List Bool) : Prop :=
  ∀ j (h : j < bits.length), src (q + j) = some bits[j]

theorem Stands.nil (src : BitSource) (q : Nat) : Stands src q [] := by
  intro j h; simp at h

theorem stands_cons (src : BitSource) (q : Nat) (b : Bool) (bits : List Bool) :
    Stands src q (b :: bits) ↔ src q = some b ∧ Stands src (q + 1) bits := by
  constructor
  · intro h
    refine ⟨h 0 (Nat.zero_lt_succ _), ?_⟩
    intro j hj
    have := h (j + 1) (by simpa using hj)
    simpa [Nat.add_assoc, Nat.add_comm 1 j] using this
  · rintro ⟨h0, h⟩ j hj
    cases j with
    | zero => simpa using h0
    | succ j =>
      have := h j (by simpa using hj)
      simpa [Nat.add_assoc, Nat.add_comm 1 j] using this

theorem stands_append (src : BitSource) (q : Nat) (xs ys : List Bool) :
    Stands src q (xs ++ ys) ↔ Stands src q xs ∧ Stands src (q + xs.length) ys := by
  induction xs generalizing q with
  | nil => simp [Stands.nil]
  | cons b xs ih =>
    simp only [List.cons_append, stands_cons, ih, List.length_cons, and_assoc]
    rw [show q + 1 + xs.length = q + (xs.length + 1) by omega]

@[simp] theorem length_bitsMsbFirst {w : Nat} (v : BitVec w) (n : Nat) : (bitsMsbFirst v n).length = n := by
  induction n with
  | zero => rfl
  | succ n ih => simp [bitsMsbFirst, ih]

@[simp] theorem length_fieldBits {n : Nat} (v : BitVec n) : (fieldBits v).length = n := length_bitsMsbFirst v n

theorem mod_two_pow_succ (x n : Nat) : x % 2 ^ (n + 1) = (x.testBit n).toNat * 2 ^ n + x % 2 ^ n := by
  rw [Nat.pow_succ, Nat.mod_mul, Nat.testBit_eq_decide_div_mod_eq]
  have := Nat.mod_two_eq_zero_or_one (x / 2 ^ n)
  rcases this with h | h <;> simp [h, Nat.add_comm]

/-- The loop of R142 over a field that stands in the stream, on top of what was read before. -/
theorem getBitsFrom_stands {w : Nat} (src : BitSource) (v : BitVec w) (n acc q : Nat)
    (h : Stands src q (bitsMsbFirst v n)) :
    getBitsFrom src n acc q = .ok (acc * 2 ^ n + v.toNat % 2 ^ n, q + n) := by
  induction n generalizing acc q with
  | zero => simp [getBitsFrom, Nat.mod_one]
  | succ n ih =>
    rw [bitsMsbFirst, stands_cons] at h
    simp only [getBitsFrom, h.1, ih _ _ h.2]
    rw [mod_two_pow_succ v.toNat n, show v.getLsbD n = v.toNat.testBit n from rfl]
    congr 2
    · ring
    · omega

/-- R142: a field that stands in the stream is read as itself. -/
theorem getBits_stands {n : Nat} (src : BitSource) (v : BitVec n) (q : Nat) (h : Stands src q (fieldBits v)) :
    getBits src n q = .ok (v, q + n) := by
  simp only [getBits, getBitsFrom_stands src v n 0 q h, Nat.zero_mul, Nat.zero_add,
    Nat.mod_eq_of_lt v.isLt, BitVec.ofNat_toNat, BitVec.setWidth_eq]

/-- A successful read of `n` bits advances by `n`, and every bit it passed could be read. -/
theorem getBitsFrom_ok {src : BitSource} {n v q v' q' : Nat} (h : getBitsFrom src n v q = .ok (v', q')) :
    q' = q + n ∧ ∀ j, j < n → (src (q + j)).isSome := by
  induction n generalizing v q with
  | zero =>
    simp only [getBitsFrom, Except.ok.injEq, Prod.mk.injEq] at h
    exact ⟨h.2.symm, by omega⟩
  | succ n ih =>
    simp only [getBitsFrom] at h
    split at h
    · cases h
    · rename_i b hb
      obtain ⟨h1, h2⟩ := ih h
      refine ⟨by omega, ?_⟩
      intro j hj
      cases j with
      | zero => simp [hb]
      | succ j => rw [show q + (j + 1) = q + 1 + j by omega]; exact h2 j (by omega)

theorem getBits_ok {src : BitSource} {n q : Nat} {v : BitVec n} {q' : Nat} (h : getBits src n q = .ok (v, q')) :
    q' = q + n ∧ ∀ j, j < n → (src (q + j)).isSome := by
  unfold getBits at h
  split at h
  · cases h
  · rename_i w r hw
    simp only [Except.ok.injEq, Prod.mk.injEq] at h
    obtain ⟨-, rfl⟩ := h
    exact getBitsFrom_ok hw

/-- Where a read stops, it stops at a bit that may not be read. -/
theorem getBitsFrom_error {src : BitSource} {n v q e : Nat} (h : getBitsFrom src n v q = .error e) :
    src e = none ∧ q ≤ e ∧ e < q + n := by
  induction n generalizing v q with
  | zero => cases h
  | succ n ih =>
    simp only [getBitsFrom] at h
    split at h
    · rename_i hs
      cases h
      exact ⟨hs, le_refl _, by omega⟩
    · have := ih h
      exact ⟨this.1, by omega, by omega⟩

end Sys2Proof
end

