-- ==== Sys2Proof/Laws/Frames.lean ====
section
/-! SUPPORT. The frame parser (R91, R92, R148, R151): what it reads and where it stops, over a stream that runs out
too, and the bits of a frame parsed back. -/
namespace Sys2Proof

theorem except_bind_ok {ε α β : Type} {x : Except ε α} {f : α → Except ε β} {b : β} :
    (x >>= f) = .ok b ↔ ∃ a, x = .ok a ∧ f a = .ok b := by
  cases x <;> simp [bind, Except.bind]

theorem except_ok_bind {ε α β : Type} (a : α) (f : α → Except ε β) : ((Except.ok a : Except ε α) >>= f) = f a := rfl

theorem except_pure {ε α : Type} (a : α) : (pure a : Except ε α) = .ok a := rfl

/-- The reader went from `q` to `q'` over bits that may all be read. -/
def Passed (src : BitSource) (q q' : Nat) : Prop := q ≤ q' ∧ ∀ p, q ≤ p → p < q' → (src p).isSome

theorem Passed.refl (src : BitSource) (q : Nat) : Passed src q q := ⟨le_refl _, by omega⟩

theorem Passed.trans {src : BitSource} {a b c : Nat} (h₁ : Passed src a b) (h₂ : Passed src b c) :
    Passed src a c := by
  refine ⟨le_trans h₁.1 h₂.1, fun p hp hq => ?_⟩
  by_cases hb : p < b
  · exact h₁.2 p hp hb
  · exact h₂.2 p (by omega) hq

/-! ## What a reader of at most `n` bits can do -/

/-- A reader of at most `n` bits at `q`: it answers behind bits that may all be read, or stops at the first that
may not be. -/
def Reads {α : Type} (src : BitSource) (q n : Nat) (x : Except Nat (α × Nat)) : Prop :=
  (∃ r, x = .ok r ∧ Passed src q r.2 ∧ r.2 ≤ q + n) ∨
  (∃ e, x = .error e ∧ Passed src q e ∧ src e = none ∧ e < q + n)

theorem Reads.pure {α : Type} (src : BitSource) (q n : Nat) (a : α) : Reads src q n (.ok (a, q)) :=
  .inl ⟨_, rfl, Passed.refl src q, Nat.le_add_right _ _⟩

theorem Reads.bind {α β : Type} {src : BitSource} {q n m : Nat} {x : Except Nat (α × Nat)}
    {f : α × Nat → Except Nat (β × Nat)} (h : Reads src q n x) (hf : ∀ r, Reads src r.2 m (f r)) :
    Reads src q (n + m) (x >>= f) := by
  rcases h with ⟨r, rfl, hp, hle⟩ | ⟨e, rfl, hp, hn, hlt⟩
  · rcases hf r with ⟨r', hr, hp', hle'⟩ | ⟨e, he, hp', hn, hlt⟩
    · exact .inl ⟨r', hr, hp.trans hp', by omega⟩
    · exact .inr ⟨e, he, hp.trans hp', hn, by omega⟩
  · exact .inr ⟨e, rfl, hp, hn, by omega⟩

theorem reads_getBits (src : BitSource) (n q : Nat) : Reads src q n (getBits src n q) := by
  suffices ∀ v, Reads src q n (getBitsFrom src n v q) by
    unfold getBits
    rcases this 0 with ⟨r, hr, hp⟩ | ⟨e, he, hp⟩
    · rw [hr]; exact .inl ⟨_, rfl, hp⟩
    · rw [he]; exact .inr ⟨e, rfl, hp⟩
  induction n generalizing q with
  | zero => exact fun v => Reads.pure src q 0 v
  | succ n ih =>
    intro v
    simp only [getBitsFrom]
    cases hs : src q with
    | none => exact .inr ⟨q, rfl, Passed.refl src q, hs, by omega⟩
    | some b =>
      have hq : Passed src q (q + 1) :=
        ⟨by omega, fun p h1 h2 => by rw [show p = q by omega, hs]; rfl⟩
      rcases ih (q + 1) (2 * v + b.toNat) with ⟨r, hr, hp, hle⟩ | ⟨e, he, hp, hn, hlt⟩
      · exact .inl ⟨r, hr, hq.trans hp, by omega⟩
      · exact .inr ⟨e, he, hq.trans hp, hn, by omega⟩

theorem reads_getPitch (mode : BitVec 1) (src : BitSource) (q : Nat) : Reads src q 6 (getPitch mode src q) := by
  unfold getPitch
  split
  · exact reads_getBits src 6 q
  · rcases reads_getBits src 5 q with ⟨r, hr, hp, hle⟩ | ⟨e, he, hp, hn, hlt⟩
    · rw [hr]; exact .inl ⟨_, rfl, hp, by dsimp only; omega⟩
    · rw [he]; exact .inr ⟨e, rfl, hp, hn, by omega⟩

theorem reads_getKLow (src : BitSource) (q : Nat) : Reads src q 18 (getKLow src q) :=
  (reads_getBits src 5 q).bind fun r1 => (reads_getBits src 5 r1.2).bind fun r2 =>
    (reads_getBits src 4 r2.2).bind fun r3 => (reads_getBits src 4 r3.2).bind fun r4 => Reads.pure src r4.2 0 _

theorem reads_getKHigh (src : BitSource) (q : Nat) : Reads src q 21 (getKHigh src q) :=
  (reads_getBits src 4 q).bind fun r1 => (reads_getBits src 4 r1.2).bind fun r2 =>
    (reads_getBits src 4 r2.2).bind fun r3 => (reads_getBits src 3 r3.2).bind fun r4 =>
    (reads_getBits src 3 r4.2).bind fun r5 => (reads_getBits src 3 r5.2).bind fun r6 => Reads.pure src r6.2 0 _

/-- R91, R92: a frame has at most 50 bits; the parser answers behind bits that may all be read, or stops at the
first that may not be. -/
theorem reads_parseFrame (mode : BitVec 1) (voiced : BitVec 6 → Bool) (src : BitSource) (q : Nat) :
    Reads src q 50 (parseFrame mode voiced src q) := by
  refine (reads_getBits src 4 q).bind (m := 46) fun ⟨c, q1⟩ => ?_
  dsimp only
  split
  · exact Reads.pure src _ _ _
  · split
    · exact Reads.pure src _ _ _
    · refine (reads_getBits src 1 q1).bind (m := 45) fun r1 =>
        (reads_getPitch mode src r1.2).bind (m := 39) fun r2 => ?_
      dsimp only
      split
      · exact Reads.pure src _ _ _
      · refine (reads_getKLow src r2.2).bind (m := 21) fun r3 => ?_
        split
        · exact (reads_getKHigh src r3.2).bind (m := 0) fun r4 => Reads.pure src r4.2 0 _
        · exact Reads.pure src _ _ _

/-- Every bit between the beginning of a parsed frame and the position after it may be read. -/
theorem parseFrame_passed {mode : BitVec 1} {voiced : BitVec 6 → Bool} {src : BitSource} {q q' : Nat} {f : Frame}
    (h : parseFrame mode voiced src q = .ok (f, q')) : Passed src q q' := by
  rcases reads_parseFrame mode voiced src q with ⟨r, hr, hp, -⟩ | ⟨e, he, -⟩
  · rw [h] at hr; cases hr; exact hp
  · rw [h] at he; cases he

/-- Where the parser stops, it stops at the first bit that may not be read, within the longest frame. -/
theorem parseFrame_error {mode : BitVec 1} {voiced : BitVec 6 → Bool} {src : BitSource} {q e : Nat}
    (h : parseFrame mode voiced src q = .error e) : Passed src q e ∧ src e = none ∧ e < q + 50 := by
  rcases reads_parseFrame mode voiced src q with ⟨r, hr, -⟩ | ⟨e', he, hp⟩
  · rw [h] at hr; cases hr
  · rw [h] at he; cases he; exact hp

/-! ## A stream that runs out -/

/-- From bit `q` on a source is the full one up to bit `e`, which it does not have. -/
structure RunsOut (src full : BitSource) (q e : Nat) : Prop where
  le : q ≤ e
  agree : ∀ p, q ≤ p → p < e → src p = full p ∧ (full p).isSome
  stop : src e = none

/-- A reader at `q` over the source that runs out stops there, or does what it does over the full one. -/
def StopsAt {α : Type} (q e : Nat) (x full : Except Nat (α × Nat)) : Prop :=
  x = .error e ∨ ∃ r, x = .ok r ∧ full = .ok r ∧ q ≤ r.2 ∧ r.2 ≤ e

theorem RunsOut.pure {α : Type} {src full : BitSource} {q e : Nat} (h : RunsOut src full q e) (a : α) :
    StopsAt q e (.ok (a, q)) (.ok (a, q)) := .inr ⟨_, rfl, rfl, le_refl _, h.le⟩

theorem RunsOut.bind {α β : Type} {src full : BitSource} {q e : Nat} {x y : Except Nat (α × Nat)}
    {f g : α × Nat → Except Nat (β × Nat)} (hs : RunsOut src full q e) (h : StopsAt q e x y)
    (hf : ∀ r, RunsOut src full r.2 e → StopsAt r.2 e (f r) (g r)) : StopsAt q e (x >>= f) (y >>= g) := by
  rcases h with rfl | ⟨r, rfl, rfl, hq, he⟩
  · exact .inl rfl
  · rcases hf r ⟨he, fun p h1 => hs.agree p (by omega), hs.stop⟩ with h | ⟨r', h1, h2, h3, h4⟩
    · exact .inl h
    · exact .inr ⟨r', h1, h2, by omega, h4⟩

theorem RunsOut.getBits {src full : BitSource} {q e : Nat} (hs : RunsOut src full q e) (n : Nat) :
    StopsAt q e (getBits src n q) (getBits full n q) := by
  suffices ∀ v, StopsAt q e (getBitsFrom src n v q) (getBitsFrom full n v q) by
    unfold Sys2Proof.getBits
    rcases this 0 with h | ⟨r, h1, h2, h3⟩
    · rw [h]; exact .inl rfl
    · rw [h1, h2]; exact .inr ⟨_, rfl, rfl, h3⟩
  induction n generalizing q with
  | zero => exact fun v => hs.pure v
  | succ n ih =>
    intro v
    simp only [getBitsFrom]
    by_cases hq : q = e
    · rw [hq, hs.stop]; exact .inl rfl
    · have := hs.le
      obtain ⟨h1, h2⟩ := hs.agree q (le_refl _) (by omega)
      obtain ⟨b, hb⟩ := Option.isSome_iff_exists.1 h2
      rw [h1, hb]
      have later : RunsOut src full (q + 1) e := ⟨by omega, fun p hp => hs.agree p (by omega), hs.stop⟩
      rcases ih later (2 * v + b.toNat) with h | ⟨r, h1, h2, h3, h4⟩
      · exact .inl h
      · exact .inr ⟨r, h1, h2, by omega, h4⟩

theorem RunsOut.getPitch {src full : BitSource} {q e : Nat} (hs : RunsOut src full q e) (mode : BitVec 1) :
    StopsAt q e (getPitch mode src q) (getPitch mode full q) := by
  unfold Sys2Proof.getPitch
  split
  · exact hs.getBits 6
  · rcases hs.getBits 5 with h | ⟨r, h1, h2, h3⟩
    · rw [h]; exact .inl rfl
    · rw [h1, h2]; exact .inr ⟨_, rfl, rfl, h3⟩

theorem RunsOut.getKLow {src full : BitSource} {q e : Nat} (hs : RunsOut src full q e) :
    StopsAt q e (getKLow src q) (getKLow full q) :=
  hs.bind (hs.getBits 5) fun _ h1 => h1.bind (h1.getBits 5) fun _ h2 => h2.bind (h2.getBits 4) fun _ h3 =>
    h3.bind (h3.getBits 4) fun _ h4 => h4.pure _

theorem RunsOut.getKHigh {src full : BitSource} {q e : Nat} (hs : RunsOut src full q e) :
    StopsAt q e (getKHigh src q) (getKHigh full q) :=
  hs.bind (hs.getBits 4) fun _ h1 => h1.bind (h1.getBits 4) fun _ h2 => h2.bind (h2.getBits 4) fun _ h3 =>
    h3.bind (h3.getBits 3) fun _ h4 => h4.bind (h4.getBits 3) fun _ h5 => h5.bind (h5.getBits 3) fun _ h6 => h6.pure _

/-- Over a source that runs out the frame parser stops there, or answers what it answers over the full one, before
the end. -/
theorem RunsOut.parseFrame {src full : BitSource} {q e : Nat} (hs : RunsOut src full q e) (mode : BitVec 1)
    (voiced : BitVec 6 → Bool) : StopsAt q e (parseFrame mode voiced src q) (parseFrame mode voiced full q) := by
  refine hs.bind (hs.getBits 4) fun ⟨c, q1⟩ h => ?_
  dsimp only
  split
  · exact h.pure _
  · split
    · exact h.pure _
    · refine h.bind (h.getBits 1) fun r1 h1 => h1.bind (h1.getPitch mode) fun r2 h2 => ?_
      dsimp only
      split
      · exact h2.pure _
      · refine h2.bind h2.getKLow fun r3 h3 => ?_
        split
        · exact h3.bind h3.getKHigh fun r4 h4 => h4.pure _
        · exact h3.pure _

/-! ## Fields that stand in the stream are parsed back -/

theorem length_pitchBits (mode : BitVec 1) (p : BitVec 6) :
    (pitchBits mode p).length = if mode = 0 then 6 else 5 := by
  unfold pitchBits; split <;> simp

@[simp] theorem length_kLowBits (k : KLow) : (kLowBits k).length = 18 := by simp [kLowBits]

@[simp] theorem length_kHighBits (k : KHigh) : (kHighBits k).length = 21 := by simp [kHighBits]

theorem getPitch_stands (mode : BitVec 1) (src : BitSource) (q : Nat) (p : BitVec 6)
    (hp : mode = 1 → p.toNat < 32) (h : Stands src q (pitchBits mode p)) :
    getPitch mode src q = .ok (p, q + (pitchBits mode p).length) := by
  unfold getPitch
  unfold pitchBits at h ⊢
  split at h
  · rename_i hm
    simp only [hm, if_true]
    rw [getBits_stands src p q h]
    simp
  · rename_i hm
    have hm1 : mode = 1 := by
      rcases BitVec.eq_zero_or_eq_one mode with h0 | h1
      · exact absurd h0 hm
      · exact h1
    simp only [hm, if_false]
    rw [getBits_stands src _ q h]
    have : (p.setWidth 5 : BitVec 5).setWidth 6 = p := by
      apply BitVec.eq_of_toNat_eq
      have := hp hm1
      simp only [BitVec.toNat_setWidth]
      omega
    simp [this]

theorem getKLow_stands (src : BitSource) (q : Nat) (k : KLow) (h : Stands src q (kLowBits k)) :
    getKLow src q = .ok (k, q + 18) := by
  simp only [kLowBits, stands_append, length_fieldBits] at h
  obtain ⟨h1, h2, h3, h4⟩ := h
  simp only [getKLow, getBits_stands src _ _ h1, except_ok_bind, getBits_stands src _ _ h2,
    getBits_stands src _ _ h3, getBits_stands src _ _ h4, except_pure, Nat.add_assoc]

theorem getKHigh_stands (src : BitSource) (q : Nat) (k : KHigh) (h : Stands src q (kHighBits k)) :
    getKHigh src q = .ok (k, q + 21) := by
  simp only [kHighBits, stands_append, length_fieldBits] at h
  obtain ⟨h1, h2, h3, h4, h5, h6⟩ := h
  simp only [getKHigh, getBits_stands src _ _ h1, except_ok_bind, getBits_stands src _ _ h2,
    getBits_stands src _ _ h3, getBits_stands src _ _ h4, getBits_stands src _ _ h5, getBits_stands src _ _ h6,
    except_pure, Nat.add_assoc]

/-- R142: one bit that stands in the stream, read as a field of width 1. -/
theorem getBit_stands (src : BitSource) (q : Nat) (b : Bool) (h : src q = some b) :
    getBits src 1 q = .ok (BitVec.ofBool b, q + 1) := by
  have := getBits_stands src (BitVec.ofBool b) q (by
    intro j hj
    have hj : j = 0 := by simpa using hj
    subst hj
    cases b <;> simpa [fieldBits, bitsMsbFirst] using h)
  exact this

end Sys2Proof
end

