-- ==== Sys2Proof/Laws/Memory.lean ====
section
/-! SUPPORT. The sparse memories: a read after a write, and the canonical form every operation keeps. -/
namespace Sys2Proof.Machine

variable {α : Type}

theorem readCells_insertCell (fill : α) (cells : List (Nat × α)) (a b : Nat) (v : α) :
    readCells fill (insertCell a v cells) b = if b = a then v else readCells fill cells b := by
  induction cells with
  | nil => simp [insertCell, readCells]
  | cons c rest ih =>
    obtain ⟨x, w⟩ := c
    simp only [insertCell]
    split
    · simp [readCells]
    · split
      · subst_vars
        simp only [readCells]
        split <;> rfl
      · simp only [readCells, ih]
        split <;> split <;> first | rfl | omega

/-- A cell below every listed address is not listed. -/
theorem readCells_eq_fill_of_lt [DecidableEq α] (fill : α) (size lo : Nat) (cells : List (Nat × α)) (b : Nat)
    (h : cellsWf fill size lo cells = true) (hb : b < lo) : readCells fill cells b = fill := by
  induction cells generalizing lo with
  | nil => rfl
  | cons c rest ih =>
    obtain ⟨x, w⟩ := c
    simp only [cellsWf, Bool.and_eq_true, decide_eq_true_eq] at h
    simp only [readCells]
    rw [if_neg (by omega)]
    exact ih (x + 1) h.2 (by omega)

theorem readCells_eraseCell [DecidableEq α] (fill : α) (size lo : Nat) (cells : List (Nat × α)) (a b : Nat)
    (h : cellsWf fill size lo cells = true) :
    readCells fill (eraseCell a cells) b = if b = a then fill else readCells fill cells b := by
  induction cells generalizing lo with
  | nil => simp [eraseCell, readCells]
  | cons c rest ih =>
    obtain ⟨x, w⟩ := c
    simp only [cellsWf, Bool.and_eq_true, decide_eq_true_eq] at h
    simp only [eraseCell]
    split
    · subst_vars
      split
      · subst_vars
        exact readCells_eq_fill_of_lt fill size _ rest _ h.2 (by omega)
      · simp [readCells, *]
    · simp only [readCells, ih (x + 1) h.2]
      split <;> split <;> first | rfl | omega

/-- A read after a write: the value written at its address, and every other address as before. -/
theorem readCells_writeCells [DecidableEq α] (fill : α) (size : Nat) (cells : List (Nat × α)) (a b : Nat) (v : α)
    (h : cellsWf fill size 0 cells = true) :
    readCells fill (writeCells fill cells a v) b = if b = a then v else readCells fill cells b := by
  unfold writeCells
  split
  · subst_vars; exact readCells_eraseCell v size 0 cells a b h
  · exact readCells_insertCell fill cells a b v

theorem cellsWf_mono [DecidableEq α] (fill : α) {s₁ s₂ l₁ l₂ : Nat} (cells : List (Nat × α)) (hs : s₁ ≤ s₂)
    (hl : l₂ ≤ l₁) (h : cellsWf fill s₁ l₁ cells = true) : cellsWf fill s₂ l₂ cells = true := by
  induction cells generalizing l₁ l₂ with
  | nil => rfl
  | cons c rest ih =>
    obtain ⟨x, w⟩ := c
    simp only [cellsWf, Bool.and_eq_true, decide_eq_true_eq] at h ⊢
    exact ⟨⟨⟨by omega, by omega⟩, h.1.2⟩, ih (le_refl _) h.2⟩

theorem cellsWf_eraseCell [DecidableEq α] (fill : α) (size lo : Nat) (cells : List (Nat × α)) (a : Nat)
    (h : cellsWf fill size lo cells = true) : cellsWf fill size lo (eraseCell a cells) = true := by
  induction cells generalizing lo with
  | nil => rfl
  | cons c rest ih =>
    obtain ⟨x, w⟩ := c
    simp only [cellsWf, Bool.and_eq_true, decide_eq_true_eq] at h
    simp only [eraseCell]
    split
    · exact cellsWf_mono fill rest (le_refl _) (by omega) h.2
    · simp only [cellsWf, Bool.and_eq_true, decide_eq_true_eq]
      exact ⟨h.1, ih _ h.2⟩

theorem cellsWf_insertCell [DecidableEq α] (fill : α) (size lo : Nat) (cells : List (Nat × α)) (a : Nat) (v : α)
    (h : cellsWf fill size lo cells = true) (hlo : lo ≤ a) (ha : a < size) (hv : v ≠ fill) :
    cellsWf fill size lo (insertCell a v cells) = true := by
  induction cells generalizing lo with
  | nil => simp [insertCell, cellsWf, hlo, ha, hv]
  | cons c rest ih =>
    obtain ⟨x, w⟩ := c
    have h' := h
    simp only [cellsWf, Bool.and_eq_true, decide_eq_true_eq] at h
    simp only [insertCell]
    split
    · simp only [cellsWf, Bool.and_eq_true, decide_eq_true_eq]
      simp only [hv, hlo, ha, decide_false, Bool.not_false, true_and, and_true]
      exact ⟨⟨⟨by omega, h.1.1.2⟩, h.1.2⟩, h.2⟩
    · split
      · subst_vars
        simp [cellsWf, hlo, ha, hv, h.2]
      · simp only [cellsWf, Bool.and_eq_true, decide_eq_true_eq]
        exact ⟨h.1, ih _ h.2 (by omega)⟩

theorem cellsWf_writeCells [DecidableEq α] (fill : α) (size : Nat) (cells : List (Nat × α)) (a : Nat) (v : α)
    (h : cellsWf fill size 0 cells = true) (ha : a < size) : cellsWf fill size 0 (writeCells fill cells a v) = true := by
  unfold writeCells
  split
  · exact cellsWf_eraseCell fill size 0 cells a h
  · exact cellsWf_insertCell fill size 0 cells a v h (Nat.zero_le _) ha (by assumption)

/-- A memory that has grown to hold its first `n` cells has the larger of both sizes. -/
theorem grownSize_eq_max (size n : Nat) : grownSize size n = max size n := by
  unfold grownSize; omega

/-- R15, R75: a read of `ROM` answers exactly inside it. -/
theorem romRead_eq_some_iff (m : Rom) (a : Nat) (b : Byte) :
    romRead m a = some b ↔ a < m.size ∧ b = readCells romFill m.cells a := by
  unfold romRead; split <;> simp_all [eq_comm]

theorem romRead_of_lt (m : Rom) (a : Nat) (h : a < m.size) : romRead m a = some (readCells romFill m.cells a) := by
  simp [romRead, h]

theorem romRead_of_le (m : Rom) (a : Nat) (h : m.size ≤ a) : romRead m a = none := by
  simp [romRead, Nat.not_lt.2 h]

/-- R15, R75: a read of `NOTE` answers exactly inside it. -/
theorem noteRead_of_lt (m : NoteMem) (i : Nat) (h : i < m.size) :
    noteRead m i = some (readCells noteFill m.cells i) := by
  simp [noteRead, h]

theorem noteRead_of_le (m : NoteMem) (i : Nat) (h : m.size ≤ i) : noteRead m i = none := by
  simp [noteRead, Nat.not_lt.2 h]

/-- The host's placing of a byte keeps the canonical form, inside the address space of R60. -/
theorem romWf_romWrite (m : Rom) (a : Nat) (v : Byte) (h : romWf m = true) (ha : a < 2 ^ 32) :
    romWf (romWrite m a v) = true := by
  simp only [romWf, Bool.and_eq_true, decide_eq_true_eq] at h ⊢
  refine ⟨by simp only [romWrite, grownSize_eq_max]; omega, ?_⟩
  exact cellsWf_writeCells romFill _ _ a v (cellsWf_mono romFill _ (by simp only [romWrite, grownSize_eq_max]; omega) (le_refl _) h.2)
    (by simp only [romWrite, grownSize_eq_max]; omega)

/-- What a byte of `ROM` reads as after the host has placed one. -/
theorem romRead_romWrite (m : Rom) (a b : Nat) (v : Byte) (h : romWf m = true) :
    romRead (romWrite m a v) b =
      if b = a then some v else if b < max m.size (a + 1) then some (readCells romFill m.cells b) else none := by
  simp only [romWf, Bool.and_eq_true, decide_eq_true_eq] at h
  simp only [romRead, romWrite, grownSize_eq_max, readCells_writeCells romFill m.size m.cells a b v h.2]
  split <;> split <;> first | rfl | omega

/-- The host's placing of bytes keeps the canonical form. -/
theorem romWf_romLoad (m : Rom) (a : Nat) (vs : List Byte) (h : romWf m = true) (ha : a + vs.length ≤ 2 ^ 32) :
    romWf (romLoad m a vs) = true := by
  induction vs generalizing m a with
  | nil => exact h
  | cons v rest ih =>
    simp only [List.length_cons] at ha
    exact ih _ _ (romWf_romWrite m a v h (by omega)) (by omega)

/-- The host's placing of a record keeps the canonical form. -/
theorem noteWf_noteWrite (m : NoteMem) (i : Nat) (r : NoteRec) (h : noteWf m = true) :
    noteWf (noteWrite m i r) = true := by
  simp only [noteWf] at h ⊢
  exact cellsWf_writeCells noteFill _ _ i r (cellsWf_mono noteFill _ (by simp only [noteWrite, grownSize_eq_max]; omega) (le_refl _) h)
    (by simp only [noteWrite, grownSize_eq_max]; omega)

/-- Both memories are canonical after power-on. -/
theorem memory_wf_reset : Memory.wf State.reset = true := by
  have h : Config.romSize.val ≤ 2 ^ 32 := by have := Config.romSize.isLt; omega
  show (decide (Config.romSize.val ≤ 2 ^ 32) && true && true) = true
  simpa using h

end Sys2Proof.Machine
end

