-- ==== Sys2Proof/Laws/State.lean ====
section
/-! SUPPORT. What each named update of the state does to each field, so that no later proof unfolds a record
update. -/
namespace Sys2Proof.Machine

@[simp] theorem dutyWrite_ima (s : State) (d : Byte) :
    (dutyWrite s d).ima = s.ima := rfl

@[simp] theorem dutyWrite_twobit (s : State) (d : Byte) :
    (dutyWrite s d).twobit = s.twobit := rfl

@[simp] theorem dutyWrite_lpc (s : State) (d : Byte) :
    (dutyWrite s d).lpc = s.lpc := rfl

@[simp] theorem dutyWrite_mix (s : State) (d : Byte) :
    (dutyWrite s d).mix = s.mix := rfl

@[simp] theorem dutyWrite_player (s : State) (d : Byte) :
    (dutyWrite s d).player = { s.player with duty := some d } := rfl

@[simp] theorem dutyWrite_rom (s : State) (d : Byte) :
    (dutyWrite s d).rom = s.rom := rfl

@[simp] theorem dutyWrite_note (s : State) (d : Byte) :
    (dutyWrite s d).note = s.note := rfl

@[simp] theorem dutyWrite_params (s : State) (d : Byte) :
    (dutyWrite s d).params = s.params := rfl

@[simp] theorem dutyWrite_port (s : State) (d : Byte) :
    (dutyWrite s d).port = s.port := rfl

@[simp] theorem dutyWrite_res (s : State) (d : Byte) :
    (dutyWrite s d).res = s.res := rfl

@[simp] theorem advanceMark_ima (s : State) :
    (advanceMark s).ima = s.ima := rfl

@[simp] theorem advanceMark_twobit (s : State) :
    (advanceMark s).twobit = s.twobit := rfl

@[simp] theorem advanceMark_lpc (s : State) :
    (advanceMark s).lpc = s.lpc := rfl

@[simp] theorem advanceMark_mix (s : State) :
    (advanceMark s).mix = s.mix := rfl

@[simp] theorem advanceMark_player (s : State) :
    (advanceMark s).player = { s.player with mark := s.player.mark + BitVec.ofNat 16 Config.tickUs } := rfl

@[simp] theorem advanceMark_rom (s : State) :
    (advanceMark s).rom = s.rom := rfl

@[simp] theorem advanceMark_note (s : State) :
    (advanceMark s).note = s.note := rfl

@[simp] theorem advanceMark_params (s : State) :
    (advanceMark s).params = s.params := rfl

@[simp] theorem advanceMark_port (s : State) :
    (advanceMark s).port = s.port := rfl

@[simp] theorem advanceMark_res (s : State) :
    (advanceMark s).res = s.res := rfl

@[simp] theorem withCommand_ima (s : State) (c : Command) :
    (withCommand s c).ima = s.ima := rfl

@[simp] theorem withCommand_twobit (s : State) (c : Command) :
    (withCommand s c).twobit = s.twobit := rfl

@[simp] theorem withCommand_lpc (s : State) (c : Command) :
    (withCommand s c).lpc = s.lpc := rfl

@[simp] theorem withCommand_mix (s : State) (c : Command) :
    (withCommand s c).mix = s.mix := rfl

@[simp] theorem withCommand_player (s : State) (c : Command) :
    (withCommand s c).player = s.player := rfl

@[simp] theorem withCommand_rom (s : State) (c : Command) :
    (withCommand s c).rom = s.rom := rfl

@[simp] theorem withCommand_note (s : State) (c : Command) :
    (withCommand s c).note = s.note := rfl

@[simp] theorem withCommand_params (s : State) (c : Command) :
    (withCommand s c).params = s.params := rfl

@[simp] theorem withCommand_port (s : State) (c : Command) :
    (withCommand s c).port = c :: s.port.tail := rfl

@[simp] theorem withCommand_res (s : State) (c : Command) :
    (withCommand s c).res = s.res := rfl

@[simp] theorem imaRestart_base (P : Params) (u : Ima) :
    (imaRestart P u).base = u.base := rfl

@[simp] theorem imaRestart_len (P : Params) (u : Ima) :
    (imaRestart P u).len = u.len := rfl

@[simp] theorem imaRestart_cur (P : Params) (u : Ima) :
    (imaRestart P u).cur = 0 := rfl

@[simp] theorem imaRestart_nib (P : Params) (u : Ima) :
    (imaRestart P u).nib = 0 := rfl

@[simp] theorem imaRestart_pred (P : Params) (u : Ima) :
    (imaRestart P u).pred = P.imaInitPred := rfl

@[simp] theorem imaRestart_idx (P : Params) (u : Ima) :
    (imaRestart P u).idx = P.imaInitIdx := rfl

@[simp] theorem imaAdvance_base (u : Ima) :
    (imaAdvance u).base = u.base := by unfold imaAdvance; split <;> rfl

@[simp] theorem imaAdvance_len (u : Ima) :
    (imaAdvance u).len = u.len := by unfold imaAdvance; split <;> rfl

@[simp] theorem imaAdvance_pred (u : Ima) :
    (imaAdvance u).pred = u.pred := by unfold imaAdvance; split <;> rfl

@[simp] theorem imaAdvance_idx (u : Ima) :
    (imaAdvance u).idx = u.idx := by unfold imaAdvance; split <;> rfl

@[simp] theorem imaDecode_cur (P : Params) (c : BitVec 4) (u : Ima) :
    (imaDecode P c u).cur = (imaAdvance u).cur := rfl

@[simp] theorem imaDecode_nib (P : Params) (c : BitVec 4) (u : Ima) :
    (imaDecode P c u).nib = (imaAdvance u).nib := rfl

@[simp] theorem imaDecode_pred (P : Params) (c : BitVec 4) (u : Ima) :
    (imaDecode P c u).pred = BitVec.ofInt 16 (clamp (u.pred.toInt + imaDiff (imaStepAt P u.idx) c) (-32768) 32767) := rfl

@[simp] theorem imaDecode_idx (P : Params) (c : BitVec 4) (u : Ima) :
    (imaDecode P c u).idx = BitVec.ofInt 7 (clamp (u.idx.toNat + imaAdjAt P c) 0 Config.imaIdxMax) := rfl

@[simp] theorem imaDecode_base (P : Params) (c : BitVec 4) (u : Ima) :
    (imaDecode P c u).base = u.base := imaAdvance_base u

@[simp] theorem imaDecode_len (P : Params) (c : BitVec 4) (u : Ima) :
    (imaDecode P c u).len = u.len := imaAdvance_len u

@[simp] theorem twobitRestart_base (u : Twobit) :
    (twobitRestart u).base = u.base := rfl

@[simp] theorem twobitRestart_len (u : Twobit) :
    (twobitRestart u).len = u.len := rfl

@[simp] theorem twobitRestart_cur (u : Twobit) :
    (twobitRestart u).cur = 0 := rfl

@[simp] theorem twobitRestart_pos (u : Twobit) :
    (twobitRestart u).pos = 0 := rfl

@[simp] theorem twobitRestart_pred (u : Twobit) :
    (twobitRestart u).pred = 128 := rfl

@[simp] theorem twobitRestart_idx (u : Twobit) :
    (twobitRestart u).idx = 0 := rfl

@[simp] theorem twobitAdvance_base (u : Twobit) :
    (twobitAdvance u).base = u.base := by unfold twobitAdvance; split <;> rfl

@[simp] theorem twobitAdvance_len (u : Twobit) :
    (twobitAdvance u).len = u.len := by unfold twobitAdvance; split <;> rfl

@[simp] theorem twobitAdvance_pred (u : Twobit) :
    (twobitAdvance u).pred = u.pred := by unfold twobitAdvance; split <;> rfl

@[simp] theorem twobitAdvance_idx (u : Twobit) :
    (twobitAdvance u).idx = u.idx := by unfold twobitAdvance; split <;> rfl

@[simp] theorem twobitDecode_cur (P : Params) (c : BitVec 2) (u : Twobit) :
    (twobitDecode P c u).cur = (twobitAdvance u).cur := rfl

@[simp] theorem twobitDecode_pos (P : Params) (c : BitVec 2) (u : Twobit) :
    (twobitDecode P c u).pos = (twobitAdvance u).pos := rfl

@[simp] theorem twobitDecode_pred (P : Params) (c : BitVec 2) (u : Twobit) :
    (twobitDecode P c u).pred = BitVec.ofInt 8 (clamp (u.pred.toNat + twobitDelta (twobitStepAt P u.idx) c) 0 255) := rfl

@[simp] theorem twobitDecode_idx (P : Params) (c : BitVec 2) (u : Twobit) :
    (twobitDecode P c u).idx = BitVec.ofInt 4 (clamp (u.idx.toNat + twobitAdjAt c) 0 Config.twobitIdxMax) := rfl

@[simp] theorem twobitDecode_base (P : Params) (c : BitVec 2) (u : Twobit) :
    (twobitDecode P c u).base = u.base := twobitAdvance_base u

@[simp] theorem twobitDecode_len (P : Params) (c : BitVec 2) (u : Twobit) :
    (twobitDecode P c u).len = u.len := twobitAdvance_len u

@[simp] theorem lpcSeek_base (u : Lpc) (q : Nat) :
    (lpcSeek u q).base = u.base := rfl

@[simp] theorem lpcSeek_len (u : Lpc) (q : Nat) :
    (lpcSeek u q).len = u.len := rfl

@[simp] theorem lpcSeek_mode (u : Lpc) (q : Nat) :
    (lpcSeek u q).mode = u.mode := rfl

@[simp] theorem lpcSeek_cur (u : Lpc) (q : Nat) :
    (lpcSeek u q).cur = BitVec.ofNat 32 (q / 8) := rfl

@[simp] theorem lpcSeek_bit (u : Lpc) (q : Nat) :
    (lpcSeek u q).bit = BitVec.ofNat 3 (q % 8) := rfl

@[simp] theorem lpcSeek_fpos (u : Lpc) (q : Nat) :
    (lpcSeek u q).fpos = u.fpos := rfl

@[simp] theorem lpcSeek_energy (u : Lpc) (q : Nat) :
    (lpcSeek u q).energy = u.energy := rfl

@[simp] theorem lpcSeek_period (u : Lpc) (q : Nat) :
    (lpcSeek u q).period = u.period := rfl

@[simp] theorem lpcSeek_fin (u : Lpc) (q : Nat) :
    (lpcSeek u q).fin = u.fin := rfl

@[simp] theorem lpcSeek_k (u : Lpc) (q : Nat) :
    (lpcSeek u q).k = u.k := rfl

@[simp] theorem lpcSeek_x (u : Lpc) (q : Nat) :
    (lpcSeek u q).x = u.x := rfl

@[simp] theorem lpcSeek_ppos (u : Lpc) (q : Nat) :
    (lpcSeek u q).ppos = u.ppos := rfl

@[simp] theorem lpcSeek_lfsr (u : Lpc) (q : Nat) :
    (lpcSeek u q).lfsr = u.lfsr := rfl

@[simp] theorem lpcRestart_base (u : Lpc) :
    (lpcRestart u).base = u.base := rfl

@[simp] theorem lpcRestart_len (u : Lpc) :
    (lpcRestart u).len = u.len := rfl

@[simp] theorem lpcRestart_mode (u : Lpc) :
    (lpcRestart u).mode = u.mode := rfl

@[simp] theorem lpcRestart_cur (u : Lpc) :
    (lpcRestart u).cur = 0 := rfl

@[simp] theorem lpcRestart_bit (u : Lpc) :
    (lpcRestart u).bit = 0 := rfl

@[simp] theorem lpcRestart_fpos (u : Lpc) :
    (lpcRestart u).fpos = 0 := rfl

@[simp] theorem lpcRestart_energy (u : Lpc) :
    (lpcRestart u).energy = 0 := rfl

@[simp] theorem lpcRestart_period (u : Lpc) :
    (lpcRestart u).period = 0 := rfl

@[simp] theorem lpcRestart_fin (u : Lpc) :
    (lpcRestart u).fin = false := rfl

@[simp] theorem lpcRestart_k (u : Lpc) :
    (lpcRestart u).k = LpcK.zero := rfl

@[simp] theorem lpcRestart_x (u : Lpc) :
    (lpcRestart u).x = #v[0, 0, 0, 0, 0, 0, 0, 0, 0, 0] := rfl

@[simp] theorem lpcRestart_ppos (u : Lpc) :
    (lpcRestart u).ppos = 0 := rfl

@[simp] theorem lpcRestart_lfsr (u : Lpc) :
    (lpcRestart u).lfsr = Config.lfsrSeed := rfl

@[simp] theorem lpcApply_base (P : Params) (f : Frame) (u : Lpc) :
    (lpcApply P f u).base = u.base := by cases f <;> rfl

@[simp] theorem lpcApply_len (P : Params) (f : Frame) (u : Lpc) :
    (lpcApply P f u).len = u.len := by cases f <;> rfl

@[simp] theorem lpcApply_mode (P : Params) (f : Frame) (u : Lpc) :
    (lpcApply P f u).mode = u.mode := by cases f <;> rfl

@[simp] theorem lpcApply_cur (P : Params) (f : Frame) (u : Lpc) :
    (lpcApply P f u).cur = u.cur := by cases f <;> rfl

@[simp] theorem lpcApply_bit (P : Params) (f : Frame) (u : Lpc) :
    (lpcApply P f u).bit = u.bit := by cases f <;> rfl

@[simp] theorem lpcApply_fpos (P : Params) (f : Frame) (u : Lpc) :
    (lpcApply P f u).fpos = u.fpos := by cases f <;> rfl

@[simp] theorem lpcApply_x (P : Params) (f : Frame) (u : Lpc) :
    (lpcApply P f u).x = u.x := by cases f <;> rfl

@[simp] theorem lpcApply_ppos (P : Params) (f : Frame) (u : Lpc) :
    (lpcApply P f u).ppos = u.ppos := by cases f <;> rfl

@[simp] theorem lpcApply_lfsr (P : Params) (f : Frame) (u : Lpc) :
    (lpcApply P f u).lfsr = u.lfsr := by cases f <;> rfl

@[simp] theorem lpcExcite_base (P : Params) (u : Lpc) :
    ((lpcExcite P u).1).base = u.base := by unfold lpcExcite; split <;> rfl

@[simp] theorem lpcExcite_len (P : Params) (u : Lpc) :
    ((lpcExcite P u).1).len = u.len := by unfold lpcExcite; split <;> rfl

@[simp] theorem lpcExcite_mode (P : Params) (u : Lpc) :
    ((lpcExcite P u).1).mode = u.mode := by unfold lpcExcite; split <;> rfl

@[simp] theorem lpcExcite_cur (P : Params) (u : Lpc) :
    ((lpcExcite P u).1).cur = u.cur := by unfold lpcExcite; split <;> rfl

@[simp] theorem lpcExcite_bit (P : Params) (u : Lpc) :
    ((lpcExcite P u).1).bit = u.bit := by unfold lpcExcite; split <;> rfl

@[simp] theorem lpcExcite_fpos (P : Params) (u : Lpc) :
    ((lpcExcite P u).1).fpos = u.fpos := by unfold lpcExcite; split <;> rfl

@[simp] theorem lpcExcite_energy (P : Params) (u : Lpc) :
    ((lpcExcite P u).1).energy = u.energy := by unfold lpcExcite; split <;> rfl

@[simp] theorem lpcExcite_period (P : Params) (u : Lpc) :
    ((lpcExcite P u).1).period = u.period := by unfold lpcExcite; split <;> rfl

@[simp] theorem lpcExcite_fin (P : Params) (u : Lpc) :
    ((lpcExcite P u).1).fin = u.fin := by unfold lpcExcite; split <;> rfl

@[simp] theorem lpcExcite_k (P : Params) (u : Lpc) :
    ((lpcExcite P u).1).k = u.k := by unfold lpcExcite; split <;> rfl

@[simp] theorem lpcExcite_x (P : Params) (u : Lpc) :
    ((lpcExcite P u).1).x = u.x := by unfold lpcExcite; split <;> rfl

@[simp] theorem lpcSample_base (P : Params) (u : Lpc) :
    (lpcSample P u).1.base = u.base := lpcExcite_base P u

@[simp] theorem lpcSample_len (P : Params) (u : Lpc) :
    (lpcSample P u).1.len = u.len := lpcExcite_len P u

@[simp] theorem lpcSample_mode (P : Params) (u : Lpc) :
    (lpcSample P u).1.mode = u.mode := lpcExcite_mode P u

@[simp] theorem lpcSample_cur (P : Params) (u : Lpc) :
    (lpcSample P u).1.cur = u.cur := lpcExcite_cur P u

@[simp] theorem lpcSample_bit (P : Params) (u : Lpc) :
    (lpcSample P u).1.bit = u.bit := lpcExcite_bit P u

@[simp] theorem lpcSample_energy (P : Params) (u : Lpc) :
    (lpcSample P u).1.energy = u.energy := lpcExcite_energy P u

@[simp] theorem lpcSample_period (P : Params) (u : Lpc) :
    (lpcSample P u).1.period = u.period := lpcExcite_period P u

@[simp] theorem lpcSample_fin (P : Params) (u : Lpc) :
    (lpcSample P u).1.fin = u.fin := lpcExcite_fin P u

@[simp] theorem lpcSample_k (P : Params) (u : Lpc) :
    (lpcSample P u).1.k = u.k := lpcExcite_k P u

@[simp] theorem lpcSample_ppos (P : Params) (u : Lpc) :
    (lpcSample P u).1.ppos = (lpcExcite P u).1.ppos := rfl

@[simp] theorem lpcSample_lfsr (P : Params) (u : Lpc) :
    (lpcSample P u).1.lfsr = (lpcExcite P u).1.lfsr := rfl

@[simp] theorem boundTrack_seqBase (t : Track) (b n p d : Word) :
    (boundTrack t b n p d).seqBase = b := rfl

@[simp] theorem boundTrack_seqLen (t : Track) (b n p d : Word) :
    (boundTrack t b n p d).seqLen = n := rfl

@[simp] theorem boundTrack_index (t : Track) (b n p d : Word) :
    (boundTrack t b n p d).index = 0 := rfl

@[simp] theorem boundTrack_delayLeftUs (t : Track) (b n p d : Word) :
    (boundTrack t b n p d).delayLeftUs = d := rfl

@[simp] theorem boundTrack_durationLeftUs (t : Track) (b n p d : Word) :
    (boundTrack t b n p d).durationLeftUs = t.durationLeftUs := rfl

@[simp] theorem boundTrack_pitchShift (t : Track) (b n p d : Word) :
    (boundTrack t b n p d).pitchShift = storedShift p := rfl

@[simp] theorem boundTrack_armed (t : Track) (b n p d : Word) :
    (boundTrack t b n p d).armed = (n != 0) := rfl

@[simp] theorem silenceAll_voice (m : Mix) (k : Fin 8) :
    (silenceAll m).voice[k] = { m.voice[k] with active := false } := by simp [silenceAll]

@[simp] theorem silenceAll_track (m : Mix) (k : Fin 8) :
    (silenceAll m).track[k] = { m.track[k] with durationLeftUs := 0 } := by simp [silenceAll]

@[simp] theorem advanceVoices_voice (m : Mix) (k : Fin 8) :
    (advanceVoices m).voice[k] = advanceVoice m.voice[k] := by simp [advanceVoices]

@[simp] theorem advanceVoices_track (m : Mix) :
    (advanceVoices m).track = m.track := rfl

@[simp] theorem mixRestart_voice (k : Fin 8) :
    mixRestart.voice[k] = ⟨0, 0, false, 0⟩ := by simp [mixRestart]

@[simp] theorem mixRestart_track (k : Fin 8) :
    mixRestart.track[k] = ⟨0, 0, 0, 0, 0, 1, false⟩ := by simp [mixRestart]

end Sys2Proof.Machine
end

