-- ==== Sys2Proof/Laws/Units.lean ====
section
/-! SUPPORT. What each shared operation can do: if it answers, then one of these cases holds. -/
namespace Sys2Proof.Machine

/-! ## The end of a command -/

@[simp] theorem finish_ok (s : State) (v : Word) : finish (.ok (s, v)) = .next { s with res := v } := rfl

@[simp] theorem finish_error (e : Refusal) : finish (.error e) = .refused e := rfl

theorem finish_eq_next {r : Except Refusal (State × Word)} {t : State} :
    finish r = .next t ↔ ∃ s v, r = .ok (s, v) ∧ t = { s with res := v } := by
  rcases r with e | ⟨s, v⟩
  · simp [finish]
  · simp [finish, eq_comm]

theorem finish_eq_refused {r : Except Refusal (State × Word)} {e : Refusal} :
    finish r = .refused e ↔ r = .error e := by
  rcases r with e' | ⟨s, v⟩ <;> simp [finish]

/-- The end of a command that pulls from `IMA`. -/
theorem imaFinish_eq_next {s t : State} {r : Except Refusal (Ima × Sample)} :
    imaFinish s r = .next t ↔ ∃ u v, r = .ok (u, v) ∧ t = { s with ima := u, res := resSample v } := by
  rcases r with e | ⟨u, v⟩ <;> simp [imaFinish, eq_comm]

/-- The end of a command that pulls from `TWOBIT`. -/
theorem twobitFinish_eq_next {s t : State} {r : Except Refusal (Twobit × Sample)} :
    twobitFinish s r = .next t ↔ ∃ u v, r = .ok (u, v) ∧ t = { s with twobit := u, res := resSample v } := by
  rcases r with e | ⟨u, v⟩ <;> simp [twobitFinish, eq_comm]

/-- The end of a command that pulls from `LPC`. -/
theorem lpcFinish_eq_next {s t : State} {r : Except Refusal (Lpc × Sample)} :
    lpcFinish s r = .next t ↔ ∃ u v, r = .ok (u, v) ∧ t = { s with lpc := u, res := resSample v } := by
  rcases r with e | ⟨u, v⟩ <;> simp [lpcFinish, eq_comm]

/-- The end of a mixer command. -/
theorem mixFinish_eq_next {s t : State} {r : Except Refusal (Mix × Word)} :
    mixFinish s r = .next t ↔ ∃ m v, r = .ok (m, v) ∧ t = { s with mix := m, res := v } := by
  rcases r with e | ⟨m, v⟩ <;> simp [mixFinish, eq_comm]

/-- A frame by itself changes the unit as the frame decoder does, and nothing else. -/
theorem lpcFrame_eq_next {mode : BitVec 1} {f : Frame} {s t : State} :
    lpcFrame mode f s = .next t ↔
      ∃ u, lpcDecodeFrame s.params s.rom (frameBits mode f) s.lpc = .ok u ∧ t = { s with lpc := u } := by
  unfold lpcFrame
  cases lpcDecodeFrame s.params s.rom (frameBits mode f) s.lpc <;> simp [eq_comm]

theorem except_map_eq_ok {ε α β : Type} {x : Except ε α} {f : α → β} {b : β} :
    x.map f = .ok b ↔ ∃ a, x = .ok a ∧ f a = b := by
  cases x <;> simp [Except.map]

theorem except_map_eq_error {ε α β : Type} {x : Except ε α} {f : α → β} {e : ε} :
    x.map f = .error e ↔ x = .error e := by
  cases x <;> simp [Except.map]

theorem bne_zero {w : Nat} (v : BitVec w) : (v != 0) = decide (v ≠ 0) := by
  rw [decide_not]; rfl

/-! ## The ADPCM decoders -/

theorem imaHasNext_iff (u : Ima) : imaHasNext u = true ↔ 2 * u.cur.toNat + u.nib.toNat < u.len.toNat := by
  simp [imaHasNext]

theorem twobitHasNext_iff (u : Twobit) : twobitHasNext u = true ↔ 4 * u.cur.toNat + u.pos.toNat < u.len.toNat := by
  simp [twobitHasNext]

theorem imaPull_ok {P : Params} {rom : Rom} {pick : Byte → BitVec 4} {u u' : Ima} {v : Sample}
    (h : imaPull P rom pick u = .ok (u', v)) :
    (imaHasNext u = false ∧ u' = u ∧ v = 0) ∨
    (imaHasNext u = true ∧ imaAddr u < rom.size ∧
      ∃ b, romRead rom (imaAddr u) = some b ∧ u' = imaDecode P (pick b) u ∧ v = u'.pred) := by
  unfold imaPull at h
  split at h
  · split at h
    · rename_i hn _ b hb
      simp only [Except.ok.injEq, Prod.mk.injEq] at h
      obtain ⟨rfl, rfl⟩ := h
      exact .inr ⟨hn, ((romRead_eq_some_iff _ _ _).1 hb).1, b, hb, rfl, rfl⟩
    · cases h
  · simp only [Except.ok.injEq, Prod.mk.injEq] at h
    obtain ⟨rfl, rfl⟩ := h
    exact .inl ⟨Bool.eq_false_iff.2 (by assumption), rfl, rfl⟩

theorem imaPull_error {P : Params} {rom : Rom} {pick : Byte → BitVec 4} {u : Ima} {e : Refusal}
    (h : imaPull P rom pick u = .error e) :
    imaHasNext u = true ∧ rom.size ≤ imaAddr u ∧ e = .streamOverrun .ima (imaAddr u) := by
  unfold imaPull at h
  split at h
  · split at h
    · cases h
    · rename_i hn _ hb
      simp only [Except.error.injEq] at h
      refine ⟨hn, ?_, h.symm⟩
      unfold romRead at hb
      split at hb <;> [cases hb; omega]
  · cases h

theorem imaPull_at_end (P : Params) (rom : Rom) (pick : Byte → BitVec 4) (u : Ima) (h : imaHasNext u = false) :
    imaPull P rom pick u = .ok (u, 0) := by
  simp [imaPull, h]

theorem imaPull_decodes (P : Params) (rom : Rom) (pick : Byte → BitVec 4) (u : Ima) (h : imaHasNext u = true)
    (hr : imaAddr u < rom.size) :
    imaPull P rom pick u = .ok (imaDecode P (pick (readCells romFill rom.cells (imaAddr u))) u,
      (imaDecode P (pick (readCells romFill rom.cells (imaAddr u))) u).pred) := by
  simp [imaPull, h, romRead_of_lt _ _ hr]

theorem imaPull_overruns (P : Params) (rom : Rom) (pick : Byte → BitVec 4) (u : Ima) (h : imaHasNext u = true)
    (hr : rom.size ≤ imaAddr u) : imaPull P rom pick u = .error (.streamOverrun .ima (imaAddr u)) := by
  simp [imaPull, h, romRead_of_le _ _ hr]

theorem toNat_one32 : (1 : BitVec 32).toNat = 1 := rfl

theorem toNat_zero1 : (0 : BitVec 1).toNat = 0 := rfl

theorem toNat_zero2 : (0 : BitVec 2).toNat = 0 := rfl

theorem toNat_one2 : (1 : BitVec 2).toNat = 1 := rfl

theorem toNat_three2 : (3 : BitVec 2).toNat = 3 := rfl

/-- R134: the position counts the nibbles consumed. -/
theorem imaAdvance_position (u : Ima) (h : imaHasNext u = true) :
    2 * (imaAdvance u).cur.toNat + (imaAdvance u).nib.toNat = 2 * u.cur.toNat + u.nib.toNat + 1 := by
  rw [imaHasNext_iff] at h
  have := u.len.isLt
  unfold imaAdvance
  split
  · rename_i h0
    simp [h0]
  · rename_i h0
    have h1 : u.nib.toNat = 1 := by
      rcases BitVec.eq_zero_or_eq_one u.nib with h' | h'
      · exact absurd h' h0
      · rw [h']; rfl
    simp only [BitVec.toNat_add, h1, toNat_one32, toNat_zero1]
    omega

theorem twobitPull_ok {P : Params} {rom : Rom} {pick : Byte → BitVec 2} {u u' : Twobit} {v : Sample}
    (h : twobitPull P rom pick u = .ok (u', v)) :
    (twobitHasNext u = false ∧ u' = u ∧ v = 0) ∨
    (twobitHasNext u = true ∧ twobitAddr u < rom.size ∧
      ∃ b, romRead rom (twobitAddr u) = some b ∧ u' = twobitDecode P (pick b) u ∧ v = twobitSample u') := by
  unfold twobitPull at h
  split at h
  · split at h
    · rename_i hn _ b hb
      simp only [Except.ok.injEq, Prod.mk.injEq] at h
      obtain ⟨rfl, rfl⟩ := h
      exact .inr ⟨hn, ((romRead_eq_some_iff _ _ _).1 hb).1, b, hb, rfl, rfl⟩
    · cases h
  · simp only [Except.ok.injEq, Prod.mk.injEq] at h
    obtain ⟨rfl, rfl⟩ := h
    exact .inl ⟨Bool.eq_false_iff.2 (by assumption), rfl, rfl⟩

theorem twobitPull_error {P : Params} {rom : Rom} {pick : Byte → BitVec 2} {u : Twobit} {e : Refusal}
    (h : twobitPull P rom pick u = .error e) :
    twobitHasNext u = true ∧ rom.size ≤ twobitAddr u ∧ e = .streamOverrun .twobit (twobitAddr u) := by
  unfold twobitPull at h
  split at h
  · split at h
    · cases h
    · rename_i hn _ hb
      simp only [Except.error.injEq] at h
      refine ⟨hn, ?_, h.symm⟩
      unfold romRead at hb
      split at hb <;> [cases hb; omega]
  · cases h

theorem twobitPull_at_end (P : Params) (rom : Rom) (pick : Byte → BitVec 2) (u : Twobit)
    (h : twobitHasNext u = false) : twobitPull P rom pick u = .ok (u, 0) := by
  simp [twobitPull, h]

theorem twobitPull_decodes (P : Params) (rom : Rom) (pick : Byte → BitVec 2) (u : Twobit)
    (h : twobitHasNext u = true) (hr : twobitAddr u < rom.size) :
    twobitPull P rom pick u = .ok (twobitDecode P (pick (readCells romFill rom.cells (twobitAddr u))) u,
      twobitSample (twobitDecode P (pick (readCells romFill rom.cells (twobitAddr u))) u)) := by
  simp [twobitPull, h, romRead_of_lt _ _ hr]

theorem twobitPull_overruns (P : Params) (rom : Rom) (pick : Byte → BitVec 2) (u : Twobit)
    (h : twobitHasNext u = true) (hr : rom.size ≤ twobitAddr u) :
    twobitPull P rom pick u = .error (.streamOverrun .twobit (twobitAddr u)) := by
  simp [twobitPull, h, romRead_of_le _ _ hr]

/-- R124: the position counts the codes consumed. -/
theorem twobitAdvance_position (u : Twobit) (h : twobitHasNext u = true) :
    4 * (twobitAdvance u).cur.toNat + (twobitAdvance u).pos.toNat = 4 * u.cur.toNat + u.pos.toNat + 1 := by
  rw [twobitHasNext_iff] at h
  have := u.len.isLt
  have hp := u.pos.isLt
  unfold twobitAdvance
  split
  · rename_i h3
    simp only [h3, BitVec.toNat_add, toNat_one32, toNat_three2, toNat_zero2] at h ⊢
    omega
  · rename_i h3
    have h3' : u.pos.toNat ≠ 3 := fun e => h3 (BitVec.eq_of_toNat_eq e)
    simp only [BitVec.toNat_add, toNat_one2]
    omega

/-! ## The LPC synthesizer -/

theorem lpcDecodeFrame_ok {P : Params} {rom : Rom} {given : List Bool} {u v : Lpc}
    (h : lpcDecodeFrame P rom given u = .ok v) :
    ∃ f q, parseFrame u.mode (lpcVoicedPitch P u.mode) (overlay given (lpcPos u) (lpcBit rom u)) (lpcPos u) = .ok (f, q)
      ∧ v = lpcApply P f (lpcSeek u q) := by
  unfold lpcDecodeFrame at h
  split at h
  · rename_i f q hp
    simp only [Except.ok.injEq] at h
    exact ⟨f, q, hp, h.symm⟩
  · cases h

theorem lpcBit_isSome_iff (rom : Rom) (u : Lpc) (q : Nat) :
    (lpcBit rom u q).isSome ↔ q / 8 < u.len.toNat ∧ u.base.toNat + q / 8 < rom.size := by
  unfold lpcBit
  split
  · rename_i h
    unfold romRead
    split <;> simp_all
  · simp_all

/-- R142: a read bit is the one R89 names. -/
theorem lpcBit_of_lt (rom : Rom) (u : Lpc) (q : Nat) (h : q / 8 < u.len.toNat)
    (hr : u.base.toNat + q / 8 < rom.size) :
    lpcBit rom u q = some ((readCells romFill rom.cells (u.base.toNat + q / 8)).getLsbD (q % 8)) := by
  simp [lpcBit, h, romRead_of_lt _ _ hr]

theorem overlay_isSome (given : List Bool) (q0 : Nat) (src : BitSource) (q : Nat) :
    (overlay given q0 src q).isSome = (src q).isSome := by
  simp [overlay]

theorem overlay_nil (q0 : Nat) (src : BitSource) : overlay [] q0 src = src := by
  funext q; simp [overlay]

/-- The given bits stand at the position they are laid over, where the stream's own may be read. -/
theorem overlay_stands (given : List Bool) (q0 : Nat) (src : BitSource)
    (h : ∀ j, j < given.length → (src (q0 + j)).isSome) : Stands (overlay given q0 src) q0 given := by
  intro j hj
  obtain ⟨b, hb⟩ := Option.isSome_iff_exists.1 (h j hj)
  simp [overlay, hb, List.getD_eq_getElem?_getD, hj]

/-- A bit may be read where it lies in the window and in `ROM` (R142). -/
theorem lpcBit_isSome (s : State) (q : Nat) : (lpcBit s.rom s.lpc q).isSome ↔ LpcBitReadable s q :=
  lpcBit_isSome_iff s.rom s.lpc q

theorem lpcBitsReadable_iff (s : State) (n : Nat) :
    LpcBitsReadable s n ↔ ∀ j, j < n → (lpcBit s.rom s.lpc (lpcPos s.lpc + j)).isSome :=
  forall₂_congr fun _ _ => (lpcBit_isSome s _).symm

/-- Bits stand at the cursor where the bit reader finds them there (R89, R142). -/
theorem lpcBitsStand_iff (s : State) (bits : List Bool) :
    LpcBitsStand s bits ↔ Stands (lpcBit s.rom s.lpc) (lpcPos s.lpc) bits := by
  refine forall₂_congr fun j h => ⟨fun ⟨⟨h1, h2⟩, h3⟩ => ?_, fun hs => ?_⟩
  · exact (lpcBit_of_lt _ _ _ h1 h2).trans (congrArg some h3)
  · have hr : LpcBitReadable s (bitCursor s.lpc + j) := (lpcBit_isSome s _).1 (Option.isSome_of_mem hs)
    exact ⟨hr, Option.some.inj ((lpcBit_of_lt _ _ _ hr.1 hr.2).symm.trans hs)⟩

/-- Bits that stand at the cursor may be read. -/
theorem LpcBitsStand.readable {s : State} {bits : List Bool} (h : LpcBitsStand s bits) :
    LpcBitsReadable s bits.length := fun j hj => (h j hj).1

/-- R141, R93: the period looked up by a pitch index. -/
theorem lpcPeriodAt_eq (s : State) (p : BitVec 6) : lpcPeriodAt s.params s.lpc.mode p = lookedUpPeriod s p := by
  unfold lpcPeriodAt lookedUpPeriod
  simp only [BitVec.toNat_setWidth]

theorem lpcVoicedPitch_eq (s : State) :
    lpcVoicedPitch s.params s.lpc.mode = fun p => decide (lookedUpPeriod s p ≠ 0) := by
  funext p
  rw [lpcVoicedPitch, lpcPeriodAt_eq, bne_zero]

/-- A cursor behind bits that may be read is the stream bit it was moved to. -/
theorem bitCursor_lpcSeek (s : State) (n : Nat) (hn : 0 < n) (h : LpcBitsReadable s n) :
    bitCursor (lpcSeek s.lpc (lpcPos s.lpc + n)) = bitCursor s.lpc + n := by
  have hl := (h (n - 1) (by omega)).1
  have := s.lpc.len.isLt
  simp only [bitCursor, lpcPos, lpcSeek_cur, lpcSeek_bit, BitVec.toNat_ofNat] at hl ⊢
  omega

/-- Where a frame decode is refused, it is at the first bit of the frame that may not be read (R142, R205). -/
theorem lpcDecodeFrame_refused {s : State} {given : List Bool} {e : Refusal}
    (h : lpcDecodeFrame s.params s.rom given s.lpc = .error e) :
    ∃ n, n < 50 ∧ LpcBitsReadable s n ∧ ¬ LpcBitReadable s (bitCursor s.lpc + n) ∧
      e = .streamOverrun .lpc (s.lpc.base.toNat + (bitCursor s.lpc + n) / 8) := by
  unfold lpcDecodeFrame at h
  split at h
  · cases h
  · rename_i q hq
    cases h
    obtain ⟨⟨hle, hp⟩, hn, hlt⟩ := parseFrame_error hq
    obtain ⟨n, rfl⟩ := Nat.exists_eq_add_of_le hle
    refine ⟨n, by omega, fun j hj => ?_, fun hr => ?_, rfl⟩
    · have := hp (lpcPos s.lpc + j) (by omega) (by omega)
      rwa [overlay_isSome, lpcBit_isSome] at this
    · rw [← lpcBit_isSome, ← overlay_isSome given (lpcPos s.lpc)] at hr
      change (overlay given (lpcPos s.lpc) (lpcBit s.rom s.lpc) (lpcPos s.lpc + n)).isSome at hr
      rw [hn] at hr
      cases hr

/-- The cursor after a decoded frame is a stream bit number inside the window. -/
theorem lpcDecodeFrame_position {P : Params} {rom : Rom} {given : List Bool} {u v : Lpc}
    (h : lpcDecodeFrame P rom given u = .ok v) (hp : lpcPos u ≤ 8 * u.len.toNat) : lpcPos v ≤ 8 * u.len.toNat := by
  obtain ⟨f, q, hf, rfl⟩ := lpcDecodeFrame_ok h
  obtain ⟨hle, hsome⟩ := parseFrame_passed hf
  have hq : q ≤ 8 * u.len.toNat := by
    by_contra hc
    have h1 := hsome (q - 1) (by omega) (by omega)
    rw [overlay_isSome, lpcBit_isSome_iff] at h1
    omega
  have := u.len.isLt
  simp only [lpcPos, lpcApply_cur, lpcApply_bit, lpcSeek_cur, lpcSeek_bit, BitVec.toNat_ofNat]
  omega

theorem lpcNextPull_ok {P : Params} {rom : Rom} {u u' : Lpc} {v : Sample} (h : lpcNextPull P rom u = .ok (u', v)) :
    (u.fin = true ∧ u' = u ∧ v = 0) ∨
    (u.fin = false ∧ u.fpos = 0 ∧ ∃ w, lpcDecodeFrame P rom [] u = .ok w ∧
      ((w.fin = true ∧ u' = w ∧ v = 0) ∨ (w.fin = false ∧ (u', v) = lpcSample P w))) ∨
    (u.fin = false ∧ u.fpos ≠ 0 ∧ (u', v) = lpcSample P u) := by
  unfold lpcNextPull at h
  split at h
  · simp only [Except.ok.injEq, Prod.mk.injEq] at h
    exact .inl ⟨by assumption, h.1.symm, h.2.symm⟩
  · rename_i hf
    have hf : u.fin = false := by simpa using hf
    split at h
    · split at h
      · rename_i hz _ w hw
        split at h
        · simp only [Except.ok.injEq, Prod.mk.injEq] at h
          exact .inr (.inl ⟨hf, hz, w, hw, .inl ⟨by assumption, h.1.symm, h.2.symm⟩⟩)
        · simp only [Except.ok.injEq] at h
          exact .inr (.inl ⟨hf, hz, w, hw, .inr ⟨Bool.eq_false_iff.2 (by assumption), h.symm⟩⟩)
      · cases h
    · simp only [Except.ok.injEq] at h
      exact .inr (.inr ⟨hf, by assumption, h.symm⟩)

theorem lpcNextPull_error {P : Params} {rom : Rom} {u : Lpc} {e : Refusal} (h : lpcNextPull P rom u = .error e) :
    u.fin = false ∧ u.fpos = 0 ∧ lpcDecodeFrame P rom [] u = .error e := by
  unfold lpcNextPull at h
  split at h
  · cases h
  · rename_i hf
    split at h
    · split at h
      · split at h <;> cases h
      · rename_i hz _ e' he
        simp only [Except.error.injEq] at h
        exact ⟨by simpa using hf, hz, h ▸ he⟩
    · cases h

theorem lpcSample_fpos (P : Params) (u : Lpc) :
    (lpcSample P u).1.fpos = BitVec.ofNat 8 ((u.fpos.toNat + 1) % Config.frameSamples) := rfl

theorem lpcSample_x (P : Params) (u : Lpc) :
    (lpcSample P u).1.x = (lattice P u.k u.x (lpcExcite P u).2).1 := rfl

theorem lpcSample_result (P : Params) (u : Lpc) :
    (lpcSample P u).2 = scaleOutput (lattice P u.k u.x (lpcExcite P u).2).2 := rfl

/-- R157: `x[0]` takes the clamped output. -/
theorem lattice_x0 (P : Params) (k : LpcK) (x : Vector Sample 10) (u10 : Sample) :
    (lattice P k x u10).1[0] = (lattice P k x u10).2 := rfl

theorem lattice_output (P : Params) (k : LpcK) (x : Vector Sample 10) (u10 : Sample) :
    (lattice P k x u10).2 = clampOutput (forwardPass P k x u10).u0 := rfl

/-! ## The mixer -/

theorem mixNoteRead_of_lt (note : NoteMem) (i : Nat) (h : i < note.size) :
    mixNoteRead note i = .ok (readCells noteFill note.cells i) := by
  simp [mixNoteRead, noteRead_of_lt _ _ h]

theorem mixNoteRead_of_le (note : NoteMem) (i : Nat) (h : note.size ≤ i) :
    mixNoteRead note i = .error (.streamOverrun .mix i) := by
  simp [mixNoteRead, noteRead_of_le _ _ h]

theorem mixNoteRead_error {note : NoteMem} {i : Nat} {e : Refusal} (h : mixNoteRead note i = .error e) :
    e = .streamOverrun .mix i := by
  unfold mixNoteRead at h
  split at h
  · cases h
  · simpa [eq_comm] using h

/-- R175 with the updated counter written out. -/
theorem scheduleActive_eq (rd : Nat → Except Refusal NoteRec) (t : Track) (v : Voice) :
    scheduleActive rd t v =
      if expired (countDown t.durationLeftUs) then
        if commandsRemain t then
          match rd (cursorIndex t) with
          | .ok r =>
            .ok ({ t with durationLeftUs := countDown t.durationLeftUs, delayLeftUs := r.delayUs },
              { v with active := false, amp := 0 })
          | .error e => .error e
        else
          .ok ({ t with durationLeftUs := countDown t.durationLeftUs, armed := false },
            { v with active := false, amp := 0 })
      else .ok ({ t with durationLeftUs := countDown t.durationLeftUs }, v) := rfl

/-- R176 with the updated counter written out. -/
theorem scheduleInactive_eq (P : Params) (rd : Nat → Except Refusal NoteRec) (t : Track) (v : Voice) :
    scheduleInactive P rd t v =
      if expired (countDown t.delayLeftUs) then
        match rd (cursorIndex t) with
        | .ok r => .ok (startNote P r { t with delayLeftUs := countDown t.delayLeftUs } v)
        | .error e => .error e
      else .ok ({ t with delayLeftUs := countDown t.delayLeftUs }, v) := rfl

/-- R174 to R176: what one tick can do to a track and its voice. -/
theorem scheduleTrack_ok {P : Params} {rd : Nat → Except Refusal NoteRec} {t t' : Track} {v v' : Voice}
    (h : scheduleTrack P rd t v = .ok (t', v')) :
    (t' = t ∧ v' = v) ∨
    (v.active = true ∧ t' = { t with durationLeftUs := countDown t.durationLeftUs } ∧ v' = v) ∨
    (v.active = true ∧ commandsRemain t = true ∧ v' = { v with active := false, amp := 0 } ∧
      ∃ r, rd (cursorIndex t) = .ok r ∧
        t' = { t with durationLeftUs := countDown t.durationLeftUs, delayLeftUs := r.delayUs }) ∨
    (v.active = true ∧ commandsRemain t = false ∧ v' = { v with active := false, amp := 0 } ∧
      t' = { t with durationLeftUs := countDown t.durationLeftUs, armed := false }) ∨
    (v.active = false ∧ commandsRemain t = true ∧ t' = { t with delayLeftUs := countDown t.delayLeftUs } ∧ v' = v) ∨
    (v.active = false ∧ commandsRemain t = true ∧
      ∃ r, rd (cursorIndex t) = .ok r ∧
        (t', v') = startNote P r { t with delayLeftUs := countDown t.delayLeftUs } v) := by
  unfold scheduleTrack at h
  split at h
  · split at h
    · rename_i _ ha
      rw [scheduleActive_eq] at h
      split at h
      · split at h
        · split at h
          · rename_i hc _ r hr
            simp only [Except.ok.injEq, Prod.mk.injEq] at h
            exact .inr (.inr (.inl ⟨ha, hc, h.2.symm, r, hr, h.1.symm⟩))
          · cases h
        · rename_i hc
          simp only [Except.ok.injEq, Prod.mk.injEq] at h
          refine .inr (.inr (.inr (.inl ⟨ha, ?_, h.2.symm, h.1.symm⟩)))
          exact Bool.eq_false_iff.2 hc
      · simp only [Except.ok.injEq, Prod.mk.injEq] at h
        exact .inr (.inl ⟨ha, h.1.symm, h.2.symm⟩)
    · rename_i _ ha
      have ha : v.active = false := by simpa using ha
      split at h
      · rename_i hc
        rw [scheduleInactive_eq] at h
        split at h
        · split at h
          · rename_i r hr
            simp only [Except.ok.injEq] at h
            exact .inr (.inr (.inr (.inr (.inr ⟨ha, hc, r, hr, h.symm⟩))))
          · cases h
        · simp only [Except.ok.injEq, Prod.mk.injEq] at h
          exact .inr (.inr (.inr (.inr (.inl ⟨ha, hc, h.1.symm, h.2.symm⟩))))
      · simp only [Except.ok.injEq, Prod.mk.injEq] at h
        exact .inl ⟨h.1.symm, h.2.symm⟩
  · simp only [Except.ok.injEq, Prod.mk.injEq] at h
    exact .inl ⟨h.1.symm, h.2.symm⟩

/-- The scheduler looks only at the record at the track's cursor. -/
theorem scheduleTrack_congr {rd rd' : Nat → Except Refusal NoteRec} (P : Params) (t : Track) (v : Voice)
    (h : rd (cursorIndex t) = rd' (cursorIndex t)) : scheduleTrack P rd t v = scheduleTrack P rd' t v := by
  unfold scheduleTrack
  rw [scheduleActive_eq, scheduleInactive_eq, scheduleActive_eq, scheduleInactive_eq, h]

/-- The next tick reads the record at the track's cursor (`ReadsNote` of one track). -/
abbrev TrackReads (t : Track) (v : Voice) : Prop :=
  t.armed = true ∧ t.index.toNat < t.seqLen.toNat ∧
  (BitVec.ofInt 32 ((if v.active then t.durationLeftUs else t.delayLeftUs).toInt - 125)).toInt ≤ 0

/-- R174 to R178: the scheduler leaves what `scheduled` says, where the record it reads, if it reads one, is `r`. -/
theorem scheduleTrack_scheduled (P : Params) (rd : Nat → Except Refusal NoteRec) (t : Track) (v : Voice) (r : NoteRec)
    (h : TrackReads t v → rd (cursorIndex t) = .ok r) : scheduleTrack P rd t v = .ok (scheduled P r t v) := by
  have h' : t.armed = true → t.index.toNat < t.seqLen.toNat →
      (countDown (if v.active then t.durationLeftUs else t.delayLeftUs)).toInt ≤ 0 → rd (cursorIndex t) = .ok r :=
    fun h1 h2 h3 => h ⟨h1, h2, h3⟩
  unfold scheduleTrack scheduled
  rw [scheduleActive_eq, scheduleInactive_eq]
  change _ = Except.ok (if t.armed = false then (t, v)
    else if v.active = true then
      if 0 < (countDown t.durationLeftUs).toInt then ({ t with durationLeftUs := countDown t.durationLeftUs }, v)
      else if t.index.toNat < t.seqLen.toNat then
        ({ t with durationLeftUs := countDown t.durationLeftUs, delayLeftUs := r.delayUs },
          { v with active := false, amp := 0 })
      else ({ t with durationLeftUs := countDown t.durationLeftUs, armed := false }, { v with active := false, amp := 0 })
    else if t.index.toNat < t.seqLen.toNat then
      if 0 < (countDown t.delayLeftUs).toInt then ({ t with delayLeftUs := countDown t.delayLeftUs }, v)
      else
        ({ t with delayLeftUs := countDown t.delayLeftUs, index := t.index + 1, durationLeftUs := r.durationUs },
          { phase := 0, phaseInc := phaseInc r.periodUs t.pitchShift, amp := P.mixAmp,
            active := decide (phaseInc r.periodUs t.pitchShift ≠ 0) })
    else (t, v))
  simp only [expired, commandsRemain, startNote, decide_eq_true_eq]
  by_cases ha : t.armed = true
  · by_cases hv : v.active = true <;> by_cases hc : t.index.toNat < t.seqLen.toNat <;>
      simp only [ha, hv, hc, if_true, if_false, true_implies, reduceCtorEq, Bool.false_eq_true, ← not_le, ite_not]
        at h' ⊢
    · split
      · rw [h' ‹_›]
      · rfl
    · split <;> rfl
    · split
      · rw [h' ‹_›]
        simp only [bne_zero]
      · rfl
  · simp [ha]

/-- The scheduler is refused where the record it reads is. -/
theorem scheduleTrack_refused (P : Params) (rd : Nat → Except Refusal NoteRec) (t : Track) (v : Voice) (e : Refusal)
    (h : TrackReads t v) (he : rd (cursorIndex t) = .error e) : scheduleTrack P rd t v = .error e := by
  obtain ⟨ha, hc, h3⟩ := h
  change (countDown (if v.active then t.durationLeftUs else t.delayLeftUs)).toInt ≤ 0 at h3
  unfold scheduleTrack
  rw [scheduleActive_eq, scheduleInactive_eq, he]
  by_cases hv : v.active = true <;>
    simp only [hv, if_true, if_false, Bool.false_eq_true] at h3 <;>
    simp [ha, hv, commandsRemain, hc, expired, h3]

/-- A track is refused only where it reads a record, and that record is. -/
theorem scheduleTrack_error {P : Params} {rd : Nat → Except Refusal NoteRec} {t : Track} {v : Voice} {e : Refusal}
    (h : scheduleTrack P rd t v = .error e) : TrackReads t v ∧ rd (cursorIndex t) = .error e := by
  cases hr : rd (cursorIndex t) with
  | ok r => rw [scheduleTrack_scheduled P rd t v r fun _ => hr] at h; cases h
  | error e' =>
    by_cases ht : TrackReads t v
    · rw [scheduleTrack_refused P rd t v e' ht hr] at h
      exact ⟨ht, congrArg _ (Except.error.inj h)⟩
    · rw [scheduleTrack_scheduled P rd t v ⟨0, 0, 0⟩ fun h => absurd h ht] at h; cases h

/-- The tracks of a list without repeats are scheduled independently: each as it stood, the others unchanged. -/
theorem scheduleLanes_ok {P : Params} {rd : Nat → Except Refusal NoteRec} {ks : List (Fin 8)} {m m' : Mix}
    (hn : ks.Nodup) (h : scheduleLanes P rd ks m = .ok m') (k : Fin 8) :
    (k ∈ ks → scheduleTrack P rd m.track[k] m.voice[k] = .ok (m'.track[k], m'.voice[k])) ∧
    (k ∉ ks → m'.track[k] = m.track[k] ∧ m'.voice[k] = m.voice[k]) := by
  induction ks generalizing m with
  | nil =>
    simp only [scheduleLanes, Except.ok.injEq] at h
    subst h
    simp
  | cons j ks ih =>
    simp only [scheduleLanes] at h
    split at h
    · rename_i m₁ hl
      unfold scheduleLane at hl
      split at hl
      · rename_i t v ht
        simp only [Except.ok.injEq] at hl
        obtain ⟨ih1, ih2⟩ := ih (List.nodup_cons.1 hn).2 h
        have hj := (List.nodup_cons.1 hn).1
        subst hl
        constructor
        · intro hk
          rcases List.mem_cons.1 hk with rfl | hk
          · have := ih2 hj
            rw [ht, this.1, this.2]
            simp
          · have hne : j ≠ k := fun e => hj (e ▸ hk)
            have hne' : j.val ≠ k.val := fun e => hne (Fin.ext e)
            have := ih1 hk
            simpa [Vector.getElem_set, hne'] using this
        · intro hk
          have hne : j ≠ k := fun e => hk (e ▸ List.mem_cons_self)
          have hne' : j.val ≠ k.val := fun e => hne (Fin.ext e)
          have := ih2 (fun hm => hk (List.mem_cons_of_mem _ hm))
          simpa [Vector.getElem_set, hne'] using this
      · cases hl
    · cases h

theorem lanes_nodup : lanes.Nodup := by decide

theorem mem_lanes (k : Fin 8) : k ∈ lanes := by revert k; decide

/-- Where every track's own scheduling answers, so does that of the list. -/
theorem scheduleLanes_answers {P : Params} {rd : Nat → Except Refusal NoteRec} {ks : List (Fin 8)} (m : Mix)
    (hn : ks.Nodup) (h : ∀ k ∈ ks, ∃ r, scheduleTrack P rd m.track[k] m.voice[k] = .ok r) :
    ∃ m', scheduleLanes P rd ks m = .ok m' := by
  induction ks generalizing m with
  | nil => exact ⟨m, rfl⟩
  | cons j ks ih =>
    obtain ⟨⟨t, v⟩, hj⟩ := h j List.mem_cons_self
    have hl : scheduleLane P rd m j = .ok { voice := m.voice.set j v, track := m.track.set j t } := by
      unfold scheduleLane; rw [hj]
    simp only [scheduleLanes, hl]
    refine ih _ (List.nodup_cons.1 hn).2 (fun k hk => ?_)
    have hne : j ≠ k := fun e => (List.nodup_cons.1 hn).1 (e ▸ hk)
    have hne' : j.val ≠ k.val := fun e => hne (Fin.ext e)
    simpa [Vector.getElem_set, hne'] using h k (List.mem_cons_of_mem _ hk)

/-- One track of the list is scheduled, the others left as they are. -/
theorem scheduleLane_ok {P : Params} {rd : Nat → Except Refusal NoteRec} {m m' : Mix} {j : Fin 8}
    (h : scheduleLane P rd m j = .ok m') (k : Fin 8) (hk : j ≠ k) :
    m'.track[k] = m.track[k] ∧ m'.voice[k] = m.voice[k] := by
  have hk : j.val ≠ k.val := fun e => hk (Fin.ext e)
  unfold scheduleLane at h
  split at h
  · cases h; simp [hk]
  · cases h

/-- A list of tracks in ascending order is refused as its first refused track is. -/
theorem scheduleLanes_error_iff {P : Params} {rd : Nat → Except Refusal NoteRec} {ks : List (Fin 8)} {m : Mix}
    {e : Refusal} (hs : ks.Pairwise (· < ·)) :
    scheduleLanes P rd ks m = .error e ↔
      ∃ k ∈ ks, scheduleTrack P rd m.track[k] m.voice[k] = .error e ∧
        ∀ j ∈ ks, j < k → ∃ r, scheduleTrack P rd m.track[j] m.voice[j] = .ok r := by
  induction ks generalizing m with
  | nil => simp [scheduleLanes]
  | cons i ks ih =>
    obtain ⟨hi, hs⟩ := List.pairwise_cons.1 hs
    cases hl : scheduleTrack P rd m.track[i] m.voice[i] with
    | error e' =>
      have : scheduleLane P rd m i = .error e' := by unfold scheduleLane; rw [hl]
      simp only [scheduleLanes, this, Except.error.injEq]
      constructor
      · rintro rfl
        refine ⟨i, List.mem_cons_self, hl, fun j hj hlt => ?_⟩
        rcases List.mem_cons.1 hj with rfl | hj
        · exact absurd hlt (lt_irrefl _)
        · exact absurd hlt (lt_asymm (hi j hj))
      · rintro ⟨k, hk, he, hb⟩
        rcases List.mem_cons.1 hk with rfl | hk
        · rw [hl] at he; exact Except.error.inj he
        · obtain ⟨r, hr⟩ := hb i List.mem_cons_self (hi k hk)
          rw [hl] at hr; cases hr
    | ok r =>
      obtain ⟨m', hm⟩ : ∃ m', scheduleLane P rd m i = .ok m' := by unfold scheduleLane; rw [hl]; exact ⟨_, rfl⟩
      have same : ∀ k ∈ ks, m'.track[k] = m.track[k] ∧ m'.voice[k] = m.voice[k] :=
        fun k hk => scheduleLane_ok hm k (ne_of_lt (hi k hk))
      simp only [scheduleLanes, hm, ih hs]
      constructor
      · rintro ⟨k, hk, he, hb⟩
        rw [(same k hk).1, (same k hk).2] at he
        refine ⟨k, List.mem_cons_of_mem _ hk, he, fun j hj hlt => ?_⟩
        rcases List.mem_cons.1 hj with rfl | hj
        · exact ⟨r, hl⟩
        · have := hb j hj hlt
          rwa [(same j hj).1, (same j hj).2] at this
      · rintro ⟨k, hk, he, hb⟩
        rcases List.mem_cons.1 hk with rfl | hk
        · rw [hl] at he; cases he
        · refine ⟨k, hk, by rw [(same k hk).1, (same k hk).2]; exact he, fun j hj hlt => ?_⟩
          rw [(same j hj).1, (same j hj).2]
          exact hb j (List.mem_cons_of_mem _ hj) hlt

theorem lanes_ascending : lanes.Pairwise (· < ·) := by decide

theorem mixTickPull_ok {P : Params} {note : NoteMem} {m m' : Mix} {d : Byte}
    (h : mixTickPull P note m = .ok (m', d)) :
    ∃ m₁, scheduleLanes P (mixNoteRead note) lanes m = .ok m₁ ∧ m' = advanceVoices m₁ ∧
      d = mixOutput P (mixSum m') := by
  unfold mixTickPull at h
  split at h
  · rename_i m₁ hm
    simp only [Except.ok.injEq, Prod.mk.injEq] at h
    obtain ⟨rfl, rfl⟩ := h
    exact ⟨m₁, hm, rfl, rfl⟩
  · cases h

/-- R205: a tick is refused as the first track is that reads a record outside `NOTE`. -/
theorem mixTickPull_error_iff {P : Params} {note : NoteMem} {m : Mix} {e : Refusal} :
    mixTickPull P note m = .error e ↔
      ∃ k : Fin 8, TrackReads m.track[k] m.voice[k] ∧ note.size ≤ cursorIndex m.track[k] ∧
        e = .streamOverrun .mix (cursorIndex m.track[k]) ∧
        ∀ j : Fin 8, j < k → TrackReads m.track[j] m.voice[j] → cursorIndex m.track[j] < note.size := by
  have hread : ∀ k : Fin 8, (∃ r, scheduleTrack P (mixNoteRead note) m.track[k] m.voice[k] = .ok r) ↔
      (TrackReads m.track[k] m.voice[k] → cursorIndex m.track[k] < note.size) := by
    intro k
    constructor
    · rintro ⟨r, hr⟩ ht
      by_contra hn
      rw [scheduleTrack_refused _ _ _ _ _ ht (mixNoteRead_of_le _ _ (not_lt.1 hn))] at hr
      cases hr
    · exact fun h => ⟨_, scheduleTrack_scheduled _ _ _ _ _ fun ht => mixNoteRead_of_lt _ _ (h ht)⟩
  have hpull : mixTickPull P note m = .error e ↔ scheduleLanes P (mixNoteRead note) lanes m = .error e := by
    unfold mixTickPull
    cases scheduleLanes P (mixNoteRead note) lanes m <;> simp
  rw [hpull, scheduleLanes_error_iff lanes_ascending]
  constructor
  · rintro ⟨k, -, he, hb⟩
    obtain ⟨ht, he'⟩ := scheduleTrack_error he
    refine ⟨k, ht, ?_, mixNoteRead_error he', fun j hj => (hread j).1 (hb j (mem_lanes j) hj)⟩
    by_contra hn
    rw [mixNoteRead_of_lt _ _ (not_le.1 hn)] at he'
    cases he'
  · rintro ⟨k, ht, hle, rfl, hb⟩
    exact ⟨k, mem_lanes k, scheduleTrack_refused _ _ _ _ _ ht (mixNoteRead_of_le _ _ hle),
      fun j _ hj => (hread j).2 (hb j hj)⟩

/-! ## The player -/

theorem playerPull_ima {s : State} (h : s.player.sel = 0) :
    playerPull s = (imaNextPull s.params s.rom s.ima).map fun (u, v) => ({ s with ima := u }, duty16 v) := if_pos h

theorem playerPull_twobit {s : State} (h : s.player.sel = 1) :
    playerPull s = (twobitNextPull s.params s.rom s.twobit).map fun (u, v) => ({ s with twobit := u }, duty16 v) := by
  unfold playerPull
  rw [if_neg (by rw [h]; decide), if_pos h]

theorem playerPull_lpc {s : State} (h : s.player.sel = 2) :
    playerPull s = (lpcNextPull s.params s.rom s.lpc).map fun (u, v) => ({ s with lpc := u }, duty16 v) := by
  unfold playerPull
  rw [if_neg (by rw [h]; decide), if_neg (by rw [h]; decide), if_pos h]

theorem playerPull_mix {s : State} (h : s.player.sel = 3) :
    playerPull s = (mixTickPull s.params s.note s.mix).map fun (m, d) => ({ s with mix := m }, d) := by
  unfold playerPull
  rw [if_neg (by rw [h]; decide), if_neg (by rw [h]; decide), if_neg (by rw [h]; decide)]

/-- R29: the player's four sources. -/
theorem sel_cases (sel : BitVec 2) : sel = 0 ∨ sel = 1 ∨ sel = 2 ∨ sel = 3 := by
  revert sel; decide

/-- R196: advancing the mark and pulling the source commute. -/
theorem playerPull_advanceMark (s : State) :
    playerPull (advanceMark s) = (playerPull s).map fun (t, d) => (advanceMark t, d) := by
  rcases sel_cases s.player.sel with h | h | h | h
  · rw [playerPull_ima h, playerPull_ima (s := advanceMark s) h]
    simp only [advanceMark_params, advanceMark_rom, advanceMark_ima]
    cases imaNextPull s.params s.rom s.ima <;> rfl
  · rw [playerPull_twobit h, playerPull_twobit (s := advanceMark s) h]
    simp only [advanceMark_params, advanceMark_rom, advanceMark_twobit]
    cases twobitNextPull s.params s.rom s.twobit <;> rfl
  · rw [playerPull_lpc h, playerPull_lpc (s := advanceMark s) h]
    simp only [advanceMark_params, advanceMark_rom, advanceMark_lpc]
    cases lpcNextPull s.params s.rom s.lpc <;> rfl
  · rw [playerPull_mix h, playerPull_mix (s := advanceMark s) h]
    simp only [advanceMark_params, advanceMark_note, advanceMark_mix]
    cases mixTickPull s.params s.note s.mix <;> rfl

/-- R193: what the pull of the selected source can do; the player's own registers are not touched. -/
theorem playerPull_ok {s t : State} {d : Byte} (h : playerPull s = .ok (t, d)) :
    (s.player.sel = 0 ∧ ∃ u v, imaNextPull s.params s.rom s.ima = .ok (u, v) ∧ t = { s with ima := u } ∧ d = duty16 v) ∨
    (s.player.sel = 1 ∧ ∃ u v, twobitNextPull s.params s.rom s.twobit = .ok (u, v) ∧ t = { s with twobit := u } ∧
      d = duty16 v) ∨
    (s.player.sel = 2 ∧ ∃ u v, lpcNextPull s.params s.rom s.lpc = .ok (u, v) ∧ t = { s with lpc := u } ∧ d = duty16 v) ∨
    (s.player.sel = 3 ∧ ∃ m, mixTickPull s.params s.note s.mix = .ok (m, d) ∧ t = { s with mix := m }) := by
  unfold playerPull at h
  split at h
  · rename_i h0
    obtain ⟨⟨u, v⟩, hp, he⟩ := except_map_eq_ok.1 h
    simp only [Prod.mk.injEq] at he
    exact .inl ⟨h0, u, v, hp, he.1.symm, he.2.symm⟩
  · split at h
    · rename_i h1
      obtain ⟨⟨u, v⟩, hp, he⟩ := except_map_eq_ok.1 h
      simp only [Prod.mk.injEq] at he
      exact .inr (.inl ⟨h1, u, v, hp, he.1.symm, he.2.symm⟩)
    · split at h
      · rename_i h2
        obtain ⟨⟨u, v⟩, hp, he⟩ := except_map_eq_ok.1 h
        simp only [Prod.mk.injEq] at he
        exact .inr (.inr (.inl ⟨h2, u, v, hp, he.1.symm, he.2.symm⟩))
      · rename_i h0 h1 h2
        obtain ⟨⟨m, v⟩, hp, he⟩ := except_map_eq_ok.1 h
        simp only [Prod.mk.injEq] at he
        obtain ⟨he1, rfl⟩ := he
        refine .inr (.inr (.inr ⟨?_, m, hp, he1.symm⟩))
        revert h0 h1 h2
        generalize s.player.sel = x
        revert x
        decide

/-- R193, R195: a tick body is one pull, and its duty value written. -/
theorem doTick_ok {s t : State} {d : Byte} (h : doTick s = .ok (t, d)) :
    ∃ u, playerPull s = .ok (u, d) ∧ t = dutyWrite u d := by
  obtain ⟨⟨u, d'⟩, hp, he⟩ := except_map_eq_ok.1 h
  simp only [Prod.mk.injEq] at he
  obtain ⟨rfl, rfl⟩ := he
  exact ⟨u, hp, rfl⟩

/-- The pull of the selected source is refused as the pull of that source is. -/
theorem playerPull_error {s : State} {e : Refusal} (h : playerPull s = .error e) :
    (s.player.sel = 0 ∧ imaNextPull s.params s.rom s.ima = .error e) ∨
    (s.player.sel = 1 ∧ twobitNextPull s.params s.rom s.twobit = .error e) ∨
    (s.player.sel = 2 ∧ lpcNextPull s.params s.rom s.lpc = .error e) ∨
    (s.player.sel = 3 ∧ mixTickPull s.params s.note s.mix = .error e) := by
  rcases sel_cases s.player.sel with hs | hs | hs | hs
  · rw [playerPull_ima hs] at h; exact .inl ⟨hs, except_map_eq_error.1 h⟩
  · rw [playerPull_twobit hs] at h; exact .inr (.inl ⟨hs, except_map_eq_error.1 h⟩)
  · rw [playerPull_lpc hs] at h; exact .inr (.inr (.inl ⟨hs, except_map_eq_error.1 h⟩))
  · rw [playerPull_mix hs] at h; exact .inr (.inr (.inr ⟨hs, except_map_eq_error.1 h⟩))

theorem doTick_error {s : State} {e : Refusal} (h : doTick s = .error e) : playerPull s = .error e :=
  except_map_eq_error.1 h

/-! ## The step -/

/-- A step takes a command from the port and executes what it decodes to; with none issued it changes nothing. -/
theorem step_next {s t : State} (h : step s = .next t) :
    (s.port = [] ∧ t = s) ∨
    ∃ c rest i, s.port = c :: rest ∧ decodeCommand c = some i ∧ exec i { s with port := rest } = .next t := by
  unfold step stepCommand fetch at h
  split at h
  · rename_i hf
    split at hf
    · simp only [Host.Outcome.next.injEq] at h
      exact .inl ⟨by assumption, h.symm⟩
    · cases hf
  · rename_i hf
    split at hf
    · cases hf
    · rename_i c rest hp
      simp only [Option.some.injEq, Prod.mk.injEq] at hf
      obtain ⟨rfl, rfl⟩ := hf
      split at h
      · rename_i i hi
        exact .inr ⟨c, rest, i, hp, hi, h⟩
      · cases h

theorem step_cons (s : State) (c : Command) (rest : List Command) (i : Instr) (hp : s.port = c :: rest)
    (hd : decodeCommand c = some i) : step s = exec i { s with port := rest } := by
  simp [step, stepCommand, fetch, hp, hd]

end Sys2Proof.Machine
end

