-- ==== Sys2Proof/Laws/Exec.lean ====
section
/-! SUPPORT. What an instruction can do, said once: the effects a next state of `exec` can have. Statements about
every instruction follow by cases on the effect, without unfolding a meaning. -/
namespace Sys2Proof.Machine

/-- `Effect i s t`: state `t` is what instruction `i` can leave after `s`. -/
inductive Effect (i : Instr) (s : State) : State → Prop
  /-- Only the result changes: a `HASNEXT`, a no-op, a poll before its time. -/
  | resultOnly (v : Word) : isCommand i = true → Effect i s { s with res := v }
  /-- `IMA` restarted over a window (R132, R135). -/
  | imaRestarted (base len v : Word) : unitOf i = .ima →
      Effect i s { s with ima := imaRestart s.params { s.ima with base := base, len := len }, res := v }
  /-- `IMA` pulled (R134). -/
  | imaPulled (pick : Byte → BitVec 4) (u : Ima) (x : Sample) : unitOf i = .ima →
      imaPull s.params s.rom pick s.ima = .ok (u, x) → Effect i s { s with ima := u, res := resSample x }
  /-- `TWOBIT` restarted over a window (R122, R125). -/
  | twobitRestarted (base len v : Word) : unitOf i = .twobit →
      Effect i s { s with twobit := twobitRestart { s.twobit with base := base, len := len }, res := v }
  /-- `TWOBIT` pulled (R124). -/
  | twobitPulled (pick : Byte → BitVec 2) (u : Twobit) (x : Sample) : unitOf i = .twobit →
      twobitPull s.params s.rom pick s.twobit = .ok (u, x) → Effect i s { s with twobit := u, res := resSample x }
  /-- `LPC` restarted over a window in a mode (R143 to R145). -/
  | lpcRestarted (base len : Word) (mode : BitVec 1) (v : Word) : unitOf i = .lpc →
      Effect i s { s with lpc := lpcRestart { s.lpc with base := base, len := len, mode := mode }, res := v }
  /-- `LPC` pulled (R147). -/
  | lpcPulled (u : Lpc) (x : Sample) : unitOf i = .lpc →
      lpcNextPull s.params s.rom s.lpc = .ok (u, x) → Effect i s { s with lpc := u, res := resSample x }
  /-- A frame decoded by itself (log entry 8). -/
  | lpcFrame (given : List Bool) (u : Lpc) : (unitOf i = .lpc ∧ isCommand i = false) →
      lpcDecodeFrame s.params s.rom given s.lpc = .ok u → Effect i s { s with lpc := u }
  /-- `MIX` reset (R171). -/
  | mixReset (v : Word) : unitOf i = .mix → Effect i s { s with mix := mixRestart, res := v }
  /-- A track bound (R172). -/
  | mixBound (k : Fin 8) (seqBase seqLen shift : Word) (m : Mix) (v : Word) : unitOf i = .mix →
      bindTrack s.note s.mix k seqBase seqLen shift = .ok m → Effect i s { s with mix := m, res := v }
  /-- Every voice silenced (R173). -/
  | mixSilenced (v : Word) : unitOf i = .mix → Effect i s { s with mix := silenceAll s.mix, res := v }
  /-- `MIX` ticked (R174). -/
  | mixTicked (m : Mix) (d : Byte) (v : Word) : unitOf i = .mix →
      mixTickPull s.params s.note s.mix = .ok (m, d) → Effect i s { s with mix := m, res := v }
  /-- One track scheduled over a record by itself (log entry 9). -/
  | mixScheduled (rd : Nat → Except Refusal NoteRec) (k : Fin 8) (m : Mix) (v : Word) :
      (unitOf i = .mix ∧ isCommand i = false) → scheduleLane s.params rd s.mix k = .ok m →
      Effect i s { s with mix := m, res := v }
  /-- `PLAYER` reset (R191). -/
  | playerReset (v : Word) : unitOf i = .player → Effect i s { s with player := playerRestart, res := v }
  /-- A source selected (R192). -/
  | playerSelected (sel : BitVec 2) (now : BitVec 16) (v : Word) : unitOf i = .player →
      Effect i s { s with player := { s.player with sel := sel, run := true, mark := now }, res := v }
  /-- The player ticked: the selected source pulled, its duty value written (R193). -/
  | playerTicked (u : State) (d : Byte) (mark : BitVec 16) (v : Word) : unitOf i = .player → ticks i = true →
      s.player.run = true → playerPull s = .ok (u, d) →
      Effect i s { u with player := { s.player with duty := some d, mark := mark }, res := v }

/-- The pull of the selected source leaves the player alone (R209). -/
theorem playerPull_player {s t : State} {d} (h : playerPull s = .ok (t, d)) : t.player = s.player := by
  rcases playerPull_ok h with ⟨_, a, b, _, rfl, _⟩ | ⟨_, a, b, _, rfl, _⟩ | ⟨_, a, b, hp, rfl, _⟩ |
    ⟨_, a, _, rfl⟩ <;> rfl

/-- An instruction that answers a next state has one of the effects of `Effect`. -/
theorem exec_effect {i : Instr} {s t : State} (h : exec i s = .next t) : Effect i s t := by
  cases i <;> simp only [exec] at h
  case imaReset =>
    simp only [execImaReset, finish_ok, Host.Outcome.next.injEq] at h
    subst h; exact .imaRestarted _ _ _ rfl
  case imaAttach =>
    simp only [execImaAttach, finish_ok, Host.Outcome.next.injEq] at h
    subst h; exact .imaRestarted _ _ _ rfl
  case imaHasNext =>
    simp only [execImaHasNext, finish_ok, Host.Outcome.next.injEq] at h
    subst h; exact .resultOnly _ rfl
  case imaNext =>
    obtain ⟨u, v, h1, rfl⟩ := imaFinish_eq_next.1 h
    exact .imaPulled _ _ _ rfl h1
  case nib4 =>
    obtain ⟨u, v, h1, rfl⟩ := imaFinish_eq_next.1 h
    exact .imaPulled _ _ _ rfl h1
  case twobitReset =>
    simp only [execTwobitReset, finish_ok, Host.Outcome.next.injEq] at h
    subst h; exact .twobitRestarted _ _ _ rfl
  case twobitAttach =>
    simp only [execTwobitAttach, finish_ok, Host.Outcome.next.injEq] at h
    subst h; exact .twobitRestarted _ _ _ rfl
  case twobitHasNext =>
    simp only [execTwobitHasNext, finish_ok, Host.Outcome.next.injEq] at h
    subst h; exact .resultOnly _ rfl
  case twobitNext =>
    obtain ⟨u, v, h1, rfl⟩ := twobitFinish_eq_next.1 h
    exact .twobitPulled _ _ _ rfl h1
  case code2_0 =>
    obtain ⟨u, v, h1, rfl⟩ := twobitFinish_eq_next.1 h
    exact .twobitPulled _ _ _ rfl h1
  case code2_1 =>
    obtain ⟨u, v, h1, rfl⟩ := twobitFinish_eq_next.1 h
    exact .twobitPulled _ _ _ rfl h1
  case code2_2 =>
    obtain ⟨u, v, h1, rfl⟩ := twobitFinish_eq_next.1 h
    exact .twobitPulled _ _ _ rfl h1
  case code2_3 =>
    obtain ⟨u, v, h1, rfl⟩ := twobitFinish_eq_next.1 h
    exact .twobitPulled _ _ _ rfl h1
  case lpcReset =>
    simp only [execLpcReset, finish_ok, Host.Outcome.next.injEq] at h
    subst h; exact .lpcRestarted _ _ _ _ rfl
  case lpcAttach =>
    simp only [execLpcAttach, finish_ok, Host.Outcome.next.injEq] at h
    subst h; exact .lpcRestarted _ _ _ _ rfl
  case lpcStart =>
    simp only [execLpcStart, finish_ok, Host.Outcome.next.injEq] at h
    subst h; exact .lpcRestarted _ _ _ _ rfl
  case lpcHasNext =>
    simp only [execLpcHasNext, finish_ok, Host.Outcome.next.injEq] at h
    subst h; exact .resultOnly _ rfl
  case lpcNext =>
    obtain ⟨u, v, h1, rfl⟩ := lpcFinish_eq_next.1 h
    exact .lpcPulled _ _ rfl h1
  case lpcfSilence =>
    obtain ⟨u, h1, rfl⟩ := lpcFrame_eq_next.1 h
    exact .lpcFrame _ _ ⟨rfl, rfl⟩ h1
  case lpcfStop =>
    obtain ⟨u, h1, rfl⟩ := lpcFrame_eq_next.1 h
    exact .lpcFrame _ _ ⟨rfl, rfl⟩ h1
  case lpcfRepeatM0 =>
    obtain ⟨u, h1, rfl⟩ := lpcFrame_eq_next.1 h
    exact .lpcFrame _ _ ⟨rfl, rfl⟩ h1
  case lpcfUnvoicedM0 =>
    obtain ⟨u, h1, rfl⟩ := lpcFrame_eq_next.1 h
    exact .lpcFrame _ _ ⟨rfl, rfl⟩ h1
  case lpcfVoicedM0 =>
    obtain ⟨u, h1, rfl⟩ := lpcFrame_eq_next.1 h
    exact .lpcFrame _ _ ⟨rfl, rfl⟩ h1
  case lpcfRepeatM1 =>
    obtain ⟨u, h1, rfl⟩ := lpcFrame_eq_next.1 h
    exact .lpcFrame _ _ ⟨rfl, rfl⟩ h1
  case lpcfUnvoicedM1 =>
    obtain ⟨u, h1, rfl⟩ := lpcFrame_eq_next.1 h
    exact .lpcFrame _ _ ⟨rfl, rfl⟩ h1
  case lpcfVoicedM1 =>
    obtain ⟨u, h1, rfl⟩ := lpcFrame_eq_next.1 h
    exact .lpcFrame _ _ ⟨rfl, rfl⟩ h1
  case mixReset =>
    simp only [execMixReset, finish_ok, Host.Outcome.next.injEq] at h
    subst h; exact .mixReset _ rfl
  case mixAllOff =>
    simp only [execMixAllOff, finish_ok, Host.Outcome.next.injEq] at h
    subst h; exact .mixSilenced _ rfl
  case mixBind =>
    unfold execMixBind at h
    split at h
    · obtain ⟨m, v, h1, rfl⟩ := mixFinish_eq_next.1 h
      obtain ⟨m', h2, h3⟩ := except_map_eq_ok.1 h1
      simp only [Prod.mk.injEq] at h3; obtain ⟨rfl, rfl⟩ := h3
      exact .mixBound _ _ _ _ _ _ rfl h2
    · simp only [finish_ok, Host.Outcome.next.injEq] at h; subst h; exact .resultOnly _ rfl
  case mixTick =>
    obtain ⟨m, v, h1, rfl⟩ := mixFinish_eq_next.1 h
    obtain ⟨⟨m', d⟩, h2, h3⟩ := except_map_eq_ok.1 h1
    simp only [Prod.mk.injEq] at h3; obtain ⟨rfl, rfl⟩ := h3
    exact .mixTicked _ _ _ rfl h2
  case note3 =>
    obtain ⟨m, v, h1, rfl⟩ := mixFinish_eq_next.1 h
    obtain ⟨m', h2, h3⟩ := except_map_eq_ok.1 h1
    simp only [Prod.mk.injEq] at h3; obtain ⟨rfl, rfl⟩ := h3
    exact .mixScheduled _ _ _ _ ⟨rfl, rfl⟩ h2
  case playerReset =>
    simp only [execPlayerReset, finish_ok, Host.Outcome.next.injEq] at h
    subst h; exact .playerReset _ rfl
  case playerSelect =>
    unfold execPlayerSelect at h
    split at h <;> (simp only [finish_ok, Host.Outcome.next.injEq] at h; subst h)
    · exact .playerSelected _ _ _ rfl
    · exact .resultOnly _ rfl
  case playerPoll now =>
    unfold execPlayerPoll at h
    split at h
    · rename_i hc
      simp only [Bool.and_eq_true] at hc
      obtain ⟨u, v, h1, rfl⟩ := finish_eq_next.1 h
      obtain ⟨⟨a, b⟩, h2, h3⟩ := except_map_eq_ok.1 h1
      simp only [Prod.mk.injEq] at h3; obtain ⟨rfl, rfl⟩ := h3
      obtain ⟨w, h4, rfl⟩ := doTick_ok h2
      rw [playerPull_advanceMark] at h4
      obtain ⟨⟨a, b'⟩, h5, h6⟩ := except_map_eq_ok.1 h4
      simp only [Prod.mk.injEq] at h6; obtain ⟨rfl, rfl⟩ := h6
      have := Effect.playerTicked (i := .playerPoll now) a b' (a.player.mark + BitVec.ofNat 16 Config.tickUs) (resTicked b') rfl rfl hc.1 h5
      rw [← playerPull_player h5] at this
      exact this
    · simp only [finish_ok, Host.Outcome.next.injEq] at h; subst h; exact .resultOnly _ rfl
  case playerTick =>
    unfold execPlayerTick at h
    split at h
    · rename_i hc
      obtain ⟨u, v, h1, rfl⟩ := finish_eq_next.1 h
      obtain ⟨⟨a, b⟩, h2, h3⟩ := except_map_eq_ok.1 h1
      simp only [Prod.mk.injEq] at h3; obtain ⟨rfl, rfl⟩ := h3
      obtain ⟨w, h4, rfl⟩ := doTick_ok h2
      have := Effect.playerTicked (i := .playerTick) w b w.player.mark (resDuty b) rfl rfl hc h4
      rw [← playerPull_player h4] at this
      exact this
    · simp only [finish_ok, Host.Outcome.next.injEq] at h; subst h; exact .resultOnly _ rfl

end Sys2Proof.Machine
end

