-- ==== Sys2Proof/Laws/PerInstr.lean ====
section
/-! SUPPORT. Statements made for every instruction, one lemma per constructor. -/
namespace Sys2Proof.Laws

/-- The encoding of an instruction has the format of the table row it is (R80): a command is a command word whose
unit field (R81) is that of the unit it belongs to; every other row has no command word. -/
def EncodeFormat.Statement (i : Instr) : Prop :=
  match encode i with
  | .cmd c => Machine.isCommand i = true ∧
      (c.cmd.extractLsb' 4 4).toNat =
        (match Machine.unitOf i with
          | .ima => 0
          | .twobit => 1
          | .lpc => 2
          | .mix => 3
          | .player => 4)
  | .nib4 _ => Machine.isCommand i = false ∧ Machine.unitOf i = .ima
  | .code2 _ => Machine.isCommand i = false ∧ Machine.unitOf i = .twobit
  | .lpcf _ _ => Machine.isCommand i = false ∧ Machine.unitOf i = .lpc
  | .note3 _ _ => Machine.isCommand i = false ∧ Machine.unitOf i = .mix

theorem EncodeFormat.imaReset : EncodeFormat.Statement .imaReset := ⟨rfl, rfl⟩

theorem EncodeFormat.imaHasNext : EncodeFormat.Statement .imaHasNext := ⟨rfl, rfl⟩

theorem EncodeFormat.imaNext : EncodeFormat.Statement .imaNext := ⟨rfl, rfl⟩

theorem EncodeFormat.imaAttach (base len : Word) : EncodeFormat.Statement (.imaAttach base len) :=
  ⟨rfl, show ((0x03 : Byte).extractLsb' 4 4).toNat = 0 from rfl⟩

theorem EncodeFormat.twobitReset : EncodeFormat.Statement .twobitReset := ⟨rfl, rfl⟩

theorem EncodeFormat.twobitHasNext : EncodeFormat.Statement .twobitHasNext := ⟨rfl, rfl⟩

theorem EncodeFormat.twobitNext : EncodeFormat.Statement .twobitNext := ⟨rfl, rfl⟩

theorem EncodeFormat.twobitAttach (base len : Word) : EncodeFormat.Statement (.twobitAttach base len) :=
  ⟨rfl, show ((0x13 : Byte).extractLsb' 4 4).toNat = 1 from rfl⟩

theorem EncodeFormat.lpcReset : EncodeFormat.Statement .lpcReset := ⟨rfl, rfl⟩

theorem EncodeFormat.lpcHasNext : EncodeFormat.Statement .lpcHasNext := ⟨rfl, rfl⟩

theorem EncodeFormat.lpcNext : EncodeFormat.Statement .lpcNext := ⟨rfl, rfl⟩

theorem EncodeFormat.lpcAttach (base len : Word) : EncodeFormat.Statement (.lpcAttach base len) :=
  ⟨rfl, show ((0x23 : Byte).extractLsb' 4 4).toNat = 2 from rfl⟩

theorem EncodeFormat.lpcStart (mode : BitVec 1) : EncodeFormat.Statement (.lpcStart mode) :=
  ⟨rfl, show ((0x24 : Byte).extractLsb' 4 4).toNat = 2 from rfl⟩

theorem EncodeFormat.mixReset : EncodeFormat.Statement .mixReset := ⟨rfl, rfl⟩

theorem EncodeFormat.mixBind (trackId seqBase seqLen pitchShift : Word) : EncodeFormat.Statement (.mixBind trackId seqBase seqLen pitchShift) :=
  ⟨rfl, show ((0x31 : Byte).extractLsb' 4 4).toNat = 3 from rfl⟩

theorem EncodeFormat.mixAllOff : EncodeFormat.Statement .mixAllOff := ⟨rfl, rfl⟩

theorem EncodeFormat.mixTick : EncodeFormat.Statement .mixTick := ⟨rfl, rfl⟩

theorem EncodeFormat.playerReset : EncodeFormat.Statement .playerReset := ⟨rfl, rfl⟩

theorem EncodeFormat.playerSelect (sel : Word) (now : BitVec 16) : EncodeFormat.Statement (.playerSelect sel now) :=
  ⟨rfl, show ((0x41 : Byte).extractLsb' 4 4).toNat = 4 from rfl⟩

theorem EncodeFormat.playerPoll (now : BitVec 16) : EncodeFormat.Statement (.playerPoll now) :=
  ⟨rfl, show ((0x42 : Byte).extractLsb' 4 4).toNat = 4 from rfl⟩

theorem EncodeFormat.playerTick : EncodeFormat.Statement .playerTick := ⟨rfl, rfl⟩

theorem EncodeFormat.nib4 (c : BitVec 4) : EncodeFormat.Statement (.nib4 c) := ⟨rfl, rfl⟩

theorem EncodeFormat.code2_0 : EncodeFormat.Statement .code2_0 := ⟨rfl, rfl⟩

theorem EncodeFormat.code2_1 : EncodeFormat.Statement .code2_1 := ⟨rfl, rfl⟩

theorem EncodeFormat.code2_2 : EncodeFormat.Statement .code2_2 := ⟨rfl, rfl⟩

theorem EncodeFormat.code2_3 : EncodeFormat.Statement .code2_3 := ⟨rfl, rfl⟩

theorem EncodeFormat.lpcfSilence : EncodeFormat.Statement .lpcfSilence := ⟨rfl, rfl⟩

theorem EncodeFormat.lpcfStop : EncodeFormat.Statement .lpcfStop := ⟨rfl, rfl⟩

theorem EncodeFormat.lpcfRepeatM0 (e : BitVec 4) (p : BitVec 6) : EncodeFormat.Statement (.lpcfRepeatM0 e p) := ⟨rfl, rfl⟩

theorem EncodeFormat.lpcfUnvoicedM0 (e : BitVec 4) (p : BitVec 6) (lo : KLow) : EncodeFormat.Statement (.lpcfUnvoicedM0 e p lo) := ⟨rfl, rfl⟩

theorem EncodeFormat.lpcfVoicedM0 (e : BitVec 4) (p : BitVec 6) (lo : KLow) (hi : KHigh) : EncodeFormat.Statement (.lpcfVoicedM0 e p lo hi) := ⟨rfl, rfl⟩

theorem EncodeFormat.lpcfRepeatM1 (e : BitVec 4) (p : BitVec 5) : EncodeFormat.Statement (.lpcfRepeatM1 e p) := ⟨rfl, rfl⟩

theorem EncodeFormat.lpcfUnvoicedM1 (e : BitVec 4) (p : BitVec 5) (lo : KLow) : EncodeFormat.Statement (.lpcfUnvoicedM1 e p lo) := ⟨rfl, rfl⟩

theorem EncodeFormat.lpcfVoicedM1 (e : BitVec 4) (p : BitVec 5) (lo : KLow) (hi : KHigh) : EncodeFormat.Statement (.lpcfVoicedM1 e p lo hi) := ⟨rfl, rfl⟩

theorem EncodeFormat.note3 (k : Fin 8) (r : NoteRec) : EncodeFormat.Statement (.note3 k r) := ⟨rfl, rfl⟩

end Sys2Proof.Laws
end

