-- ==== Sys2Proof/Tests/Slice0.lean ====
section
/-! SUPPORT. Tests. Expected values come from the spec's own vectors (spec/95_test_vectors.md V1 to V62), its
worked examples, or its encodings written out by hand; after them one witness for each statement with hypotheses. -/
namespace Sys2Proof.Machine.Tests

/-! ## Well-formedness: an ill-formed term for each check (R90, R91) -/

theorem test_wf_refuses_energy_0_and_15 :
    [Instr.lpcfRepeatM0 0 5, .lpcfRepeatM0 15 5, .lpcfUnvoicedM0 0 0 ⟨1, 2, 3, 4⟩, .lpcfUnvoicedM0 15 0 ⟨1, 2, 3, 4⟩,
      .lpcfVoicedM0 0 9 ⟨1, 2, 3, 4⟩ ⟨5, 6, 7, 1, 2, 3⟩, .lpcfVoicedM0 15 9 ⟨1, 2, 3, 4⟩ ⟨5, 6, 7, 1, 2, 3⟩,
      .lpcfRepeatM1 0 5, .lpcfRepeatM1 15 5, .lpcfUnvoicedM1 0 0 ⟨1, 2, 3, 4⟩, .lpcfUnvoicedM1 15 0 ⟨1, 2, 3, 4⟩,
      .lpcfVoicedM1 0 9 ⟨1, 2, 3, 4⟩ ⟨5, 6, 7, 1, 2, 3⟩, .lpcfVoicedM1 15 9 ⟨1, 2, 3, 4⟩ ⟨5, 6, 7, 1, 2, 3⟩].map
      wellFormed = List.replicate 12 false := by decide

theorem test_wf_accepts_energy_1_and_14 :
    [Instr.lpcfRepeatM0 1 5, .lpcfRepeatM1 14 5, .nib4 0, .mixBind 9 0 0 0].map wellFormed = List.replicate 4 true := by
  decide

/-- Pitch 0 has period 0, every other pitch another (as in the spec's test tables LT). -/
def voicedLT : BitVec 1 → BitVec 6 → Bool := fun _ p => p != 0

theorem test_wf_refuses_a_row_of_the_other_period :
    [Instr.lpcfUnvoicedM0 3 9 ⟨1, 2, 3, 4⟩, .lpcfVoicedM0 3 0 ⟨1, 2, 3, 4⟩ ⟨5, 6, 7, 1, 2, 3⟩,
      .lpcfUnvoicedM1 3 9 ⟨1, 2, 3, 4⟩, .lpcfVoicedM1 3 0 ⟨1, 2, 3, 4⟩ ⟨5, 6, 7, 1, 2, 3⟩].map (periodFits voicedLT) =
      List.replicate 4 false := by decide

/-! ## Decoding: words written out from the encodings of R83, R85, R87, R91 -/

theorem test_decode_ima : decodeCommand ⟨0x00, 1, 2, 3, 4⟩ = some .imaReset ∧
    decodeCommand ⟨0x01, 1, 2, 3, 4⟩ = some .imaHasNext ∧ decodeCommand ⟨0x02, 1, 2, 3, 4⟩ = some .imaNext ∧
    decodeCommand ⟨0x03, 0x100, 16, 3, 4⟩ = some (.imaAttach 0x100 16) := by decide

theorem test_decode_twobit : decodeCommand ⟨0x10, 1, 2, 3, 4⟩ = some .twobitReset ∧
    decodeCommand ⟨0x11, 1, 2, 3, 4⟩ = some .twobitHasNext ∧ decodeCommand ⟨0x12, 1, 2, 3, 4⟩ = some .twobitNext ∧
    decodeCommand ⟨0x13, 0x20, 10, 3, 4⟩ = some (.twobitAttach 0x20 10) := by decide

theorem test_decode_lpc : decodeCommand ⟨0x20, 1, 2, 3, 4⟩ = some .lpcReset ∧
    decodeCommand ⟨0x21, 1, 2, 3, 4⟩ = some .lpcHasNext ∧ decodeCommand ⟨0x22, 1, 2, 3, 4⟩ = some .lpcNext ∧
    decodeCommand ⟨0x23, 0, 9, 3, 4⟩ = some (.lpcAttach 0 9) ∧
    decodeCommand ⟨0x24, 0xFFFFFFFE, 2, 3, 4⟩ = some (.lpcStart 0) ∧
    decodeCommand ⟨0x24, 1, 2, 3, 4⟩ = some (.lpcStart 1) := by decide

theorem test_decode_mix : decodeCommand ⟨0x30, 1, 2, 3, 4⟩ = some .mixReset ∧
    decodeCommand ⟨0x31, 1, 3, 2, 5⟩ = some (.mixBind 1 3 2 5) ∧ decodeCommand ⟨0x32, 1, 2, 3, 4⟩ = some .mixAllOff ∧
    decodeCommand ⟨0x33, 1, 2, 3, 4⟩ = some .mixTick := by decide

theorem test_decode_player : decodeCommand ⟨0x40, 1, 2, 3, 4⟩ = some .playerReset ∧
    decodeCommand ⟨0x41, 0, 0xABCDFFC0, 3, 4⟩ = some (.playerSelect 0 0xFFC0) ∧
    decodeCommand ⟨0x42, 0xABCD003D, 2, 3, 4⟩ = some (.playerPoll 0x3D) ∧
    decodeCommand ⟨0x43, 1, 2, 3, 4⟩ = some .playerTick := by decide

/-- V60. -/
theorem test_decode_reserved :
    [0x04, 0x14, 0x25, 0x34, 0x44, 0x50, 0xFF].map (fun c => decodeCommand ⟨BitVec.ofNat 8 c, 1, 2, 3, 4⟩) =
      List.replicate 7 none := by decide

theorem test_decode_codes :
    decode voicedLT (.nib4 7) = .ok (.nib4 7) ∧ decode voicedLT (.code2 0) = .ok .code2_0 ∧
    decode voicedLT (.code2 1) = .ok .code2_1 ∧ decode voicedLT (.code2 2) = .ok .code2_2 ∧
    decode voicedLT (.code2 3) = .ok .code2_3 ∧
    decode voicedLT (.note3 2 ⟨250, 500, 125⟩) = .ok (.note3 2 ⟨250, 500, 125⟩) := by decide

/-- A field of `n` bits, written as a binary numeral. -/
def bits (n w : Nat) : List Bool := (List.range n).map fun j => w.testBit (n - 1 - j)

theorem test_decode_silence_and_stop :
    decode voicedLT (.lpcf 0 [false, false, false, false]) = .ok .lpcfSilence ∧
    decode voicedLT (.lpcf 1 [true, true, true, true]) = .ok .lpcfStop := by decide

/-- V22, frames 1 and 2. -/
theorem test_decode_mode0 :
    decode voicedLT (.lpcf 0 (bits 11 0b01001000000)) = .ok (.lpcfRepeatM0 4 0) ∧
    decode voicedLT (.lpcf 0 (bits 29 0b00110000000_10010_01110_1001_0111)) = .ok (.lpcfUnvoicedM0 3 0 ⟨18, 14, 9, 7⟩) ∧
    decode voicedLT (.lpcf 0 (bits 50 0b10000101000_10100_01100_1010_0101_1001_1000_0111_101_011_100)) =
      .ok (.lpcfVoicedM0 8 40 ⟨20, 12, 10, 5⟩ ⟨9, 8, 7, 5, 3, 4⟩) := by decide

/-- V33, and the mode 1 forms of V22's frames. -/
theorem test_decode_mode1 :
    decode voicedLT (.lpcf 1 (bits 10 0b0100100000)) = .ok (.lpcfRepeatM1 4 0) ∧
    decode voicedLT (.lpcf 1 (bits 28 0b0011000000_10010_01110_1001_0111)) = .ok (.lpcfUnvoicedM1 3 0 ⟨18, 14, 9, 7⟩) ∧
    decode voicedLT (.lpcf 1 (bits 49 0b1000010000_10100_01100_1010_0101_1001_1000_0111_101_011_100)) =
      .ok (.lpcfVoicedM1 8 16 ⟨20, 12, 10, 5⟩ ⟨9, 8, 7, 5, 3, 4⟩) := by decide

/-- V33: read in mode 0 the same bytes are a VOICED frame that does not end in them. -/
theorem test_decode_truncated :
    decode voicedLT (.lpcf 0 (bits 32 0b0011000000_10010_01110_1001_0111_1111)) = .error (.frameTruncated 32) := by decide

/-! ## A small machine: the spec's test tables -/

/-- LT of spec/95_test_vectors.md 2.4, but for the period table. -/
def tablesLT : LpcTables where
  energy := Vector.ofFn fun c => BitVec.ofNat 16 (16 * c.val)
  k1 := Vector.ofFn fun c => BitVec.ofInt 16 ((c.val - 16) * 1024)
  k2 := Vector.ofFn fun c => BitVec.ofInt 16 ((c.val - 16) * 768)
  k3 := Vector.ofFn fun c => BitVec.ofInt 8 ((c.val - 8) * 10)
  k4 := Vector.ofFn fun c => BitVec.ofInt 8 ((c.val - 8) * 10)
  k5 := Vector.ofFn fun c => BitVec.ofInt 8 ((c.val - 8) * 10)
  k6 := Vector.ofFn fun c => BitVec.ofInt 8 ((c.val - 8) * 10)
  k7 := Vector.ofFn fun c => BitVec.ofInt 8 ((c.val - 8) * 10)
  k8 := Vector.ofFn fun c => BitVec.ofInt 8 ((c.val - 4) * 12)
  k9 := Vector.ofFn fun c => BitVec.ofInt 8 ((c.val - 4) * 12)
  k10 := Vector.ofFn fun c => BitVec.ofInt 8 ((c.val - 4) * 12)

/-- LT, TS of V11 and the `MIX_AMP` of V40 to V46. -/
def testParams : Params where
  imaStep := Config.imaStep
  imaAdj := Config.imaAdj
  imaInitPred := 0
  imaInitIdx := 0
  twobitStep := #v[2, 3, 4, 5, 6, 8, 10, 13, 16, 20, 25, 32, 40, 50, 64, 80]
  lpc0 := tablesLT
  lpc1 := tablesLT
  lpcPeriod0 := Vector.ofFn fun p => if p.val = 0 then 0 else BitVec.ofNat 8 (12 + p.val)
  lpcPeriod1 := Vector.ofFn fun p => if p.val = 0 then 0 else BitVec.ofNat 8 (20 + 2 * p.val)
  lpcWave := Vector.ofFn fun i => BitVec.ofInt 8 ((37 * i.val % 101 : Nat) - 50)
  lpcNarrowWrap := true
  mixAmp := 32
  mixLimit := 220
  mixBias := 128

/-- The machine after power-on with the test tables, 16 bytes of `ROM` and 4 records of `NOTE`. -/
def quiet : State :=
  { State.reset with params := testParams, rom := { size := 16, cells := [] }, note := { size := 4, cells := [] } }

/-- `quiet` with bytes in `ROM`, listed by address. -/
def withRom (cells : List Host.Cell) : State := { quiet with rom := { size := 16, cells := cells } }

/-- The state after one command, where there is one. -/
def after (s : State) (cmd : Byte) (a b c d : Word) : Option State :=
  match step { s with port := [⟨cmd, a, b, c, d⟩] } with
  | .next t => some t
  | .fault _ => none
  | .refused _ => none

/-- The reason a command is refused for, where it is. -/
def refusal (s : State) (cmd : Byte) (a b c d : Word) : Option Refusal :=
  match step { s with port := [⟨cmd, a, b, c, d⟩] } with
  | .next _ => none
  | .fault _ => none
  | .refused r => some r

/-- The state an instruction leaves, where there is one. -/
def run (i : Instr) (s : State) : Option State :=
  match exec i s with
  | .next t => some t
  | .fault _ => none
  | .refused _ => none

/-! ## Reset and refusals (V60, V61) -/

theorem test_reset_hasNext : (after State.reset 0x01 0 0 0 0).map (·.res) = some 0 ∧
    (after State.reset 0x11 0 0 0 0).map (·.res) = some 0 ∧ (after State.reset 0x21 0 0 0 0).map (·.res) = some 1 := by
  decide

theorem test_reset_lpc_next_refused : refusal State.reset 0x22 0 0 0 0 = some (.streamOverrun .lpc 0) := by decide

theorem test_reset_mix_tick : (after State.reset 0x33 0 0 0 0).map (·.res) = some 128 := by decide

theorem test_illegal_command : refusal State.reset 0x25 0 0 0 0 = some (.illegalCommand 0x25) := by decide

theorem test_no_command : step State.reset = .next State.reset := rfl

/-! ## IMA (V1, V2, V5, V62) -/

theorem test_ima_attach : (after (withRom []) 0x03 3 4 0 0).map (·.ima) =
    some { base := 3, len := 4, cur := 0, nib := 0, pred := 0, idx := 0 } := by decide

theorem test_ima_next_low_nibble :
    (after { withRom [(0, 0x21), (1, 0x43)] with
        ima := { base := 0, len := 3, cur := 0, nib := 0, pred := 0, idx := 0 } } 0x02 0 0 0 0).map
      (fun t => (t.res, t.ima)) = some (1, { base := 0, len := 3, cur := 0, nib := 1, pred := 1, idx := 0 }) := by
  decide

theorem test_ima_next_negative :
    (after { withRom [(1, 0x7F)] with
        ima := { base := 0, len := 14, cur := 1, nib := 0, pred := 13, idx := 7 } } 0x02 0 0 0 0).map
      (fun t => (t.res, t.ima)) =
      some (0xFFF4, { base := 0, len := 14, cur := 1, nib := 1, pred := BitVec.ofInt 16 (-12), idx := 15 }) := by
  decide

theorem test_nib4_saturates :
    (run (.nib4 7) { quiet with
        ima := { base := 0, len := 16, cur := 5, nib := 1, pred := 25039, idx := 80 } }).map (fun t => (t.res, t.ima)) =
      some (32767, { base := 0, len := 16, cur := 6, nib := 0, pred := 32767, idx := 88 }) := by decide

theorem test_ima_reset : (after { quiet with
    ima := { base := 5, len := 9, cur := 3, nib := 1, pred := 77, idx := 44 } } 0x00 0 0 0 0).map (·.ima) =
    some { base := 5, len := 9, cur := 0, nib := 0, pred := 0, idx := 0 } := by decide

theorem test_ima_hasNext : (after { quiet with
    ima := { base := 0, len := 3, cur := 1, nib := 0, pred := 4, idx := 0 } } 0x01 0 0 0 0).map (·.res) = some 1 ∧
    (after { quiet with
      ima := { base := 0, len := 3, cur := 1, nib := 1, pred := 8, idx := 0 } } 0x01 0 0 0 0).map (·.res) = some 0 := by
  decide

theorem test_ima_overrun : refusal { quiet with
    ima := { base := 15, len := 4, cur := 1, nib := 0, pred := 0, idx := 0 } } 0x02 0 0 0 0 =
    some (.streamOverrun .ima 16) := by decide

/-! ## TWOBIT (V10, V11) -/

theorem test_twobit_attach : (after { quiet with
    twobit := { base := 1, len := 2, cur := 3, pos := 1, pred := 9, idx := 7 } } 0x13 2 26 0 0).map (·.twobit) =
    some { base := 2, len := 26, cur := 0, pos := 0, pred := 128, idx := 0 } := by decide

theorem test_twobit_reset : (after { quiet with
    twobit := { base := 1, len := 2, cur := 3, pos := 1, pred := 9, idx := 7 } } 0x10 0 0 0 0).map (·.twobit) =
    some { base := 1, len := 2, cur := 0, pos := 0, pred := 128, idx := 0 } := by decide

theorem test_twobit_hasNext : (after { quiet with
    twobit := { base := 0, len := 5, cur := 1, pos := 0, pred := 9, idx := 7 } } 0x11 0 0 0 0).map (·.res) = some 1 ∧
    (after { quiet with
      twobit := { base := 0, len := 5, cur := 1, pos := 1, pred := 9, idx := 7 } } 0x11 0 0 0 0).map (·.res) =
      some 0 := by decide

/-- Byte 1B, third code. -/
theorem test_twobit_next : (after { withRom [(0, 0x1B)] with
    twobit := { base := 0, len := 26, cur := 0, pos := 2, pred := 128, idx := 0 } } 0x12 0 0 0 0).map
      (fun t => (t.res, t.twobit)) =
    some (0xFC00, { base := 0, len := 26, cur := 0, pos := 3, pred := 124, idx := 2 }) := by decide

theorem test_twobit_next_saturates : (after { withRom [(0, 0x1B), (1, 0xFF), (2, 0xFF)] with
    twobit := { base := 0, len := 26, cur := 2, pos := 3, pred := 246, idx := 15 } } 0x12 0 0 0 0).map
      (fun t => (t.res, t.twobit)) =
    some (0x7F00, { base := 0, len := 26, cur := 3, pos := 0, pred := 255, idx := 15 }) := by decide

theorem test_code2 :
    let s : State := { quiet with twobit := { base := 0, len := 26, cur := 0, pos := 0, pred := 128, idx := 0 } }
    (run .code2_0 s).map (fun t => (t.twobit.pred, t.twobit.idx)) = some (126, 0) ∧
    (run .code2_1 s).map (fun t => (t.twobit.pred, t.twobit.idx)) = some (130, 0) ∧
    (run .code2_2 s).map (fun t => (t.twobit.pred, t.twobit.idx)) = some (124, 2) ∧
    (run .code2_3 s).map (fun t => (t.twobit.pred, t.twobit.idx)) = some (132, 2) := by decide

/-! ## LPC (V20, V30 to V36, V60) -/

/-- The bytes of V30. -/
def utterance : List Host.Cell :=
  [(0, 0xA1), (1, 0x28), (2, 0xA6), (3, 0x34), (4, 0xC3), (5, 0xEB), (6, 0x48), (7, 0xE0), (8, 0x01)]

/-- `LPC` just attached to `len` bytes at address 0 in a chip mode. -/
def freshLpc (len : Word) (mode : BitVec 1) : Lpc := { State.reset.lpc with len := len, mode := mode }

/-- V30 after `LPC.ATTACH` and `LPC.START`. -/
def speaking : State := { withRom utterance with lpc := freshLpc 9 0 }

/-- V20. -/
theorem test_getBits : getBits (lpcBit speaking.rom speaking.lpc) 4 0 = .ok (8, 4) ∧
    getBits (lpcBit speaking.rom speaking.lpc) 1 4 = .ok (0, 5) ∧
    getBits (lpcBit speaking.rom speaking.lpc) 6 5 = .ok (40, 11) := by decide

/-- V30, sample 1. -/
theorem test_lpc_next_frame : (after speaking 0x22 0 0 0 0).map
    (fun t => (t.res, t.lpc.cur, t.lpc.bit, t.lpc.fpos, t.lpc.energy, t.lpc.period, t.lpc.ppos)) =
    some (0xF9C0, 6, 2, 1, 128, 52, 1) := by decide +kernel

theorem test_lpc_next_delay_line : (after speaking 0x22 0 0 0 0).map (fun t => t.lpc.x.toList.map BitVec.toInt) =
    some [-25, -4, 2, -4, 5, -2, 0, 1, -3, 2] := by decide +kernel

/-- The state before V31. -/
def loaded : State :=
  { quiet with
    lpc := { freshLpc 0 0 with
      fpos := 5, energy := 200, lfsr := 0xB800
      k := ⟨BitVec.ofInt 16 (-20000), 15000, 70, BitVec.ofInt 8 (-80), 60, BitVec.ofInt 8 (-50), 40,
        BitVec.ofInt 8 (-30), 20, BitVec.ofInt 8 (-10)⟩
      x := #v[300, BitVec.ofInt 16 (-400), 1000, BitVec.ofInt 16 (-1200), 900, BitVec.ofInt 16 (-700), 500,
        BitVec.ofInt 16 (-300), 200, BitVec.ofInt 16 (-100)] } }

theorem test_lattice_wrapped : (run .lpcNext loaded).map (fun t => (t.lpc.fpos, t.lpc.x.toList.map BitVec.toInt)) =
    some (6, [-38, 323, -502, 777, -968, 837, -613, 355, -228, 162]) := by decide

theorem test_lattice_exact :
    (run .lpcNext { loaded with params := { testParams with lpcNarrowWrap := false } }).map
      (fun t => (t.res, t.lpc.x.toList.map BitVec.toInt)) =
    some (0x8000, [-512, 612, -1440, -343, -8, 357, -413, 355, -228, 162]) := by decide +kernel

/-- V32: the energy wraps into i16, the output clamps, the frame position wraps. -/
theorem test_lpc_clamp :
    (run .lpcNext { quiet with lpc := { freshLpc 0 0 with fpos := 5, energy := 60000, lfsr := 2 } }).map
      (fun t => (t.res, t.lpc.x[0].toInt, t.lpc.lfsr)) = some (0x8000, -512, 1) ∧
    (run .lpcNext { quiet with lpc := { freshLpc 0 0 with fpos := 199, energy := 700, lfsr := 2 } }).map
      (fun t => (t.res.toNat, t.lpc.fpos)) = some (32704, 0) := by decide +kernel

theorem test_lpc_reset : (after loaded 0x20 0 0 0 0).map (·.lpc) = some (freshLpc 0 0) := by decide

theorem test_lpc_attach : (after loaded 0x23 0 9 0 0).map (·.lpc) = some (freshLpc 9 0) := by decide

theorem test_lpc_start : (after loaded 0x24 1 0 0 0).map (·.lpc) = some (freshLpc 0 1) ∧
    (after loaded 0x24 0xFFFFFFFE 0 0 0).map (·.lpc.mode) = some 0 := by decide

/-- V34 (a). -/
theorem test_lpc_stop : (after { withRom [(0, 0x0F)] with lpc := freshLpc 1 0 } 0x22 0 0 0 0).map
    (fun t => (t.res, t.lpc.cur, t.lpc.bit, t.lpc.fpos, t.lpc.fin)) = some (0, 0, 4, 0, true) := by decide

/-- V34 (c). -/
theorem test_lpc_overrun : refusal { quiet with lpc := { freshLpc 1 0 with cur := 1 } } 0x22 0 0 0 0 =
    some (.streamOverrun .lpc 1) := by decide

theorem test_lpc_hasNext : (after speaking 0x21 0 0 0 0).map (·.res) = some 1 ∧
    (after { speaking with lpc := { speaking.lpc with fin := true } } 0x21 0 0 0 0).map (·.res) = some 0 := by decide

/-- V36: position 30 is used once, then wraps under a period of 20. -/
theorem test_voiced_position : lpcNextPpos { loaded.lpc with period := 20, ppos := 30 } = 0 ∧
    lpcNextPpos { loaded.lpc with period := 52, ppos := 50 } = 51 ∧
    lpcNextPpos { loaded.lpc with period := 52, ppos := 51 } = 0 := by decide

/-- V30, frames 1 and 2 as rows. -/
theorem test_lpcf_voiced_m0 :
    (run (.lpcfVoicedM0 8 40 ⟨20, 12, 10, 5⟩ ⟨9, 8, 7, 5, 3, 4⟩) { quiet with lpc := freshLpc 9 0 }).map
      (fun t => (t.lpc.energy, t.lpc.period, t.lpc.cur, t.lpc.bit, t.lpc.k)) =
    some (128, 52, 6, 2, ⟨4096, BitVec.ofInt 16 (-3072), 20, BitVec.ofInt 8 (-30), 10, 0, BitVec.ofInt 8 (-10), 12,
      BitVec.ofInt 8 (-12), 0⟩) := by decide

theorem test_lpcf_repeat_m0 : (run (.lpcfRepeatM0 4 0) { loaded with lpc := { loaded.lpc with len := 9 } }).map
    (fun t => (t.lpc.energy, t.lpc.period, t.lpc.k)) =
    some (64, 0, ⟨BitVec.ofInt 16 (-20000), 15000, 70, BitVec.ofInt 8 (-80), 0, 0, 0, 0, 0, 0⟩) := by decide

theorem test_lpcf_unvoiced_m0 : (run (.lpcfUnvoicedM0 3 0 ⟨18, 14, 9, 7⟩) { quiet with lpc := freshLpc 9 0 }).map
    (fun t => (t.lpc.cur, t.lpc.bit, t.lpc.k)) =
    some (3, 5, ⟨2048, BitVec.ofInt 16 (-1536), 10, BitVec.ofInt 8 (-10), 0, 0, 0, 0, 0, 0⟩) := by decide

/-- V33. -/
theorem test_lpcf_unvoiced_m1 : (run (.lpcfUnvoicedM1 3 0 ⟨18, 14, 9, 7⟩) { quiet with lpc := freshLpc 4 1 }).map
    (fun t => (t.lpc.cur, t.lpc.bit, t.lpc.energy, t.lpc.period, t.lpc.k)) =
    some (3, 4, 48, 0, ⟨2048, BitVec.ofInt 16 (-1536), 10, BitVec.ofInt 8 (-10), 0, 0, 0, 0, 0, 0⟩) := by decide

/-- R92: 49 bits; LT gives pitch 16 the period 52. -/
theorem test_lpcf_voiced_m1 :
    (run (.lpcfVoicedM1 8 16 ⟨20, 12, 10, 5⟩ ⟨9, 8, 7, 5, 3, 4⟩) { quiet with lpc := freshLpc 9 1 }).map
      (fun t => (t.lpc.energy, t.lpc.period, t.lpc.cur, t.lpc.bit)) = some (128, 52, 6, 1) := by decide

theorem test_lpcf_repeat_m1 :
    (run (.lpcfRepeatM1 4 16) { loaded with lpc := { loaded.lpc with len := 9, mode := 1 } }).map
      (fun t => (t.lpc.energy, t.lpc.period, t.lpc.cur, t.lpc.bit, decide (t.lpc.k = loaded.lpc.k))) =
    some (64, 52, 1, 2, true) := by decide

theorem test_lpcf_silence : (run .lpcfSilence { loaded with lpc := { loaded.lpc with len := 9, period := 7 } }).map
    (fun t => (t.lpc.energy, t.lpc.period, t.lpc.bit, decide (t.lpc.k = loaded.lpc.k))) = some (0, 0, 4, true) := by
  decide

theorem test_lpcf_stop : (run .lpcfStop { loaded with lpc := { loaded.lpc with len := 9, period := 7 } }).map
    (fun t => (t.lpc.energy, t.lpc.period, t.lpc.fin, t.lpc.k)) = some (0, 7, true, LpcK.zero) := by decide

/-! ## MIX (V40 to V45) -/

theorem test_phaseInc : [(7645, 1), (7645, 2), (250, 1), (125, 1), (1, 1), (0, 1), (3, 4), (1000000, 1),
      (4294967295, 1)].map (fun (p, s) => (phaseInc (BitVec.ofNat 32 p) (BitVec.ofNat 32 s)).toNat) =
    [70225103, 140468580, 0x80000000, 0, 0, 0, 0, 536871, 125] := by decide

theorem test_finish : [0, -32, 32, 126, 127, 220, 256, -128, -220, -256].map (fun x => (mixOutput testParams x).toNat) =
    [128, 96, 160, 254, 255, 255, 255, 0, 0, 0] := by decide

/-- The records of V41. -/
def tune : State :=
  { quiet with note := { size := 4, cells := [(0, ⟨250, 500, 250⟩), (1, ⟨0, 1000, 0⟩), (2, ⟨500, 375, 125⟩),
    (3, ⟨1000, 250, 0⟩)] } }

theorem test_mix_bind : (after tune 0x31 0 0 3 0).map (·.mix.track[0]) =
    some { seqBase := 0, seqLen := 3, index := 0, delayLeftUs := 250, durationLeftUs := 0, pitchShift := 1,
           armed := true } ∧
    after tune 0x31 8 3 1 1 = some tune ∧ (after tune 0x31 0 0 0 1).map (·.mix.track[0].armed) = some false := by decide

/-- The mixer of V41 with tracks 0 and 1 in the given states. -/
def bothTracks (t0 t1 : Track) (v0 v1 : Voice) : State :=
  { tune with mix := { voice := (tune.mix.voice.set 0 v0).set 1 v1, track := (tune.mix.track.set 0 t0).set 1 t1 } }

/-- V41, tick 2: track 0 starts a note, voice 1 sounds on. -/
theorem test_mix_tick_starts_a_note :
    (after (bothTracks
        { seqBase := 0, seqLen := 3, index := 0, delayLeftUs := 125, durationLeftUs := 0, pitchShift := 1, armed := true }
        { seqBase := 3, seqLen := 1, index := 1, delayLeftUs := -125, durationLeftUs := 250, pitchShift := 1,
          armed := true }
        Voice.reset { phase := 0x20000000, phaseInc := 0x20000000, active := true, amp := 32 }) 0x33 0 0 0 0).map
      (fun t => (t.res, t.mix.track[0].index, t.mix.track[0].durationLeftUs, t.mix.voice[0], t.mix.voice[1].phase)) =
    some (128, 1, 500, { phase := 0x80000000, phaseInc := 0x80000000, active := true, amp := 32 }, 0x40000000) := by
  decide

/-- V41, tick 3: voice 1 ends its last note and its track is disarmed. -/
theorem test_mix_tick_ends_a_note :
    (after (bothTracks
        { seqBase := 0, seqLen := 3, index := 1, delayLeftUs := 0, durationLeftUs := 500, pitchShift := 1, armed := true }
        { seqBase := 3, seqLen := 1, index := 1, delayLeftUs := -125, durationLeftUs := 125, pitchShift := 1,
          armed := true }
        { phase := 0x80000000, phaseInc := 0x80000000, active := true, amp := 32 }
        { phase := 0x40000000, phaseInc := 0x20000000, active := true, amp := 32 }) 0x33 0 0 0 0).map
      (fun t => (t.res, t.mix.track[1].armed, t.mix.voice[1].active, t.mix.voice[1].amp)) =
    some (96, false, false, 0) := by decide

/-- V41, tick 7: a rest is consumed and leaves the voice inactive. -/
theorem test_note3_rest :
    (run (.note3 0 ⟨0, 1000, 0⟩) (bothTracks
        { seqBase := 0, seqLen := 3, index := 1, delayLeftUs := 0, durationLeftUs := 0, pitchShift := 1, armed := true }
        Track.reset { phase := 7, phaseInc := 0x80000000, active := false, amp := 0 } Voice.reset)).map
      (fun t => (t.mix.track[0].index, t.mix.track[0].delayLeftUs, t.mix.track[0].durationLeftUs, t.mix.voice[0])) =
    some (2, -125, 1000, { phase := 0, phaseInc := 0, active := false, amp := 32 }) := by decide

/-- V44: `amp`, phase and `armed` survive. -/
theorem test_mix_allOff :
    (after (bothTracks
        { seqBase := 0, seqLen := 2, index := 1, delayLeftUs := -125, durationLeftUs := 750, pitchShift := 1,
          armed := true }
        Track.reset { phase := 0x80000000, phaseInc := 0x80000000, active := true, amp := 32 } Voice.reset)
        0x32 0 0 0 0).map (fun t => (t.mix.track[0], t.mix.voice[0])) =
    some ({ seqBase := 0, seqLen := 2, index := 1, delayLeftUs := -125, durationLeftUs := 0, pitchShift := 1,
            armed := true }, { phase := 0x80000000, phaseInc := 0x80000000, active := false, amp := 32 }) := by decide

theorem test_mix_reset : (after (bothTracks { Track.reset with seqBase := 1, pitchShift := 9, armed := true }
    Track.reset { Voice.reset with phase := 1, active := true } Voice.reset) 0x30 0 0 0 0).map
      (fun t => (t.mix.track[0], t.mix.voice[0])) = some (Track.reset, Voice.reset) := by decide

/-! ## PLAYER (V50 to V53) -/

theorem test_duty16 : [0, -32768, 32767, -1, 255, 256, -256, -257, 11, -12, 32512, -512].map
    (fun x => (duty16 (BitVec.ofInt 16 x)).toNat) = [128, 0, 255, 127, 128, 129, 127, 126, 128, 127, 255, 126] := by
  decide

/-- The player ticking the mixer with a mark. -/
def playing (mark : BitVec 16) : State :=
  { quiet with player := { sel := 3, run := true, mark := mark, duty := none } }

theorem test_player_poll : (after (playing 0xFF00) 0x42 0xFF7C 0 0 0).map (fun t => (t.res, t.player)) =
      some (0, { sel := 3, run := true, mark := 0xFF00, duty := none }) ∧
    (after (playing 0xFFFA) 0x42 0xABCD0077 0 0 0).map (fun t => (t.res, t.player)) =
      some (0x180, { sel := 3, run := true, mark := 0x0077, duty := some 128 }) := by decide

theorem test_player_not_running : (after quiet 0x43 0 0 0 0) = some quiet ∧
    (after quiet 0x42 0x1234 0 0 0) = some quiet ∧ (after quiet 0x41 4 0 0 0) = some quiet := by decide

/-- V53, the tick past the end. -/
theorem test_player_tick_at_end : (after { quiet with
    ima := { base := 0, len := 3, cur := 1, nib := 1, pred := 8, idx := 0 }
    player := { sel := 0, run := true, mark := 0, duty := none } } 0x43 0 0 0 0).map
      (fun t => (t.res, t.player.duty, t.ima.pred)) = some (128, some 128, 8) := by decide

theorem test_player_select : (after quiet 0x41 2 0x7FF00 0 0).map (·.player) =
    some { sel := 2, run := true, mark := 0xFF00, duty := none } := by decide

theorem test_player_reset : (after (playing 5) 0x40 0 0 0 0).map (·.player) =
    some { sel := 0, run := false, mark := 0, duty := none } := by decide

/-! ## Words as spec/opcode_table.json numbers them -/

/-- V22's first frame, its first bit being bit 0 of the word; a command word with operands; a note record. -/
theorem test_table_words : decodeTableWord 50 (0x48EBC334A628A1 % 2 ^ 50) =
      some (.lpcfVoicedM0 8 40 ⟨20, 12, 10, 5⟩ ⟨9, 8, 7, 5, 3, 4⟩) ∧
    decodeTableWord 10 0b0000010010 = some (.lpcfRepeatM1 4 0) ∧ decodeTableWord 8 0x22 = some .lpcNext ∧
    decodeTableWord 8 0x44 = none ∧ decodeTableWord 136 (0x100000001003) = some (.imaAttach 0x10 0x10) ∧
    decodeTableWord 96 (250 + 500 * 2 ^ 32 + 125 * 2 ^ 64) = some (.note3 0 ⟨250, 500, 125⟩) := by decide

theorem test_placed_word : (match step (State.reset.withFetchWord 8 0x33) with
    | .next t => some (t.res, t.port)
    | .fault _ => none
    | .refused _ => none) = some (128, []) := by decide

/-! ## Witnesses: concrete states and operands that meet the hypotheses of the statements -/

theorem witness_DecodeEncodeRoundTrip :
    (wellFormed (.lpcfVoicedM1 14 31 ⟨31, 31, 15, 15⟩ ⟨15, 15, 15, 7, 7, 7⟩) = true ∧
      periodFits voicedLT (.lpcfVoicedM1 14 31 ⟨31, 31, 15, 15⟩ ⟨15, 15, 15, 7, 7, 7⟩) = true) ∧
    (wellFormed (.lpcfUnvoicedM0 1 0 ⟨0, 0, 0, 0⟩) = true ∧ periodFits voicedLT (.lpcfUnvoicedM0 1 0 ⟨0, 0, 0, 0⟩) = true) := by
  decide

theorem witness_DecodedCommandsEncodeToTheirWord : decodeCommand ⟨0x24, 0xFFFFFFFF, 1, 2, 3⟩ = some (.lpcStart 1) := by
  decide

theorem witness_FramesParseAtAnyBit :
    let f : Frame := .voiced 8 31 ⟨20, 12, 10, 5⟩ ⟨9, 8, 7, 5, 3, 4⟩
    let src : BitSource := fun q => if q < 3 then none else (frameBits 1 f)[q - 3]?
    frameFits 1 (voicedLT 1) f ∧ ∀ j (h : j < (frameBits 1 f).length), src (3 + j) = some (frameBits 1 f)[j] := by
  refine ⟨by simp [frameFits, normalEnergy, voicedLT], ?_⟩
  decide

/-- The last bits of the window, and the first bit behind it. -/
theorem witness_GetBitsReadsMostSignificantFirst :
    (∀ j, j < 4 → (68 + j) / 8 < speaking.lpc.len.toNat ∧ speaking.lpc.base.toNat + (68 + j) / 8 < speaking.rom.size) ∧
    (∀ i, i < 2 → (70 + i) / 8 < speaking.lpc.len.toNat ∧ speaking.lpc.base.toNat + (70 + i) / 8 < speaking.rom.size) ∧
    ¬ ((70 + 2) / 8 < speaking.lpc.len.toNat ∧ speaking.lpc.base.toNat + (70 + 2) / 8 < speaking.rom.size) := by decide

/-- `quiet` with one command issued. -/
def issued (cmd : Byte) (a b c d : Word) : State := { quiet with port := [⟨cmd, a, b, c, d⟩] }

theorem witness_StepRunsTheDecodedCommand : (issued 0x33 0 0 0 0).port = ⟨0x33, 0, 0, 0, 0⟩ :: [] ∧
    decodeCommand ⟨0x33, 0, 0, 0, 0⟩ = some .mixTick := by decide

theorem witness_ReservedCommandsAreRefused :
    (issued 0x44 0 0 0 0).port = ⟨0x44, 0, 0, 0, 0⟩ :: [] ∧ (issued 0x43 0 0 0 0).port = ⟨0x43, 0, 0, 0, 0⟩ :: [] := by
  decide

theorem witness_PlacedCommandWordsRun : quiet.port = [] ∧ decodeTableWord 8 0x24 = some (.lpcStart 0) := by decide

theorem testParams_wf : testParams.wf := by decide

theorem witness_EveryStepKeepsTheInvariant :
    Inv { speaking with port := [⟨0x33, 0, 0, 0, 0⟩] } ∧
      ∃ t, step { speaking with port := [⟨0x33, 0, 0, 0, 0⟩] } = .next t :=
  ⟨⟨by decide, testParams_wf, by decide, by decide, by decide, by decide, by decide⟩, _, rfl⟩

theorem witness_PullPastTheEndReturnsZero :
    (¬ 2 * quiet.ima.cur.toNat + quiet.ima.nib.toNat < quiet.ima.len.toNat) ∧
    (¬ 4 * quiet.twobit.cur.toNat + quiet.twobit.pos.toNat < quiet.twobit.len.toNat) ∧
    ({ speaking with lpc := { speaking.lpc with fin := true } } : State).lpc.fin = true := by decide

/-- The last nibble of a stream of odd length, at the last byte of `ROM`, with the top step index. -/
def lastNibble : State :=
  { withRom [(15, 0x4B)] with ima := { base := 14, len := 3, cur := 1, nib := 0, pred := 0, idx := 88 } }

theorem witness_ImaNextDecodesOneNibble : lastNibble.ima.idx.toNat < 89 ∧
    2 * lastNibble.ima.cur.toNat + lastNibble.ima.nib.toNat < lastNibble.ima.len.toNat ∧
    lastNibble.ima.base.toNat + lastNibble.ima.cur.toNat < lastNibble.rom.size ∧
    (0xB : BitVec 4) = nibbleAt
      (readCells romFill lastNibble.rom.cells (lastNibble.ima.base.toNat + lastNibble.ima.cur.toNat))
      lastNibble.ima.nib := by decide

theorem witness_ImaNibblesArePackedLowFirst :
    2 * lastNibble.ima.cur.toNat + lastNibble.ima.nib.toNat = 2 ∧ 2 < lastNibble.ima.len.toNat ∧
    lastNibble.ima.base.toNat + 2 / 2 < lastNibble.rom.size := by decide

theorem witness_ImaStreamDrainsInItsLength : ImaWindowInRom lastNibble ∧
    (∃ t, exec .imaReset lastNibble = .next t) ∧ 3 ≤ lastNibble.ima.len.toNat := ⟨by decide, ⟨_, rfl⟩, by decide⟩

/-- The last code of a window at the end of `ROM`. -/
def lastCode : State :=
  { withRom [(15, 0x1B)] with twobit := { base := 14, len := 6, cur := 1, pos := 1, pred := 255, idx := 15 } }

theorem witness_TwobitNextDecodesOneCode :
    ((1 : BitVec 2), Instr.code2_1, (1 : Int), (-1 : Int)) ∈ [((0 : BitVec 2), Instr.code2_0, (-1 : Int), (-1 : Int)),
      (1, .code2_1, 1, -1), (2, .code2_2, -2, 2), (3, .code2_3, 2, 2)] ∧
    4 * lastCode.twobit.cur.toNat + lastCode.twobit.pos.toNat < lastCode.twobit.len.toNat ∧
    lastCode.twobit.base.toNat + lastCode.twobit.cur.toNat < lastCode.rom.size ∧
    (1 : BitVec 2).toNat =
      (readCells romFill lastCode.rom.cells (lastCode.twobit.base.toNat + lastCode.twobit.cur.toNat)).toNat
        / 4 ^ (3 - lastCode.twobit.pos.toNat) % 4 := by decide

theorem witness_OnlyLpcStartChangesTheMode :
    (issued 0x24 1 0 0 0).port = ⟨0x24, 1, 0, 0, 0⟩ :: [] ∧
    ∃ t, exec (.lpcStart 1) quiet = .next t ∧ t.lpc.mode ≠ quiet.lpc.mode := ⟨by decide, _, rfl, by decide⟩

theorem witness_SilenceFrameEffect : LpcBitsStand { quiet with lpc := freshLpc 1 0 } [false, false, false, false] := by
  decide

theorem witness_StopFrameEffect :
    LpcBitsStand { withRom [(0, 0x0F)] with lpc := freshLpc 1 0 } [true, true, true, true] ∧
    ({ speaking with lpc := { speaking.lpc with fin := true } } : State).lpc.fin = true := by decide

/-- V30's second frame stands at bit 50, the first at bit 0. -/
def repeating : State := { speaking with lpc := { speaking.lpc with cur := 6, bit := 2 } }

/-- V33 in mode 1. -/
def whispering : State :=
  { withRom [(0, 0x0C), (1, 0x24), (2, 0x97), (3, 0xFE)] with lpc := freshLpc 4 1 }

theorem witness_NormalFrameEffect_repeat : (4 : BitVec 4) ≠ 0 ∧ (4 : BitVec 4) ≠ 15 ∧
    (repeating.lpc.mode = 1 → (0 : BitVec 6).toNat < 32) ∧
    LpcBitsStand repeating (fieldBits (4 : BitVec 4) ++ (true :: pitchBits repeating.lpc.mode 0)) := by decide

theorem witness_NormalFrameEffect_unvoiced : (3 : BitVec 4) ≠ 0 ∧ (3 : BitVec 4) ≠ 15 ∧
    (whispering.lpc.mode = 1 → (0 : BitVec 6).toNat < 32) ∧
    lookedUpPeriod whispering 0 = 0 ∧
    LpcBitsStand whispering (fieldBits (3 : BitVec 4) ++
      (false :: (pitchBits whispering.lpc.mode 0 ++ kLowBits ⟨18, 14, 9, 7⟩))) := by decide

theorem witness_NormalFrameEffect_voiced : (8 : BitVec 4) ≠ 0 ∧ (8 : BitVec 4) ≠ 15 ∧
    (speaking.lpc.mode = 1 → (40 : BitVec 6).toNat < 32) ∧
    lookedUpPeriod speaking 40 ≠ 0 ∧
    LpcBitsStand speaking (fieldBits (8 : BitVec 4) ++
      (false :: (pitchBits speaking.lpc.mode 40 ++ (kLowBits ⟨20, 12, 10, 5⟩ ++ kHighBits ⟨9, 8, 7, 5, 3, 4⟩)))) := by
  decide

theorem witness_SilenceAndStopRowsComplete : LpcBitsReadable speaking 4 := by decide

/-- Each clause in both modes, with the largest pitch of the mode. -/
theorem witness_NormalFrameRowsComplete :
    (let s : State := { speaking with lpc := freshLpc 7 0 }
     (14 : BitVec 4) ≠ 0 ∧ (14 : BitVec 4) ≠ 15 ∧ (s.lpc.mode = 1 → (63 : BitVec 6).toNat < 32) ∧
     LpcBitsReadable s 11 ∧ lookedUpPeriod s 0 = 0 ∧ LpcBitsReadable s 29 ∧
     lookedUpPeriod s 63 ≠ 0 ∧ LpcBitsReadable s 50) ∧
    (let s : State := { speaking with lpc := freshLpc 7 1 }
     (s.lpc.mode = 1 → (31 : BitVec 6).toNat < 32) ∧ LpcBitsReadable s 10 ∧
     lookedUpPeriod s 0 = 0 ∧ LpcBitsReadable s 28 ∧
     lookedUpPeriod s 31 ≠ 0 ∧ LpcBitsReadable s 49) := by decide

theorem witness_FrameRowsActByTheirBits :
    encode (.lpcfRepeatM0 4 0) = .lpcf 0 (bits 11 0b01001000000) ∧
    (∃ u, lpcDecodeFrame speaking.params speaking.rom (bits 11 0b01001000000) speaking.lpc = .ok u) ∧
    lpcDecodeFrame quiet.params quiet.rom (bits 11 0b01001000000) quiet.lpc = .error (.streamOverrun .lpc 0) :=
  ⟨by decide, ⟨_, rfl⟩, by decide⟩

theorem witness_LpcNextDecodesTheFrameFirst :
    (speaking.lpc.fin = false ∧ speaking.lpc.fpos = 0 ∧
      LpcFrameStands speaking (.voiced 8 40 ⟨20, 12, 10, 5⟩ ⟨9, 8, 7, 5, 3, 4⟩)) ∧
    (let s : State := { withRom [(0, 0x0F)] with lpc := freshLpc 1 0 }
     s.lpc.fin = false ∧ s.lpc.fpos = 0 ∧ LpcFrameStands s .stop) := by
  refine ⟨⟨by decide, by decide, ?_, by decide⟩, by decide, by decide, trivial, by decide⟩
  refine ⟨by decide, by decide, by decide⟩

/-- Within a frame, unvoiced and voiced, and at the start of one, voiced and unvoiced. -/
theorem witness_LpcNextSynthesisesOneSample :
    (loaded.lpc.fin = false ∧ LpcFrameInForce loaded loaded.lpc ∧ loaded.lpc.period = 0) ∧
    (let s : State := { loaded with lpc := { loaded.lpc with period := 52, fpos := 199 } }
     s.lpc.fin = false ∧ LpcFrameInForce s s.lpc ∧ s.lpc.period ≠ 0) ∧
    (speaking.lpc.fin = false ∧ ∃ v, LpcFrameInForce speaking v ∧ v.period ≠ 0) ∧
    (whispering.lpc.fin = false ∧ ∃ v, LpcFrameInForce whispering v ∧ v.period = 0) :=
  ⟨⟨by decide, .inl ⟨by decide, rfl⟩, by decide⟩, ⟨by decide, .inl ⟨by decide, rfl⟩, by decide⟩,
    ⟨by decide, _, .inr ⟨by decide, rfl, by decide⟩, by decide⟩,
    ⟨by decide, _, .inr ⟨by decide, rfl, by decide⟩, by decide⟩⟩

theorem witness_SilentLpcStaysSilent : quiet.lpc.energy = 0 ∧ ∀ i : Fin 10, quiet.lpc.x[i] = 0 := by decide

theorem witness_NoiseRegisterSequence : (1 : BitVec 16) ≠ 0 := by decide

/-- The first and last tracks, the first record behind `NOTE`, and the last in it. -/
theorem witness_MixBindEffect : 8 ≤ (8 : Word).toNat ∧ (7 : Word).toNat = (7 : Fin 8).val ∧ (0 : Word) = 0 ∧
    (1 : Word) ≠ 0 ∧ (3 : Word).toNat < tune.note.size ∧ tune.note.size ≤ (4 : Word).toNat := by decide

/-- Track 0 armed at the last record of `NOTE`, due to start. -/
def due : State :=
  bothTracks
    { seqBase := 1, seqLen := 3, index := 2, delayLeftUs := 125, durationLeftUs := 0, pitchShift := 1, armed := true }
    Track.reset Voice.reset Voice.reset

/-- `due` with the last note of track 0 ending where its sequence and `NOTE` do: the track reads no record. -/
def ending : State :=
  bothTracks
    { seqBase := 1, seqLen := 3, index := 3, delayLeftUs := 0, durationLeftUs := 125, pitchShift := 1, armed := true }
    Track.reset { phase := 0, phaseInc := 7, active := true, amp := 32 } Voice.reset

/-- A track that reads the last record, and one that reads none with its cursor behind it. -/
theorem witness_Note3SchedulesOneTrack : (ReadsNote due 0 ∧ NoteReadable due 0) ∧
    ¬ ReadsNote ending 0 ∧ ¬ NoteReadable ending 0 := by decide

theorem witness_MixTickSchedulesThenMixes :
    (ReadsNote due 0 ∧ ∀ k : Fin 8, ReadsNote due k → NoteReadable due k) ∧
    ∀ k : Fin 8, ReadsNote ending k → NoteReadable ending k := by decide

theorem witness_MixTickTracksFollowNote3 : (∃ t, exec .mixTick due = .next t) ∧ ∃ t, exec .mixTick ending = .next t :=
  ⟨⟨_, rfl⟩, _, rfl⟩

theorem witness_TrackIndexGrowsByAtMostOne : (∃ t, exec .mixTick due = .next t) ∧
    due.mix.track[(0 : Fin 8)].index.toNat ≤ due.mix.track[(0 : Fin 8)].seqLen.toNat := ⟨⟨_, rfl⟩, by decide⟩

theorem witness_ResetMixerIsSilent : MixIsReset quiet.mix := by decide

/-- `adj` of 0, 1, 125 and 126. -/
theorem witness_PhaseIncIsTheNearestInteger :
    (3 : Word).toNat / (4 : Word).toNat = 0 ∧ 0 < (7 : Word).toNat / (4 : Word).toNat ∧
    (250 : Word).toNat / (2 : Word).toNat = 125 ∧ 125 < (252 : Word).toNat / (2 : Word).toNat := by decide

theorem witness_OutputSaturatesAtTheLimit : 0 < testParams.mixLimit ∧ (testParams.mixLimit : Int) ≤ 220 ∧
    (-220 : Int) ≤ -(testParams.mixLimit : Int) ∧ testParams.mixLimit = 220 ∧ testParams.mixBias = 128 := by decide

theorem witness_PlayerResetAndSelect : (3 : Word).toNat < 4 ∧ 4 ≤ (4 : Word).toNat := by decide

/-- A running player over a decoder whose stream is at its end, or over the mixer. -/
def ticking (sel : BitVec 2) : State :=
  { quiet with
    player := { sel := sel, run := true, mark := 0xFFFA, duty := none }
    lpc := { quiet.lpc with fin := true } }

/-- Each source pulled, and one refused. -/
theorem witness_PlayerTickPullsTheSource : quiet.player.run = false ∧
    ((ticking 0).player.run = true ∧ (ticking 0).player.sel = 0 ∧ ∃ t, exec .imaNext (ticking 0) = .next t) ∧
    ((ticking 1).player.run = true ∧ (ticking 1).player.sel = 1 ∧ ∃ t, exec .twobitNext (ticking 1) = .next t) ∧
    ((ticking 2).player.run = true ∧ (ticking 2).player.sel = 2 ∧ ∃ t, exec .lpcNext (ticking 2) = .next t) ∧
    ((ticking 3).player.run = true ∧ (ticking 3).player.sel = 3 ∧ ∃ t, exec .mixTick (ticking 3) = .next t) ∧
    (let s : State := { ticking 2 with lpc := freshLpc 0 0 }
     s.player.run = true ∧ s.player.sel = 2 ∧ exec .lpcNext s = .refused (.streamOverrun .lpc 0)) :=
  ⟨by decide, ⟨by decide, by decide, _, rfl⟩, ⟨by decide, by decide, _, rfl⟩, ⟨by decide, by decide, _, rfl⟩,
    ⟨by decide, by decide, _, rfl⟩, by decide, by decide, rfl⟩

/-- The player over a source. -/
def playerOver (sel : BitVec 2) (s : State) : State :=
  { s with player := { sel := sel, run := true, mark := 0xFFFA, duty := none } }

/-- Each source with input to pull, 125 microseconds after the mark. -/
theorem witness_PlayerTicksComplete :
    ((playerOver 0 lastNibble).player.run = true ∧ PullReadable (playerOver 0 lastNibble)) ∧
    ((playerOver 1 lastCode).player.run = true ∧ PullReadable (playerOver 1 lastCode)) ∧
    ((playerOver 2 speaking).player.run = true ∧ PullReadable (playerOver 2 speaking)) ∧
    ((playerOver 3 due).player.run = true ∧ PullReadable (playerOver 3 due)) ∧
    125 ≤ ((0x0077 : BitVec 16) - (playerOver 3 due).player.mark).toNat := by
  refine ⟨⟨rfl, by decide, by decide, fun h => absurd h (by decide), by decide⟩,
    ⟨rfl, by decide, by decide, fun h => absurd h (by decide), by decide⟩,
    ⟨rfl, by decide, by decide, fun _ => .inr (.inr ?_), by decide⟩,
    ⟨rfl, by decide, by decide, fun h => absurd h (by decide), by decide⟩, by decide⟩
  exact ⟨.voiced 8 40 ⟨20, 12, 10, 5⟩ ⟨9, 8, 7, 5, 3, 4⟩, ⟨by decide, by decide, by decide⟩, by decide⟩

/-- Not running; 124 microseconds after the mark; 125 after it, with a pull that ends and one that is refused. -/
theorem witness_PlayerPollTicksWhenDue : quiet.player.run = false ∧
    ((0x0076 : BitVec 16) - (ticking 0).player.mark).toNat < 125 ∧
    ((ticking 0).player.run = true ∧ 125 ≤ ((0x0077 : BitVec 16) - (ticking 0).player.mark).toNat ∧
      ∃ t, exec .playerTick (ticking 0) = .next t) ∧
    exec .playerTick { ticking 2 with lpc := freshLpc 0 0 } = .refused (.streamOverrun .lpc 0) :=
  ⟨by decide, by decide, ⟨by decide, by decide, _, rfl⟩, rfl⟩

/-- A poll that does not tick, then one that does. -/
theorem witness_PollingEqualsTheTimerCallback :
    ∃ r, pollRun [0x0076, 0x0077] (ticking 0) = some r :=
  Option.isSome_iff_exists.1 (by decide)

theorem witness_UnitsAreProtectedFromEachOther : (∃ t, exec .mixTick due = .next t) ∧ unitOf .mixTick ≠ .player ∧
    (¬ reaches .mixTick due .ima ∧ ¬ reaches .mixTick due .twobit ∧ ¬ reaches .mixTick due .lpc) ∧
    ¬ reaches .playerTick (ticking 0) .mix := by
  refine ⟨⟨_, rfl⟩, by decide, ⟨?_, ?_, ?_⟩, ?_⟩
  all_goals rintro (h | ⟨h, h'⟩)
  all_goals first | exact absurd h (by decide) | exact absurd h' (by decide)

/-- Two states that agree in one unit and differ in the others and in the player. -/
theorem witness_UnitsDoNotObserveEachOther :
    let s : State := { lastNibble with player := { sel := 2, run := true, mark := 7, duty := some 3 } }
    (s.rom = lastNibble.rom ∧ s.note = lastNibble.note ∧ s.params = lastNibble.params) ∧
    ((∃ u, exec .imaNext s = .next u) ∧ unitOf .imaNext = .ima ∧ s.ima = lastNibble.ima) ∧
    ((∃ u, exec .twobitNext s = .next u) ∧ unitOf .twobitNext = .twobit ∧ s.twobit = lastNibble.twobit) ∧
    ((∃ u, exec .lpcHasNext s = .next u) ∧ unitOf .lpcHasNext = .lpc ∧ s.lpc = lastNibble.lpc) ∧
    ((∃ u, exec .mixTick s = .next u) ∧ unitOf .mixTick = .mix ∧ s.mix = lastNibble.mix) :=
  ⟨⟨rfl, rfl, rfl⟩, ⟨⟨_, rfl⟩, rfl, rfl⟩, ⟨⟨_, rfl⟩, rfl, rfl⟩, ⟨⟨_, rfl⟩, rfl, rfl⟩, ⟨_, rfl⟩, rfl, rfl⟩

theorem witness_OnlyOverrunningReadsAreRefused : exec .lpcNext quiet = .refused (.streamOverrun .lpc 0) ∧
    exec (.mixBind 7 4 1 1) quiet = .refused (.streamOverrun .mix 4) ∧
    isCommand .playerReset = true ∧ (∀ a b c d, Instr.playerReset ≠ .mixBind a b c d) ∧
    Instr.playerReset ∉ [Instr.imaNext, .twobitNext, .lpcNext, .mixTick] ∧ ticks .playerReset = false :=
  ⟨rfl, rfl, rfl, fun _ _ _ _ => nofun, by decide, rfl⟩

/-- The first address behind `ROM`, and the first byte behind the window of `LPC`. -/
theorem witness_OverrunsAreRefusedWithTheirAddress :
    (let s : State := { quiet with ima := { base := 15, len := 4, cur := 1, nib := 0, pred := 0, idx := 0 } }
     2 * s.ima.cur.toNat + s.ima.nib.toNat < s.ima.len.toNat ∧ s.rom.size ≤ s.ima.base.toNat + s.ima.cur.toNat) ∧
    (let s : State := { quiet with twobit := { base := 16, len := 1, cur := 0, pos := 0, pred := 0, idx := 0 } }
     4 * s.twobit.cur.toNat + s.twobit.pos.toNat < s.twobit.len.toNat ∧
     s.rom.size ≤ s.twobit.base.toNat + s.twobit.cur.toNat) ∧
    (quiet.lpc.fin = false ∧ quiet.lpc.fpos = 0 ∧ quiet.lpc.len.toNat ≤ quiet.lpc.cur.toNat) ∧
    (let s : State := { quiet with lpc := { freshLpc 1 0 with base := 16 } }
     s.lpc.fin = false ∧ s.lpc.fpos = 0 ∧ s.rom.size ≤ s.lpc.base.toNat + s.lpc.cur.toNat) := by decide

theorem witness_AdpcmPullsStayInTheirWindow : ImaWindowInRom lastNibble ∧ TwobitWindowInRom lastCode := by decide

/-- V30's first frame in a window of six bytes, which ends before its bit 48; its last bit in a window that ends
before it; the first bit of a frame. -/
theorem witness_FramesThatRunOutAreRefused :
    let f : Frame := .voiced 8 40 ⟨20, 12, 10, 5⟩ ⟨9, 8, 7, 5, 3, 4⟩
    (let s : State := { speaking with lpc := freshLpc 6 0 }
     LpcFrameFits s f ∧ 48 < (frameBits s.lpc.mode f).length ∧ ¬ LpcBitReadable s (bitCursor s.lpc + 48) ∧
     LpcBitsReadable s 48 ∧ s.lpc.fin = false ∧ s.lpc.fpos = 0 ∧
     LpcBitsStand s ((frameBits s.lpc.mode f).take 48)) ∧
    (let s : State := { speaking with lpc := { freshLpc 7 0 with bit := 7 } }
     LpcFrameFits s f ∧ 49 < (frameBits s.lpc.mode f).length ∧ ¬ LpcBitReadable s (bitCursor s.lpc + 49) ∧
     LpcBitsReadable s 49) ∧
    (LpcFrameFits quiet .stop ∧ 0 < (frameBits quiet.lpc.mode .stop).length ∧
      ¬ LpcBitReadable quiet (bitCursor quiet.lpc + 0) ∧ LpcBitsReadable quiet 0) := by
  refine ⟨⟨⟨?_, ?_, ?_⟩, ?_⟩, ⟨⟨?_, ?_, ?_⟩, ?_⟩, trivial, ?_⟩ <;> decide

/-- Track 0 reads the last record of `NOTE`, track 1 the first behind it. -/
theorem witness_RecordsOutsideNoteAreRefused :
    let s : State := bothTracks due.mix.track[(0 : Fin 8)]
      { seqBase := 4, seqLen := 1, index := 0, delayLeftUs := 125, durationLeftUs := 0, pitchShift := 1, armed := true }
      Voice.reset Voice.reset
    ReadsNote s 1 ∧ s.note.size ≤ noteCursor s 1 ∧ ReadsNote s 0 ∧
      ∀ j : Fin 8, j < 1 → ReadsNote s j → NoteReadable s j := by decide

end Sys2Proof.Machine.Tests
end

section
/-! The two-bit ADPCM decoder (spec/41_twobit_adpcm.md). -/
namespace Sys2Proof.Machine

/-- Settles O18 (R120), one entry of `Config.twobitAdj` per code, each read off the table. -/
theorem twobitAdjustmentTable : Obligations.TwobitAdjustmentTable :=
  ⟨show twobitAdjAt 0 = -1 from rfl,
   show twobitAdjAt 1 = -1 from rfl,
   show twobitAdjAt 2 = 2 from rfl,
   show twobitAdjAt 3 = 2 from rfl⟩

end Sys2Proof.Machine
end

section
/-! The LPC speech synthesizer (spec/43_lpc_synth.md): the frame parser over a whole frame, what the frame decoder
leaves, which instructions keep the chip mode, and the range of the output. -/
namespace Sys2Proof.Machine

/-! ## A whole frame that stands in the stream (R90 to R92) -/

theorem normalEnergy_iff (e : BitVec 4) : normalEnergy e = true ↔ e ≠ 0 ∧ e ≠ 15 := by
  simp [normalEnergy]

theorem length_frameBits_repeated (mode : BitVec 1) (e : BitVec 4) (p : BitVec 6) :
    (frameBits mode (.repeated e p)).length = 5 + (if mode = 0 then 6 else 5) := by
  simp only [frameBits, List.length_append, List.length_cons, length_fieldBits, length_pitchBits]
  omega

theorem length_frameBits_unvoiced (mode : BitVec 1) (e : BitVec 4) (p : BitVec 6) (lo : KLow) :
    (frameBits mode (.unvoiced e p lo)).length = 5 + (if mode = 0 then 6 else 5) + 18 := by
  simp only [frameBits, List.length_append, List.length_cons, length_fieldBits, length_pitchBits, length_kLowBits]
  omega

theorem length_frameBits_voiced (mode : BitVec 1) (e : BitVec 4) (p : BitVec 6) (lo : KLow) (hi : KHigh) :
    (frameBits mode (.voiced e p lo hi)).length = 5 + (if mode = 0 then 6 else 5) + 39 := by
  simp only [frameBits, List.length_append, List.length_cons, length_fieldBits, length_pitchBits, length_kLowBits,
    length_kHighBits]
  omega

/-- R91: the shortest frame has four bits. -/
theorem length_frameBits_pos (mode : BitVec 1) (f : Frame) : 0 < (frameBits mode f).length := by
  cases f <;> simp [frameBits]

/-- R90, R148: the energy code that stands in the stream selects the silence frame, the stop frame or a normal one. -/
theorem parseFrame_of_energy {src : BitSource} {q : Nat} {e : BitVec 4} (mode : BitVec 1) (voiced : BitVec 6 → Bool)
    (h : Stands src q (fieldBits e)) :
    parseFrame mode voiced src q =
      if e = 0 then .ok (.silence, q + 4) else if e = 15 then .ok (.stop, q + 4)
      else parseNormal mode voiced src e (q + 4) := by
  simp only [parseFrame, getBits_stands src e q h, except_ok_bind, except_pure]

/-- R90, R151: behind a normal energy code stands the part of the frame that `parseNormal` reads. -/
theorem parseFrame_of_normalEnergy {src : BitSource} {q : Nat} {e : BitVec 4} {rest : List Bool} (mode : BitVec 1)
    (voiced : BitVec 6 → Bool) (he : normalEnergy e = true) (h : Stands src q (fieldBits e ++ rest)) :
    parseFrame mode voiced src q = parseNormal mode voiced src e (q + 4) ∧ Stands src (q + 4) rest := by
  obtain ⟨he0, he15⟩ := (normalEnergy_iff e).1 he
  obtain ⟨henergy, hrest⟩ := (stands_append src q _ _).1 h
  rw [length_fieldBits] at hrest
  rw [parseFrame_of_energy mode voiced henergy, if_neg he0, if_neg he15]
  exact ⟨rfl, hrest⟩

/-- R91, R151: with the repeat bit a normal frame ends behind its pitch. -/
theorem parseNormal_repeated {mode : BitVec 1} {src : BitSource} {q : Nat} {p : BitVec 6} (voiced : BitVec 6 → Bool)
    (e : BitVec 4) (hp : mode = 1 → p.toNat < 32) (h : Stands src q (true :: pitchBits mode p)) :
    parseNormal mode voiced src e q = .ok (.repeated e p, q + 1 + (pitchBits mode p).length) := by
  obtain ⟨hr, hpitch⟩ := (stands_cons src q true _).1 h
  simp only [parseNormal, getBit_stands src q true hr, except_ok_bind, getPitch_stands mode src _ p hp hpitch,
    except_pure]
  exact if_pos rfl

/-- R91, R151: without the repeat bit `K1` to `K4` follow the pitch, and `K5` to `K10` where the pitch is voiced. -/
theorem parseNormal_coefficients {mode : BitVec 1} {src : BitSource} {q : Nat} {p : BitVec 6} {lo : KLow}
    (voiced : BitVec 6 → Bool) (e : BitVec 4) (hp : mode = 1 → p.toNat < 32)
    (h : Stands src q (false :: (pitchBits mode p ++ kLowBits lo))) :
    parseNormal mode voiced src e q =
      if voiced p then
        getKHigh src (q + 1 + (pitchBits mode p).length + 18) >>= fun r => .ok (.voiced e p lo r.1, r.2)
      else .ok (.unvoiced e p lo, q + 1 + (pitchBits mode p).length + 18) := by
  obtain ⟨hr, hrest⟩ := (stands_cons src q false _).1 h
  obtain ⟨hpitch, hlo⟩ := (stands_append src (q + 1) _ _).1 hrest
  simp only [parseNormal, getBit_stands src q false hr, except_ok_bind, getPitch_stands mode src _ p hp hpitch,
    getKLow_stands src _ lo hlo, except_pure]
  exact if_neg (by decide)

/-- R91, R92: a frame of its chip mode that stands in the stream is parsed as itself, and nothing behind it is
read. -/
theorem parseFrame_stands {mode : BitVec 1} {voiced : BitVec 6 → Bool} {src : BitSource} {q : Nat} {f : Frame}
    (hf : frameFits mode voiced f) (h : Stands src q (frameBits mode f)) :
    parseFrame mode voiced src q = .ok (f, q + (frameBits mode f).length) := by
  cases f with
  | silence => rw [parseFrame_of_energy mode voiced h]; simp [frameBits]
  | stop => rw [parseFrame_of_energy mode voiced h]; simp [frameBits]
  | repeated e p =>
    obtain ⟨he, hp⟩ := hf
    obtain ⟨hnormal, hrest⟩ := parseFrame_of_normalEnergy mode voiced he h
    rw [hnormal, parseNormal_repeated voiced e hp hrest, length_frameBits_repeated, length_pitchBits]
    congr 2; omega
  | unvoiced e p lo =>
    obtain ⟨he, hp, hv⟩ := hf
    obtain ⟨hnormal, hrest⟩ := parseFrame_of_normalEnergy mode voiced he h
    rw [hnormal, parseNormal_coefficients voiced e hp hrest, if_neg (Bool.eq_false_iff.1 hv),
      length_frameBits_unvoiced, length_pitchBits]
    congr 2; omega
  | voiced e p lo hi =>
    obtain ⟨he, hp, hv⟩ := hf
    obtain ⟨hnormal, hrest⟩ := parseFrame_of_normalEnergy mode voiced he h
    rw [← List.append_assoc, ← List.cons_append, stands_append] at hrest
    obtain ⟨hlow, hhigh⟩ := hrest
    have hbehind : q + 4 + (false :: (pitchBits mode p ++ kLowBits lo)).length =
        q + 4 + 1 + (pitchBits mode p).length + 18 := by
      simp only [List.length_cons, List.length_append, length_kLowBits]; omega
    rw [hbehind] at hhigh
    rw [hnormal, parseNormal_coefficients voiced e hp hlow, if_pos hv, getKHigh_stands src _ hi hhigh, except_ok_bind,
      length_frameBits_voiced, length_pitchBits]
    congr 2; omega

/-! ## What the frame decoder leaves (R148 to R151) -/

/-- Applying a frame does not look at the bit cursor, nor move it. -/
theorem lpcApply_lpcSeek (P : Params) (f : Frame) (u : Lpc) (q : Nat) :
    lpcApply P f (lpcSeek u q) = lpcSeek (lpcApply P f u) q := by
  cases f <;> rfl

theorem bitCursor_lpcApply (P : Params) (f : Frame) (u : Lpc) : bitCursor (lpcApply P f u) = bitCursor u := by
  simp only [bitCursor, lpcApply_cur, lpcApply_bit]

/-- R148: where a whole frame stands at the cursor, `DecodeFrame()` applies it and moves the bit cursor behind it;
no other register changes. -/
theorem lpcDecodeFrame_stands {s : State} {f : Frame} (h : LpcFrameStands s f) :
    ∃ v, lpcDecodeFrame s.params s.rom [] s.lpc = .ok v ∧
      bitCursor v = bitCursor s.lpc + (frameBits s.lpc.mode f).length ∧
      v = { lpcApply s.params f s.lpc with cur := v.cur, bit := v.bit } := by
  obtain ⟨hfits, hstand⟩ := h
  have hparse := parseFrame_stands hfits ((lpcBitsStand_iff s _).1 hstand)
  refine ⟨lpcApply s.params f (lpcSeek s.lpc (lpcPos s.lpc + (frameBits s.lpc.mode f).length)), ?_, ?_, ?_⟩
  · rw [lpcDecodeFrame, overlay_nil, lpcVoicedPitch_eq, hparse]
  · rw [bitCursor_lpcApply, bitCursor_lpcSeek s _ (length_frameBits_pos _ f) hstand.readable]
  · rw [lpcApply_lpcSeek]; rfl

/-- R147, R150: after the stop frame a pull leaves the unit as it is and returns 0. -/
theorem lpcNextPull_of_fin {P : Params} {rom : Rom} {u : Lpc} (h : u.fin = true) :
    lpcNextPull P rom u = .ok (u, 0) := by
  simp [lpcNextPull, h]

/-- Settles O24 (R150): the stop frame is the one layout whose four bits are all set; afterwards `fin` alone decides
both commands. -/
theorem stopFrameEffect : Obligations.StopFrameEffect := by
  refine ⟨fun s h => ?_, fun t hfin => ⟨?_, ?_⟩⟩
  · exact lpcDecodeFrame_stands (f := .stop) ⟨trivial, h⟩
  · have : lpcHasNext t.lpc = false := by simp [lpcHasNext, hfin]
    rw [exec, execLpcHasNext, this, finish_ok]; rfl
  · rw [exec, execLpcNext, lpcNextPull_of_fin hfin]; rfl

/-- Settles O25 (R151): each clause is `lpcDecodeFrame_stands` for its layout; whether the looked-up period is 0
selects between the last two. -/
theorem normalFrameEffect : Obligations.NormalFrameEffect := by
  intro s e p lo hi he0 he15 hp T period k low leaves P
  have he : normalEnergy e = true := (normalEnergy_iff e).2 ⟨he0, he15⟩
  have hlooked : lpcPeriodAt s.params s.lpc.mode p = period := lpcPeriodAt_eq s p
  refine ⟨fun h => ?_, fun hperiod h => ?_, fun hperiod h => ?_⟩
  · obtain ⟨v, hv, hcur, hregs⟩ := lpcDecodeFrame_stands (f := .repeated e p) ⟨⟨he, hp⟩, h⟩
    rw [length_frameBits_repeated] at hcur
    simp only [lpcApply, hlooked] at hregs
    exact ⟨v, hv, hcur, hregs⟩
  · have hunvoiced : decide (lookedUpPeriod s p ≠ 0) = false := decide_eq_false (not_not_intro hperiod)
    obtain ⟨v, hv, hcur, hregs⟩ := lpcDecodeFrame_stands (f := .unvoiced e p lo) ⟨⟨he, hp, hunvoiced⟩, h⟩
    rw [length_frameBits_unvoiced] at hcur
    simp only [lpcApply, hlooked] at hregs
    exact ⟨v, hv, hcur, hregs⟩
  · have hvoiced : decide (lookedUpPeriod s p ≠ 0) = true := decide_eq_true hperiod
    obtain ⟨v, hv, hcur, hregs⟩ := lpcDecodeFrame_stands (f := .voiced e p lo hi) ⟨⟨he, hp, hvoiced⟩, h⟩
    rw [length_frameBits_voiced] at hcur
    simp only [lpcApply, hlooked] at hregs
    exact ⟨v, hv, hcur, hregs⟩

/-! ## The chip mode (R144) -/

theorem lpcDecodeFrame_mode {P : Params} {rom : Rom} {given : List Bool} {u v : Lpc}
    (h : lpcDecodeFrame P rom given u = .ok v) : v.mode = u.mode := by
  obtain ⟨f, q, -, rfl⟩ := lpcDecodeFrame_ok h
  rw [lpcApply_mode, lpcSeek_mode]

theorem lpcNextPull_mode {P : Params} {rom : Rom} {u u' : Lpc} {v : Sample}
    (h : lpcNextPull P rom u = .ok (u', v)) : u'.mode = u.mode := by
  rcases lpcNextPull_ok h with ⟨-, rfl, -⟩ | ⟨-, -, w, hw, ⟨-, rfl, -⟩ | ⟨-, hs⟩⟩ | ⟨-, -, hs⟩
  · rfl
  · exact lpcDecodeFrame_mode hw
  · calc u'.mode = (lpcSample P w).1.mode := congrArg (·.1.mode) hs
      _ = w.mode := lpcSample_mode P w
      _ = u.mode := lpcDecodeFrame_mode hw
  · exact (congrArg (·.1.mode) hs).trans (lpcSample_mode P u)

theorem lpcFrame_mode {mode : BitVec 1} {f : Frame} {s t : State} (h : lpcFrame mode f s = .next t) :
    t.lpc.mode = s.lpc.mode := by
  obtain ⟨u, hu, rfl⟩ := lpcFrame_eq_next.1 h
  exact lpcDecodeFrame_mode hu

/-- R193: a tick runs at most the pull of `LPC`, never its restart. -/
theorem playerPull_lpcMode {s t : State} {d : Byte} (h : playerPull s = .ok (t, d)) : t.lpc.mode = s.lpc.mode := by
  rcases playerPull_ok h with ⟨-, u, v, -, rfl, -⟩ | ⟨-, u, v, -, rfl, -⟩ | ⟨-, u, v, hp, rfl, -⟩ | ⟨-, m, -, rfl⟩
  · rfl
  · rfl
  · exact lpcNextPull_mode hp
  · rfl

/-- An instruction of another unit keeps the chip mode, a tick of the player included. -/
theorem exec_lpcMode_of_other_unit {i : Instr} {s t : State} (hu : unitOf i ≠ .lpc) (h : exec i s = .next t) :
    t.lpc.mode = s.lpc.mode := by
  cases exec_effect h with
  | lpcRestarted _ _ _ _ hl => exact absurd hl hu
  | lpcPulled _ _ hl => exact absurd hl hu
  | lpcFrame _ _ hl => exact absurd hl.1 hu
  | playerTicked u _ _ _ _ _ _ hp => exact (playerPull_lpcMode hp : u.lpc.mode = s.lpc.mode)
  | _ => rfl

/-- R143 to R147: every instruction but `LPC.START` keeps the chip mode. -/
theorem exec_lpcMode {i : Instr} {s t : State} (hi : ∀ mode, i ≠ .lpcStart mode) (h : exec i s = .next t) :
    t.lpc.mode = s.lpc.mode := by
  cases i
  case lpcStart mode => exact absurd rfl (hi mode)
  case lpcReset => cases h; rfl
  case lpcAttach => cases h; rfl
  case lpcHasNext => cases h; rfl
  case lpcNext =>
    obtain ⟨u, v, hu, rfl⟩ := lpcFinish_eq_next.1 h
    exact lpcNextPull_mode hu
  case lpcfSilence | lpcfStop | lpcfRepeatM0 | lpcfUnvoicedM0 | lpcfVoicedM0 | lpcfRepeatM1 | lpcfUnvoicedM1
      | lpcfVoicedM1 => exact lpcFrame_mode h
  all_goals exact exec_lpcMode_of_other_unit (by simp [unitOf]) h

/-- Settles O22 (R144): `LPC.START` is `LPC.RESET` after the mode is loaded; that no other instruction changes the
mode is `exec_lpcMode`. -/
theorem onlyLpcStartChangesTheMode : Obligations.OnlyLpcStartChangesTheMode := by
  have hstart : ∀ (s : State) (mode : BitVec 1),
      exec (.lpcStart mode) s = exec .lpcReset { s with lpc := { s.lpc with mode := mode } } := fun _ _ => rfl
  refine ⟨fun s a b c d rest hport => ?_, hstart, fun i s t h hne => ?_⟩
  · rw [step_cons s _ rest (.lpcStart (a.setWidth 1)) hport rfl, hstart, BitVec.setWidth_one]
  · by_contra hi
    exact hne (exec_lpcMode (fun mode he => hi ⟨mode, he⟩) h)

/-! ## The output (R156 to R158) -/

/-- R157: `x[0]` keeps the clamped output whose multiple is returned. -/
theorem lpcSample_x0 (P : Params) (u : Lpc) :
    (lpcSample P u).1.x[0] = clampOutput (forwardPass P u.k u.x (lpcExcite P u).2).u0 := rfl

/-- Settles O31 (R158): the clamp of R156 leaves -512..511, over which the scaling by 64 is exact. -/
theorem outputIsScaledBySixtyFour : Obligations.OutputIsScaledBySixtyFour := by
  intro P u
  have hscaled : (lpcSample P u).2.toInt = (lpcSample P u).1.x[0].toInt * 64 := by
    rw [lpcSample_result, lattice_output, scaleOutput_toInt, lpcSample_x0]
  have hrange := clampOutput_toInt (forwardPass P u.k u.x (lpcExcite P u).2).u0
  rw [← lpcSample_x0] at hrange
  exact ⟨hscaled, by omega, by omega, by omega⟩

end Sys2Proof.Machine
end

section
/-! Encoding (spec/30_encoding.md): the command map, the round trip of the encoder, the bit reader's value, and the
step that runs what the command port decodes to. -/
namespace Sys2Proof.Machine

/-! ## The frame layouts (R90 to R92) -/

/-- The bits of a list stand in the stream the list is. -/
theorem stands_list (bits : List Bool) : Stands (fun q => bits[q]?) 0 bits := by
  intro j hj
  simp [hj]

/-- R91: a frame of its chip mode and period table decodes, from exactly its bits, to its row. -/
theorem decode_frameBits {voiced : BitVec 1 → BitVec 6 → Bool} {mode : BitVec 1} {f : Frame}
    (hf : frameFits mode (voiced mode) f) : decode voiced (.lpcf mode (frameBits mode f)) = .ok (f.toInstr mode) := by
  simp only [decode, parseFrame_stands hf (stands_list _)]

/-- R93: a pitch of five bits stays one when it is written in six. -/
theorem toNat_setWidth6_lt (p : BitVec 5) : (p.setWidth 6).toNat < 32 := by
  rw [BitVec.toNat_setWidth]; omega

/-- Settles O2 (R83, R85, R87, R91): a command is found again in the command map, its operands widened without loss;
a frame row is `decode_frameBits` for its layout. -/
theorem decodeEncodeRoundTrip : Obligations.DecodeEncodeRoundTrip := by
  intro voiced i hwf hperiod
  cases i with
  | lpcStart mode => simp [encode, command, decode, decodeCommand]
  | playerSelect sel now => simp [encode, command, decode, decodeCommand]
  | playerPoll now => simp [encode, command, decode, decodeCommand]
  | lpcfSilence => exact decode_frameBits (f := .silence) trivial
  | lpcfStop => exact decode_frameBits (f := .stop) trivial
  | lpcfRepeatM0 e p => exact decode_frameBits (mode := 0) (f := .repeated e p) ⟨hwf, nofun⟩
  | lpcfUnvoicedM0 e p lo =>
    exact decode_frameBits (mode := 0) (f := .unvoiced e p lo) ⟨hwf, nofun, by simpa [periodFits] using hperiod⟩
  | lpcfVoicedM0 e p lo hi => exact decode_frameBits (mode := 0) (f := .voiced e p lo hi) ⟨hwf, nofun, hperiod⟩
  | lpcfRepeatM1 e p =>
    refine (decode_frameBits (mode := 1) (f := .repeated e (p.setWidth 6)) ⟨hwf, fun _ => toNat_setWidth6_lt p⟩).trans ?_
    simp [Frame.toInstr]
  | lpcfUnvoicedM1 e p lo =>
    refine (decode_frameBits (mode := 1) (f := .unvoiced e (p.setWidth 6) lo)
      ⟨hwf, fun _ => toNat_setWidth6_lt p, by simpa [periodFits] using hperiod⟩).trans ?_
    simp [Frame.toInstr]
  | lpcfVoicedM1 e p lo hi =>
    refine (decode_frameBits (mode := 1) (f := .voiced e (p.setWidth 6) lo hi)
      ⟨hwf, fun _ => toNat_setWidth6_lt p, hperiod⟩).trans ?_
    simp [Frame.toInstr]
  | _ => rfl

/-- Settles O4 (R91, R92): `parseFrame_stands`, with the length of each layout written out. -/
theorem framesParseAtAnyBit : Obligations.FramesParseAtAnyBit := by
  intro mode voiced src q f hf hstand
  rw [parseFrame_stands hf hstand]
  cases f with
  | silence => simp [frameBits]
  | stop => simp [frameBits]
  | repeated e p => rw [length_frameBits_repeated]
  | unvoiced e p lo => rw [length_frameBits_unvoiced]
  | voiced e p lo hi => rw [length_frameBits_voiced]

/-- Settles O1: each word is decoded by evaluation, the voiced frame bit by bit. -/
theorem specWordsDecode : Obligations.SpecWordsDecode :=
  ⟨rfl, rfl, rfl, rfl, rfl, rfl, rfl, rfl, rfl, rfl⟩

/-! ## The bit reader (R89, R142) -/

/-- The number whose `n` binary digits are `b 0`, `b 1`, ..., the first one the most significant. -/
def msbFirstValue (n : Nat) (b : Nat → Bool) : Nat := ((List.range n).map fun j => (b j).toNat * 2 ^ (n - 1 - j)).sum

theorem msbFirstValue_succ (n : Nat) (b : Nat → Bool) :
    msbFirstValue (n + 1) b = (b 0).toNat * 2 ^ n + msbFirstValue n fun j => b (j + 1) := by
  simp only [msbFirstValue, List.range_succ_eq_map, List.map_cons, List.map_map, List.sum_cons]
  congr 2
  refine List.map_congr_left fun j _ => ?_
  simp only [Function.comp_apply, Nat.succ_eq_add_one]
  rw [show n + 1 - 1 - (j + 1) = n - 1 - j by omega]

theorem msbFirstValue_lt (n : Nat) (b : Nat → Bool) : msbFirstValue n b < 2 ^ n := by
  induction n generalizing b with
  | zero => exact Nat.one_pos
  | succ n ih =>
    have hrest := ih fun j => b (j + 1)
    have hbit : (b 0).toNat * 2 ^ n ≤ 1 * 2 ^ n := Nat.mul_le_mul_right _ (Bool.toNat_le _)
    rw [msbFirstValue_succ, Nat.pow_succ]
    omega

/-- R142: over bits that may all be read the loop appends their value to what was read before. -/
theorem getBitsFrom_of_bits {src : BitSource} {n q : Nat} {b : Nat → Bool} (acc : Nat)
    (h : ∀ j, j < n → src (q + j) = some (b j)) :
    getBitsFrom src n acc q = .ok (acc * 2 ^ n + msbFirstValue n b, q + n) := by
  induction n generalizing acc q b with
  | zero => simp [getBitsFrom, msbFirstValue]
  | succ n ih =>
    have hrest : ∀ j, j < n → src (q + 1 + j) = some (b (j + 1)) := fun j hj => by
      rw [show q + 1 + j = q + (j + 1) by omega]; exact h (j + 1) (by omega)
    simp only [getBitsFrom, show src q = some (b 0) from h 0 (by omega), ih _ hrest, msbFirstValue_succ]
    congr 2
    · ring
    · omega

/-- R142: `GetBits` reads the value of its bits exactly. -/
theorem getBits_of_bits {src : BitSource} {n q : Nat} {b : Nat → Bool}
    (h : ∀ j, j < n → src (q + j) = some (b j)) :
    getBits src n q = .ok (BitVec.ofNat n (msbFirstValue n b), q + n) := by
  simp only [getBits, getBitsFrom_of_bits 0 h, Nat.zero_mul, Nat.zero_add]

/-- R142 (D5): `GetBits` stops at the first bit that may not be read. -/
theorem getBits_stops {src : BitSource} {n q j : Nat} (hj : j < n) (hread : ∀ i, i < j → (src (q + i)).isSome)
    (hstop : src (q + j) = none) : getBits src n q = .error (q + j) := by
  rcases reads_getBits src n q with ⟨⟨v, q'⟩, hok, -⟩ | ⟨e, herr, ⟨hle, hpassed⟩, hnone, hlt⟩
  · have hsome := (getBits_ok hok).2 j hj
    rw [hstop] at hsome
    cases hsome
  · obtain ⟨i, rfl⟩ := Nat.exists_eq_add_of_le hle
    rcases Nat.lt_trichotomy i j with hi | rfl | hi
    · have hsome := hread i hi
      rw [hnone] at hsome
      cases hsome
    · exact herr
    · have hsome := hpassed (q + j) (by omega) (by omega)
      rw [hstop] at hsome
      cases hsome

/-- Settles O5 (R89, R142, D5): the bits of the window are those `lpcBit` answers with. -/
theorem getBitsReadsMostSignificantFirst : Obligations.GetBitsReadsMostSignificantFirst := by
  intro rom u n q
  refine ⟨fun hin => ?_, fun j hj hin hout => getBits_stops hj (fun i hi => ?_) ?_⟩
  · refine ⟨_, getBits_of_bits fun j hj => lpcBit_of_lt rom u (q + j) (hin j hj).1 (hin j hj).2, ?_⟩
    rw [BitVec.toNat_ofNat, Nat.mod_eq_of_lt (msbFirstValue_lt n _)]
    rfl
  · exact (lpcBit_isSome_iff rom u _).2 (hin i hi)
  · rwa [← lpcBit_isSome_iff, Bool.not_eq_true, Option.isSome_eq_false_iff, Option.isNone_iff_eq_none] at hout

/-! ## The command map (R83, R84) -/

/-- R83: the command words of the map. -/
def commandMap : List Byte :=
  [0x00#8, 0x01#8, 0x02#8, 0x03#8, 0x10#8, 0x11#8, 0x12#8, 0x13#8, 0x20#8, 0x21#8, 0x22#8, 0x23#8, 0x24#8,
    0x30#8, 0x31#8, 0x32#8, 0x33#8, 0x40#8, 0x41#8, 0x42#8, 0x43#8]

/-- R83: what a command word decodes to is a command; the word is one of the map, and the one it encodes to. -/
theorem decodeCommand_eq_some {c : Command} {i : Instr} (h : decodeCommand c = some i) :
    isCommand i = true ∧ c.cmd ∈ commandMap ∧ ∃ a b d e, encode i = .cmd ⟨c.cmd, a, b, d, e⟩ := by
  have hcmd : c.cmd = BitVec.ofNat 8 c.cmd.toNat := by simp
  unfold decodeCommand at h
  split at h
  case h_22 => cases h
  all_goals
    next hc =>
      obtain rfl := Option.some.inj h
      rw [hcmd, hc]
      exact ⟨rfl, by decide, _, _, _, _, rfl⟩

/-- R83: a word of the map decodes, whatever its operands. -/
theorem decodeCommand_isSome_of_mem {c : Command} (h : c.cmd ∈ commandMap) : (decodeCommand c).isSome := by
  obtain ⟨cmd, a, b, d, e⟩ := c
  simp only [commandMap, List.mem_cons, List.not_mem_nil, or_false] at h
  rcases h with rfl | rfl | rfl | rfl | rfl | rfl | rfl | rfl | rfl | rfl | rfl | rfl | rfl | rfl | rfl | rfl | rfl |
    rfl | rfl | rfl | rfl <;> rfl

/-- The rows that are commands are well formed, whatever their operands and the period table (R95). -/
theorem wellFormed_of_isCommand (voiced : BitVec 1 → BitVec 6 → Bool) {i : Instr} (h : isCommand i = true) :
    wellFormed i = true ∧ periodFits voiced i = true := by
  cases i
  case lpcfRepeatM0 | lpcfUnvoicedM0 | lpcfVoicedM0 | lpcfRepeatM1 | lpcfUnvoicedM1 | lpcfVoicedM1 => cases h
  all_goals exact ⟨rfl, rfl⟩

/-- Settles O3 (R83): the word is `decodeCommand_eq_some`; that its operands decode alike is the round trip. -/
theorem decodedCommandsEncodeToTheirWord : Obligations.DecodedCommandsEncodeToTheirWord := by
  intro c i h
  obtain ⟨hi, -, a, b, d, e, henc⟩ := decodeCommand_eq_some h
  obtain ⟨hwf, hperiod⟩ := wellFormed_of_isCommand (fun _ _ => true) hi
  refine ⟨a, b, d, e, henc, ?_⟩
  have hround := decodeEncodeRoundTrip _ i hwf hperiod
  rw [henc, decode] at hround
  split at hround
  · next hj => rw [hj]; exact congrArg some (Except.ok.inj hround)
  · cases hround

/-! ## The step (R10, R11, R84) -/

theorem step_of_empty_port {s : State} (h : s.port = []) : step s = .next s := by
  simp [step, stepCommand, fetch, h]

/-- R84: a word that decodes to nothing is refused. -/
theorem step_of_decodeCommand_none {s : State} {c : Command} {rest : List Command} (hp : s.port = c :: rest)
    (hd : decodeCommand c = none) : step s = .refused (.illegalCommand c.cmd) := by
  simp [step, stepCommand, fetch, hp, hd]

/-- Settles O6 (R10, R11). -/
theorem stepRunsTheDecodedCommand : Obligations.StepRunsTheDecodedCommand :=
  fun s c rest i hp hd => ⟨step_cons s c rest i hp hd, step_of_empty_port rfl⟩

/-- Settles O7 (R84): the words that decode are exactly those of the map. -/
theorem reservedCommandsAreRefused : Obligations.ReservedCommandsAreRefused := by
  intro s c rest hp
  refine ⟨fun hout => step_of_decodeCommand_none hp ?_, fun hin => decodeCommand_isSome_of_mem hin⟩
  cases hd : decodeCommand c with
  | none => rfl
  | some i => exact absurd (decodeCommand_eq_some hd).2.1 hout

/-- Settles O8 (log entry 10): the placed word is the one command at the port, and the step takes it. -/
theorem placedCommandWordsRun : Obligations.PlacedCommandWordsRun := by
  intro s w i hport hword
  obtain ⟨c, helement⟩ : ∃ c, tableElement 8 w = some (.cmd c) := ⟨_, rfl⟩
  have hplaced : s.withFetchWord 8 w = withCommand s c := by
    simp [State.withFetchWord, placeWord, helement, placeElement]
  have hdecoded : decodeCommand c = some i := by
    simp only [decodeTableWord, helement, decode] at hword
    cases hd : decodeCommand c with
    | none => simp [hd] at hword
    | some j => simpa [hd] using hword
  have hstep := step_cons (withCommand s c) c [] i (by simp [hport]) hdecoded
  rw [hplaced, hstep, withCommand, ← hport]

end Sys2Proof.Machine
end

section
/-! Where the command of a unit is refused (spec/60_exceptions.md R201). -/
namespace Sys2Proof.Machine

/-- R201: a command that pulls from `IMA` is refused where the pull is. -/
theorem imaFinish_eq_refused {s : State} {r : Except Refusal (Ima × Sample)} {e : Refusal} :
    imaFinish s r = .refused e ↔ r = .error e := by
  cases r <;> simp [imaFinish]

/-- R201: a command that pulls from `TWOBIT` is refused where the pull is. -/
theorem twobitFinish_eq_refused {s : State} {r : Except Refusal (Twobit × Sample)} {e : Refusal} :
    twobitFinish s r = .refused e ↔ r = .error e := by
  cases r <;> simp [twobitFinish]

/-- R201: a command that pulls from `LPC` is refused where the pull is. -/
theorem lpcFinish_eq_refused {s : State} {r : Except Refusal (Lpc × Sample)} {e : Refusal} :
    lpcFinish s r = .refused e ↔ r = .error e := by
  cases r <;> simp [lpcFinish]

/-- R201: a command of the mixer is refused where its operation is. -/
theorem mixFinish_eq_refused {s : State} {r : Except Refusal (Mix × Word)} {e : Refusal} :
    mixFinish s r = .refused e ↔ r = .error e := by
  cases r <;> simp [mixFinish]

end Sys2Proof.Machine
end

section
/-! The IMA decoder (spec/42_ima_adpcm.md): one nibble decoded, the packing of a stream, and its drain. -/
namespace Sys2Proof.Machine

/-! ## One nibble (R131, R134) -/

theorem asr_natCast (n k : Nat) : asr n k = ((n / 2 ^ k : Nat) : Int) := by
  simp [asr]

/-- R134: a step index of the table is looked up as it is. -/
theorem imaStepAt_of_lt (P : Params) (idx : BitVec 7) (h : idx.toNat < 89) :
    imaStepAt P idx = (P.imaStep[idx.toNat] : Nat) := by
  have hmin : min idx.toNat Config.imaIdxMax = idx.toNat := Nat.min_eq_left (Nat.lt_succ_iff.1 h)
  simp only [imaStepAt, hmin]

/-- R134, R85: the magnitude over the natural numbers. -/
theorem imaMagnitude_natCast (step : Nat) (c : BitVec 4) :
    imaMagnitude step c = ((step / 8 + (if c.getLsbD 0 then step / 4 else 0) + (if c.getLsbD 1 then step / 2 else 0) +
      (if c.getLsbD 2 then step else 0) : Nat) : Int) := by
  simp only [imaMagnitude, asr_natCast]
  push_cast
  rfl

/-- R134: the predictor saturates to an i16. -/
theorem imaDecode_pred_toInt (P : Params) (c : BitVec 4) (u : Ima) :
    (imaDecode P c u).pred.toInt = max (-32768) (min 32767 (u.pred.toInt + imaDiff (imaStepAt P u.idx) c)) := by
  rw [imaDecode_pred, toInt_ofInt16 _ (le_clamp _ _ _ (by decide)) (clamp_le _ _ _ (by decide)),
    clamp_eq_max_min _ _ _ (by decide)]

/-- R134: the step index saturates to its table. -/
theorem imaDecode_idx_toNat (P : Params) (c : BitVec 4) (u : Ima) :
    ((imaDecode P c u).idx.toNat : Int) = max 0 (min 88 (u.idx.toNat + imaAdjAt P c)) := by
  have hclamp := clamp_eq_max_min (u.idx.toNat + imaAdjAt P c) 0 Config.imaIdxMax (by decide)
  rw [imaDecode_idx, toNat_ofInt 7 _ (le_clamp _ _ _ (by decide)) (by rw [hclamp, Config.imaIdxMax]; omega), hclamp]
  rfl

/-! ## The pull (R86, R134) -/

/-- R134: `IMA.NEXT` pulls the nibble that stands at its cursor. -/
theorem imaNextPull_eq (P : Params) (rom : Rom) (u : Ima) :
    imaNextPull P rom u = imaPull P rom (fun _ => nibbleAt (readCells romFill rom.cells (imaAddr u)) u.nib) u := by
  unfold imaNextPull imaPull
  by_cases hr : imaAddr u < rom.size
  · rw [romRead_of_lt rom _ hr]
  · rw [romRead_of_le rom _ (not_lt.1 hr)]

/-- The row `NIB4` is what `IMA.NEXT` does for the nibble at its cursor (log entry 8). -/
theorem exec_imaNext_eq_nib4 (s : State) :
    exec .imaNext s = exec (.nib4 (nibbleAt (readCells romFill s.rom.cells (imaAddr s.ima)) s.ima.nib)) s :=
  congrArg (imaFinish s) (imaNextPull_eq s.params s.rom s.ima)

/-- R134: with input left and its byte in `ROM`, one nibble is decoded. -/
theorem exec_nib4_decodes {s : State} (c : BitVec 4) (hn : imaHasNext s.ima = true) (hr : imaAddr s.ima < s.rom.size) :
    exec (.nib4 c) s = .next { s with
      ima := imaDecode s.params c s.ima, res := resSample (imaDecode s.params c s.ima).pred } :=
  congrArg (imaFinish s) (imaPull_decodes s.params s.rom (fun _ => c) s.ima hn hr)

/-- R62, R86: the low nibble of a byte first, then the high one. -/
theorem nibbleAt_eq_ofNat (b : Byte) (nib : BitVec 1) :
    nibbleAt b nib = BitVec.ofNat 4 (if nib = 0 then b.toNat % 16 else b.toNat / 16) := by
  apply BitVec.eq_of_toNat_eq
  unfold nibbleAt
  split <;> simp [Nat.shiftRight_eq_div_pow]

/-- Settles O12 (R132, R135). -/
theorem imaResetAndAttach : Obligations.ImaResetAndAttach :=
  fun _ _ _ => ⟨rfl, rfl⟩

/-- Settles O15 (R134, R85): both commands leave `imaDecode`, whose two saturations are those of the statement. -/
theorem imaNextDecodesOneNibble : Obligations.ImaNextDecodesOneNibble := by
  intro s c hidx hnext hrom
  have hn : imaHasNext s.ima = true := (imaHasNext_iff _).2 hnext
  refine ⟨_, exec_nib4_decodes c hn hrom, fun hc => ?_, rfl, imaDecode_base _ _ _, imaDecode_len _ _ _,
    imaAdvance_position _ hn, ?_, imaDecode_idx_toNat _ _ _⟩
  · rw [exec_imaNext_eq_nib4, ← exec_nib4_decodes c hn hrom, hc]; rfl
  · rw [imaDecode_pred_toInt, imaDiff, imaStepAt_of_lt _ _ hidx, imaMagnitude_natCast]

/-- Settles O16 (R86): the sample number `n` gives the byte `n / 2`, its parity the nibble. -/
theorem imaNibblesArePackedLowFirst : Obligations.ImaNibblesArePackedLowFirst := by
  intro s n hpos hn hrom b
  have hnib := s.ima.nib.isLt
  have haddr : imaAddr s.ima = s.ima.base.toNat + n / 2 := by unfold imaAddr; omega
  have hparity : s.ima.nib = 0 ↔ n % 2 = 0 := by
    rw [← BitVec.toNat_inj, toNat_zero1]; omega
  refine ⟨by omega, ?_⟩
  rw [exec_imaNext_eq_nib4, nibbleAt_eq_ofNat, haddr, if_congr hparity rfl rfl]

/-! ## The drain of a stream inside `ROM` (R61, R97) -/

/-- R61: with input left in a window that lies in `ROM`, the byte read lies in `ROM`. -/
theorem imaAddr_lt {s : State} (hw : ImaWindowInRom s) (hn : imaHasNext s.ima = true) : imaAddr s.ima < s.rom.size := by
  rw [imaHasNext_iff] at hn
  unfold imaAddr
  omega

/-- R134: a pull with input left in a window inside `ROM` completes, keeps the window and moves on by one nibble. -/
theorem exec_imaNext_of_hasNext {s : State} (hw : ImaWindowInRom s) (hn : imaHasNext s.ima = true) :
    ∃ t, exec .imaNext s = .next t ∧ ImaWindowInRom t ∧ t.ima.len = s.ima.len ∧
      2 * t.ima.cur.toNat + t.ima.nib.toNat = 2 * s.ima.cur.toNat + s.ima.nib.toNat + 1 := by
  refine ⟨_, (exec_imaNext_eq_nib4 s).trans (exec_nib4_decodes _ hn (imaAddr_lt hw hn)), ?_, imaDecode_len _ _ _,
    imaAdvance_position _ hn⟩
  simpa only [ImaWindowInRom, imaDecode_base, imaDecode_len] using hw

/-- R113: past the end of the stream a pull changes nothing but the result. -/
theorem exec_imaNext_at_end {s : State} (hn : imaHasNext s.ima = false) :
    exec .imaNext s = .next { s with res := 0 } :=
  congrArg (imaFinish s) (imaPull_at_end _ _ _ _ hn)

/-- As many pulls as there are nibbles left complete, and the position counts them. -/
theorem runImaNext_drains (n : Nat) {s : State} (hw : ImaWindowInRom s)
    (hn : 2 * s.ima.cur.toNat + s.ima.nib.toNat + n ≤ s.ima.len.toNat) :
    ∃ u, runImaNext n s = .next u ∧ u.ima.len = s.ima.len ∧
      2 * u.ima.cur.toNat + u.ima.nib.toNat = 2 * s.ima.cur.toNat + s.ima.nib.toNat + n := by
  induction n generalizing s with
  | zero => exact ⟨s, rfl, rfl, rfl⟩
  | succ n ih =>
    obtain ⟨t, hstep, hwt, hlen, hpos⟩ := exec_imaNext_of_hasNext hw ((imaHasNext_iff _).2 (by omega))
    obtain ⟨u, hrun, hlenu, hposu⟩ := ih hwt (by rw [hlen]; omega)
    refine ⟨u, ?_, hlenu.trans hlen, by omega⟩
    rw [runImaNext, hstep]
    exact hrun

/-- Settles O17 (R86, R97): after the reset the position is 0, and each pull counts one nibble. -/
theorem imaStreamDrainsInItsLength : Obligations.ImaStreamDrainsInItsLength := by
  intro s t n hw hreset hn
  obtain ⟨hwt, hlent, hpost⟩ : ImaWindowInRom t ∧ t.ima.len = s.ima.len ∧
      2 * t.ima.cur.toNat + t.ima.nib.toNat = 0 := by
    cases hreset
    exact ⟨hw, rfl, rfl⟩
  obtain ⟨u, hrun, hlen, hpos⟩ := runImaNext_drains n hwt (by rw [hpost, hlent]; omega)
  have hposn : 2 * u.ima.cur.toNat + u.ima.nib.toNat = n := by omega
  exact ⟨u, hrun, hposn, by rw [imaHasNext_iff, hposn, hlen, hlent]⟩

end Sys2Proof.Machine
end

section
/-! The two-bit decoder (spec/41_twobit_adpcm.md): one code decoded, and the row each code is. -/
namespace Sys2Proof.Machine

/-! ## The result of a pull (R82) -/

@[simp] theorem resSample_setWidth (v : Sample) : (resSample v).setWidth 16 = v := by
  simp [resSample]

theorem resSample_toNat_lt (v : Sample) : (resSample v).toNat < 65536 := by
  rw [resSample, BitVec.toNat_setWidth]; omega

/-! ## One code (R120, R124) -/

/-- R124: the predictor saturates to 0..255. -/
theorem twobitDecode_pred_toNat (P : Params) (c : BitVec 2) (u : Twobit) :
    ((twobitDecode P c u).pred.toNat : Int) =
      max 0 (min 255 (u.pred.toNat + twobitDelta (twobitStepAt P u.idx) c)) := by
  have hclamp := clamp_eq_max_min (u.pred.toNat + twobitDelta (twobitStepAt P u.idx) c) 0 255 (by decide)
  rw [twobitDecode_pred, toNat_ofInt 8 _ (le_clamp _ _ _ (by decide)) (by rw [hclamp]; omega), hclamp]

/-- R124: the step index saturates to its table. -/
theorem twobitDecode_idx_toNat (P : Params) (c : BitVec 2) (u : Twobit) :
    ((twobitDecode P c u).idx.toNat : Int) = max 0 (min 15 (u.idx.toNat + twobitAdjAt c)) := by
  have hclamp := clamp_eq_max_min (u.idx.toNat + twobitAdjAt c) 0 Config.twobitIdxMax (by decide)
  rw [twobitDecode_idx, toNat_ofInt 4 _ (le_clamp _ _ _ (by decide)) (by rw [hclamp, Config.twobitIdxMax]; omega),
    hclamp]
  rfl

/-- R124, R126: the sample is `(pred - 128) * 256` exactly. -/
theorem twobitSample_toInt (u : Twobit) : (twobitSample u).toInt = ((u.pred.toNat : Int) - 128) * 256 := by
  have := u.pred.isLt
  rw [twobitSample, toInt_ofInt16] <;> omega

/-- R62, R88: the code at a sub-byte position, the most significant pair first. -/
theorem codeAt_toNat (b : Byte) (pos : BitVec 2) : (codeAt b pos).toNat = b.toNat / 4 ^ (3 - pos.toNat) % 4 := by
  have hpow : 2 ^ (6 - 2 * pos.toNat) = 4 ^ (3 - pos.toNat) := by
    rw [show 6 - 2 * pos.toNat = 2 * (3 - pos.toNat) by omega, Nat.pow_mul]
  rw [codeAt, BitVec.extractLsb'_toNat, Nat.shiftRight_eq_div_pow, hpow]

/-! ## The pull (R87, R88, R124) -/

/-- R87: the row of a code pulls that code. -/
theorem exec_decodeCode2 (c : BitVec 2) (s : State) :
    exec (decodeCode2 c) s = twobitFinish s (twobitPull s.params s.rom (fun _ => c) s.twobit) := by
  rcases sel_cases c with rfl | rfl | rfl | rfl <;> rfl

/-- R124: `TWOBIT.NEXT` pulls the code that stands at its cursor. -/
theorem twobitNextPull_eq (P : Params) (rom : Rom) (u : Twobit) :
    twobitNextPull P rom u = twobitPull P rom (fun _ => codeAt (readCells romFill rom.cells (twobitAddr u)) u.pos) u := by
  unfold twobitNextPull twobitPull
  by_cases hr : twobitAddr u < rom.size
  · rw [romRead_of_lt rom _ hr]
  · rw [romRead_of_le rom _ (not_lt.1 hr)]

/-- The row of a code is what `TWOBIT.NEXT` does for that code at its cursor (log entry 8). -/
theorem exec_twobitNext_eq_code2 (s : State) :
    exec .twobitNext s =
      exec (decodeCode2 (codeAt (readCells romFill s.rom.cells (twobitAddr s.twobit)) s.twobit.pos)) s :=
  (congrArg (twobitFinish s) (twobitNextPull_eq s.params s.rom s.twobit)).trans (exec_decodeCode2 _ s).symm

/-- R124: with input left and its byte in `ROM`, one code is decoded. -/
theorem exec_code2_decodes {s : State} (c : BitVec 2) (hn : twobitHasNext s.twobit = true)
    (hr : twobitAddr s.twobit < s.rom.size) :
    exec (decodeCode2 c) s = .next { s with
      twobit := twobitDecode s.params c s.twobit, res := resSample (twobitSample (twobitDecode s.params c s.twobit)) } :=
  (exec_decodeCode2 c s).trans
    (congrArg (twobitFinish s) (twobitPull_decodes s.params s.rom (fun _ => c) s.twobit hn hr))

/-- R87, R120: the row, the delta and the adjustment of each code. -/
theorem code2_row {c : BitVec 2} {i : Instr} {m adj : Int}
    (h : (c, i, m, adj) ∈ [((0 : BitVec 2), Instr.code2_0, (-1 : Int), (-1 : Int)), (1, .code2_1, 1, -1),
      (2, .code2_2, -2, 2), (3, .code2_3, 2, 2)]) :
    i = decodeCode2 c ∧ (∀ step, twobitDelta step c = m * step) ∧ twobitAdjAt c = adj := by
  simp only [List.mem_cons, Prod.mk.injEq, List.not_mem_nil, or_false] at h
  rcases h with ⟨rfl, rfl, rfl, rfl⟩ | ⟨rfl, rfl, rfl, rfl⟩ | ⟨rfl, rfl, rfl, rfl⟩ | ⟨rfl, rfl, rfl, rfl⟩
  all_goals exact ⟨rfl, fun step => by simp [twobitDelta], rfl⟩

/-- Settles O19 (R122, R125). -/
theorem twobitResetAndAttach : Obligations.TwobitResetAndAttach :=
  fun _ _ _ => ⟨rfl, rfl⟩

/-- Settles O20 (R124, R126): both commands leave `twobitDecode`, whose delta and adjustment `code2_row` names. -/
theorem twobitNextDecodesOneCode : Obligations.TwobitNextDecodesOneCode := by
  intro s c i m adj hrow hnext hrom
  obtain ⟨rfl, hdelta, hadj⟩ := code2_row hrow
  have hn : twobitHasNext s.twobit = true := (twobitHasNext_iff _).2 hnext
  refine ⟨_, exec_code2_decodes c hn hrom, fun hc => ?_, rfl, twobitDecode_base _ _ _, twobitDecode_len _ _ _,
    twobitAdvance_position _ hn, ?_, ?_, ?_, resSample_toNat_lt _⟩
  · have hcode : codeAt (readCells romFill s.rom.cells (twobitAddr s.twobit)) s.twobit.pos = c :=
      BitVec.eq_of_toNat_eq ((codeAt_toNat _ _).trans hc.symm)
    rw [exec_twobitNext_eq_code2, hcode, exec_code2_decodes c hn hrom]
  · rw [twobitDecode_pred_toNat, hdelta]; rfl
  · rw [twobitDecode_idx_toNat, hadj]
  · rw [resSample_setWidth, twobitSample_toInt]

/-- R61: with input left in a window that lies in `ROM`, the byte read lies in `ROM`. -/
theorem twobitAddr_lt {s : State} (hw : TwobitWindowInRom s) (hn : twobitHasNext s.twobit = true) :
    twobitAddr s.twobit < s.rom.size := by
  rw [twobitHasNext_iff] at hn
  unfold twobitAddr
  omega

/-- R124: a pull with input left in a window inside `ROM` completes and keeps the window. -/
theorem exec_twobitNext_of_hasNext {s : State} (hw : TwobitWindowInRom s) (hn : twobitHasNext s.twobit = true) :
    ∃ t, exec .twobitNext s = .next t ∧ TwobitWindowInRom t := by
  refine ⟨_, (exec_twobitNext_eq_code2 s).trans (exec_code2_decodes _ hn (twobitAddr_lt hw hn)), ?_⟩
  simpa only [TwobitWindowInRom, twobitDecode_base, twobitDecode_len] using hw

/-- R113: past the end of the stream a pull changes nothing but the result. -/
theorem exec_twobitNext_at_end {s : State} (hn : twobitHasNext s.twobit = false) :
    exec .twobitNext s = .next { s with res := 0 } :=
  congrArg (twobitFinish s) (twobitPull_at_end _ _ _ _ hn)

/-- Settles O53 (R61, R75): with input left the byte read lies in the window, at the end nothing is read. -/
theorem adpcmPullsStayInTheirWindow : Obligations.AdpcmPullsStayInTheirWindow := by
  refine fun s => ⟨fun hw => ?_, fun hw => ?_⟩
  · cases hn : imaHasNext s.ima with
    | false => exact ⟨_, exec_imaNext_at_end hn, hw⟩
    | true =>
      obtain ⟨t, ht, hwt, -⟩ := exec_imaNext_of_hasNext hw hn
      exact ⟨t, ht, hwt⟩
  · cases hn : twobitHasNext s.twobit with
    | false => exact ⟨_, exec_twobitNext_at_end hn, hw⟩
    | true => exact exec_twobitNext_of_hasNext hw hn

end Sys2Proof.Machine
end

section
/-! The LPC synthesizer (spec/43_lpc_synth.md): the frame rows, a frame that runs out, and one sample through the
lattice. -/
namespace Sys2Proof.Machine

/-- Settles O21 (R143, R144, R145). -/
theorem lpcResetAttachAndStart : Obligations.LpcResetAttachAndStart :=
  fun _ _ _ _ => ⟨rfl, rfl, rfl⟩

/-- Settles O23 (R149): the silence frame is the layout of four clear bits. -/
theorem silenceFrameEffect : Obligations.SilenceFrameEffect :=
  fun _ h => lpcDecodeFrame_stands (f := .silence) ⟨trivial, h⟩

/-! ## The frame rows (log entry 8) -/

theorem lpcFrame_eq_refused {mode : BitVec 1} {f : Frame} {s : State} {r : Refusal} :
    lpcFrame mode f s = .refused r ↔ lpcDecodeFrame s.params s.rom (frameBits mode f) s.lpc = .error r := by
  unfold lpcFrame
  cases lpcDecodeFrame s.params s.rom (frameBits mode f) s.lpc <;> simp

/-- R93: a pitch of five bits written in six is found again in its five. -/
theorem setWidth6_setWidth5 {p : BitVec 6} (hp : p.toNat < 32) : (p.setWidth 5).setWidth 6 = p := by
  apply BitVec.eq_of_toNat_eq
  simp only [BitVec.toNat_setWidth]
  omega

/-- The row of a frame that fits the chip mode is that frame by itself. -/
theorem exec_toInstr {s : State} {f : Frame} (hf : LpcFrameFits s f) :
    exec (f.toInstr s.lpc.mode) s = lpcFrame s.lpc.mode f s := by
  cases f with
  | silence => rfl
  | stop => rfl
  | repeated e p =>
    rcases BitVec.eq_zero_or_eq_one s.lpc.mode with hm | hm
    · rw [hm]; rfl
    · rw [hm, ← setWidth6_setWidth5 (hf.2 hm)]; simp [Frame.toInstr, exec, execLpcfRepeatM1]
  | unvoiced e p lo =>
    rcases BitVec.eq_zero_or_eq_one s.lpc.mode with hm | hm
    · rw [hm]; rfl
    · rw [hm, ← setWidth6_setWidth5 (hf.2.1 hm)]; simp [Frame.toInstr, exec, execLpcfUnvoicedM1]
  | voiced e p lo hi =>
    rcases BitVec.eq_zero_or_eq_one s.lpc.mode with hm | hm
    · rw [hm]; rfl
    · rw [hm, ← setWidth6_setWidth5 (hf.2.1 hm)]; simp [Frame.toInstr, exec, execLpcfVoicedM1]

/-- A row in format `LPCF` is its frame by itself, in the mode that writes the same bits. -/
theorem exec_of_encode_lpcf {i : Instr} {mode : BitVec 1} {bits : List Bool} (s : State)
    (h : encode i = .lpcf mode bits) : ∃ m f, exec i s = lpcFrame m f s ∧ frameBits m f = bits := by
  cases i
  case lpcfSilence => cases h; exact ⟨s.lpc.mode, .silence, rfl, rfl⟩
  case lpcfStop => cases h; exact ⟨s.lpc.mode, .stop, rfl, rfl⟩
  case lpcfRepeatM0 | lpcfUnvoicedM0 | lpcfVoicedM0 | lpcfRepeatM1 | lpcfUnvoicedM1 | lpcfVoicedM1 =>
    cases h; exact ⟨_, _, rfl, rfl⟩
  all_goals cases h

/-- Settles O28 (R93, log entry 8). -/
theorem frameRowsActByTheirBits : Obligations.FrameRowsActByTheirBits := by
  intro i mode bits s henc
  obtain ⟨m, f, hexec, hbits⟩ := exec_of_encode_lpcf s henc
  rw [hexec, ← hbits]
  exact ⟨fun u hu => lpcFrame_eq_next.2 ⟨u, hu, rfl⟩, fun r hr => lpcFrame_eq_refused.2 hr⟩

/-- R148: the frame decoder over the bits of a frame laid over a cursor at which as many can be read. -/
theorem lpcDecodeFrame_given {s : State} {f : Frame} (hf : LpcFrameFits s f)
    (hread : LpcBitsReadable s (frameBits s.lpc.mode f).length) :
    ∃ v, lpcDecodeFrame s.params s.rom (frameBits s.lpc.mode f) s.lpc = .ok v ∧
      bitCursor v = bitCursor s.lpc + (frameBits s.lpc.mode f).length ∧
      v = { lpcApply s.params f s.lpc with cur := v.cur, bit := v.bit } := by
  have hparse := parseFrame_stands hf (overlay_stands _ _ _ ((lpcBitsReadable_iff s _).1 hread))
  refine ⟨lpcApply s.params f (lpcSeek s.lpc (lpcPos s.lpc + (frameBits s.lpc.mode f).length)), ?_, ?_, ?_⟩
  · rw [lpcDecodeFrame, lpcVoicedPitch_eq, hparse]
  · rw [bitCursor_lpcApply, bitCursor_lpcSeek s _ (length_frameBits_pos _ f) hread]
  · rw [lpcApply_lpcSeek]; rfl

/-- A frame row completes with the effect of its frame where its bits can be read. -/
theorem exec_frameRow {s : State} {f : Frame} (hf : LpcFrameFits s f)
    (hread : LpcBitsReadable s (frameBits s.lpc.mode f).length) :
    ∃ v : Lpc, exec (f.toInstr s.lpc.mode) s = .next { s with lpc := v } ∧
      bitCursor v = bitCursor s.lpc + (frameBits s.lpc.mode f).length ∧
      v = { lpcApply s.params f s.lpc with cur := v.cur, bit := v.bit } := by
  obtain ⟨v, hv, hcur, hregs⟩ := lpcDecodeFrame_given hf hread
  exact ⟨v, (exec_toInstr hf).trans (lpcFrame_eq_next.2 ⟨v, hv, rfl⟩), hcur, hregs⟩

/-- Settles O26 (R149, R150). -/
theorem silenceAndStopRowsComplete : Obligations.SilenceAndStopRowsComplete :=
  fun _ hread => ⟨exec_frameRow (f := .silence) trivial hread, exec_frameRow (f := .stop) trivial hread⟩

/-- Settles O27 (R151): each clause is `exec_frameRow` for its layout. -/
theorem normalFrameRowsComplete : Obligations.NormalFrameRowsComplete := by
  intro s e p lo hi he0 he15 hp T period k low completes P
  have he : normalEnergy e = true := (normalEnergy_iff e).2 ⟨he0, he15⟩
  have hlooked : lpcPeriodAt s.params s.lpc.mode p = period := lpcPeriodAt_eq s p
  refine ⟨fun hread => ?_, fun hperiod hread => ?_, fun hperiod hread => ?_⟩
  · have hrow := exec_frameRow (f := .repeated e p) ⟨he, hp⟩ (by rwa [length_frameBits_repeated])
    rw [length_frameBits_repeated] at hrow
    simp only [lpcApply, hlooked] at hrow
    exact hrow
  · have hunvoiced : decide (lookedUpPeriod s p ≠ 0) = false := decide_eq_false (not_not_intro hperiod)
    have hrow := exec_frameRow (f := .unvoiced e p lo) ⟨he, hp, hunvoiced⟩ (by rwa [length_frameBits_unvoiced])
    rw [length_frameBits_unvoiced] at hrow
    simp only [lpcApply, hlooked] at hrow
    exact hrow
  · have hvoiced : decide (lookedUpPeriod s p ≠ 0) = true := decide_eq_true hperiod
    have hrow := exec_frameRow (f := .voiced e p lo hi) ⟨he, hp, hvoiced⟩ (by rwa [length_frameBits_voiced])
    rw [length_frameBits_voiced] at hrow
    simp only [lpcApply, hlooked] at hrow
    exact hrow

/-! ## A frame whose bits run out (R75, R142) -/

/-- The given bits stand at the position they are laid over, as far as the stream's own may be read. -/
theorem overlay_stands_take (given : List Bool) (q0 n : Nat) (src : BitSource)
    (h : ∀ j, j < n → (src (q0 + j)).isSome) : Stands (overlay given q0 src) q0 (given.take n) := by
  intro j hj
  rw [List.length_take, Nat.lt_min] at hj
  obtain ⟨b, hb⟩ := Option.isSome_iff_exists.1 (h j hj.1)
  simp [overlay, hb, List.getD_eq_getElem?_getD, hj.2]

/-- A source on which the first `n` bits of a longer list stand, and which then ends, is that list cut short. -/
theorem runsOut_of_stands_take {src : BitSource} {q n : Nat} {bits : List Bool} (hn : n < bits.length)
    (h : Stands src q (bits.take n)) (hstop : src (q + n) = none) :
    RunsOut src (fun p => bits[p - q]?) q (q + n) := by
  refine ⟨Nat.le_add_right q n, fun p hle hlt => ?_, hstop⟩
  obtain ⟨j, rfl⟩ := Nat.exists_eq_add_of_le hle
  have hj : j < bits.length := by omega
  have hsrc := h j (by rw [List.length_take]; omega)
  simp [hsrc, hj]

/-- R142: the parser stops where a frame, of which only the first `n` bits stand in the source, runs out. -/
theorem parseFrame_runs_out {mode : BitVec 1} {voiced : BitVec 6 → Bool} {src : BitSource} {q n : Nat} {f : Frame}
    (hf : frameFits mode voiced f) (hn : n < (frameBits mode f).length)
    (h : Stands src q ((frameBits mode f).take n)) (hstop : src (q + n) = none) :
    parseFrame mode voiced src q = .error (q + n) := by
  have hfull := parseFrame_stands (src := fun p => (frameBits mode f)[p - q]?) (q := q) hf
    fun j hj => by simp [hj]
  rcases (runsOut_of_stands_take hn h hstop).parseFrame mode voiced with herr | ⟨r, -, hr, -, hle⟩
  · exact herr
  · rw [hfull] at hr
    obtain rfl := Except.ok.inj hr
    simp only at hle
    omega

/-- R142, R205: the frame decoder is refused at the first bit of the frame that may not be read. -/
theorem lpcDecodeFrame_runs_out {s : State} {f : Frame} {n : Nat} {given : List Bool} (hf : LpcFrameFits s f)
    (hn : n < (frameBits s.lpc.mode f).length) (hstop : ¬ LpcBitReadable s (bitCursor s.lpc + n))
    (h : Stands (overlay given (lpcPos s.lpc) (lpcBit s.rom s.lpc)) (lpcPos s.lpc)
      ((frameBits s.lpc.mode f).take n)) :
    lpcDecodeFrame s.params s.rom given s.lpc =
      .error (.streamOverrun .lpc (s.lpc.base.toNat + (bitCursor s.lpc + n) / 8)) := by
  have hnone : overlay given (lpcPos s.lpc) (lpcBit s.rom s.lpc) (lpcPos s.lpc + n) = none := by
    rwa [← Option.isNone_iff_eq_none, ← Option.isSome_eq_false_iff, ← Bool.not_eq_true, overlay_isSome, lpcBit_isSome]
  rw [lpcDecodeFrame, lpcVoicedPitch_eq, parseFrame_runs_out hf hn h hnone]
  rfl

/-- R147: an `LPC.NEXT` due to decode a frame is refused as the decode is. -/
theorem exec_lpcNext_of_error {s : State} {r : Refusal} (hfin : s.lpc.fin = false) (hpos : s.lpc.fpos = 0)
    (h : lpcDecodeFrame s.params s.rom [] s.lpc = .error r) : exec .lpcNext s = .refused r := by
  simp [exec, execLpcNext, lpcNextPull, hfin, hpos, h, lpcFinish]

/-- An `LPC.NEXT` due to decode a frame is refused where the frame's first `n` bits stand and the next may not be
read. -/
theorem exec_lpcNext_runs_out {s : State} {f : Frame} {n : Nat} (hf : LpcFrameFits s f)
    (hn : n < (frameBits s.lpc.mode f).length) (hstop : ¬ LpcBitReadable s (bitCursor s.lpc + n))
    (hfin : s.lpc.fin = false) (hpos : s.lpc.fpos = 0) (h : LpcBitsStand s ((frameBits s.lpc.mode f).take n)) :
    exec .lpcNext s = .refused (.streamOverrun .lpc (s.lpc.base.toNat + (bitCursor s.lpc + n) / 8)) := by
  refine exec_lpcNext_of_error hfin hpos (lpcDecodeFrame_runs_out hf hn hstop ?_)
  rw [overlay_nil]
  exact (lpcBitsStand_iff s _).1 h

/-- Settles O54 (R75, R142, D5, D31): over the row's own bits, and over the stream's. -/
theorem framesThatRunOutAreRefused : Obligations.FramesThatRunOutAreRefused := by
  intro s f n hf hn hstop addr
  refine ⟨fun hread => ?_, fun hfin hpos hstand => exec_lpcNext_runs_out hf hn hstop hfin hpos hstand⟩
  rw [exec_toInstr hf, lpcFrame_eq_refused]
  exact lpcDecodeFrame_runs_out hf hn hstop (overlay_stands_take _ _ _ _ ((lpcBitsReadable_iff s n).1 hread))

/-- Settles O52 (R75, D31): the pulls overrun at their byte; an `LPC.NEXT` whose cursor stands at the end meets a
frame that runs out at its first bit. -/
theorem overrunsAreRefusedWithTheirAddress : Obligations.OverrunsAreRefusedWithTheirAddress := by
  refine fun s => ⟨fun hnext hrom => ?_, fun hnext hrom => ?_, fun hfin hpos hend => ?_⟩
  · have hn : imaHasNext s.ima = true := (imaHasNext_iff _).2 hnext
    have hnib (c : BitVec 4) : exec (.nib4 c) s = .refused (.streamOverrun .ima (imaAddr s.ima)) :=
      congrArg (imaFinish s) (imaPull_overruns _ _ _ _ hn hrom)
    exact ⟨(exec_imaNext_eq_nib4 s).trans (hnib _), hnib⟩
  · have hn : twobitHasNext s.twobit = true := (twobitHasNext_iff _).2 hnext
    have hcode (c : BitVec 2) : exec (decodeCode2 c) s = .refused (.streamOverrun .twobit (twobitAddr s.twobit)) :=
      (exec_decodeCode2 c s).trans (congrArg (twobitFinish s) (twobitPull_overruns _ _ _ _ hn hrom))
    simp only [List.forall_mem_cons, List.not_mem_nil, false_imp_iff, implies_true, and_true]
    exact ⟨(exec_twobitNext_eq_code2 s).trans (hcode _), hcode 0, hcode 1, hcode 2, hcode 3⟩
  · have hbyte : bitCursor s.lpc / 8 = s.lpc.cur.toNat := by
      have := s.lpc.bit.isLt
      unfold bitCursor
      omega
    have hstop : ¬ LpcBitReadable s (bitCursor s.lpc + 0) := by
      simp only [LpcBitReadable, Nat.add_zero, hbyte]
      omega
    have hrefused := exec_lpcNext_runs_out (f := .silence) (n := 0) trivial (length_frameBits_pos _ _) hstop hfin hpos
      (fun j hj => absurd hj (Nat.not_lt_zero j))
    rwa [Nat.add_zero, hbyte] at hrefused

end Sys2Proof.Machine
end

section
/-! One sample of the LPC synthesizer (spec/43_lpc_synth.md sections 4, 6 to 8): the frame in force, the excitation,
the lattice by the spec's indices, and silence. -/
namespace Sys2Proof.Machine

/-! ## The frame in force (R147) -/

/-- Only the stop frame sets `fin`. -/
theorem lpcApply_fin_of_ne {f : Frame} (P : Params) (u : Lpc) (hf : f ≠ .stop) : (lpcApply P f u).fin = u.fin := by
  cases f with
  | stop => exact absurd rfl hf
  | _ => rfl

/-- A frame decode leaves the filter and both generators alone. -/
theorem lpcDecodeFrame_keeps {P : Params} {rom : Rom} {given : List Bool} {u v : Lpc}
    (h : lpcDecodeFrame P rom given u = .ok v) :
    v.fpos = u.fpos ∧ v.x = u.x ∧ v.ppos = u.ppos ∧ v.lfsr = u.lfsr := by
  obtain ⟨f, q, -, rfl⟩ := lpcDecodeFrame_ok h
  simp

theorem LpcFrameInForce.keeps {s : State} {v : Lpc} (h : LpcFrameInForce s v) :
    v.fpos = s.lpc.fpos ∧ v.x = s.lpc.x ∧ v.ppos = s.lpc.ppos ∧ v.lfsr = s.lpc.lfsr := by
  rcases h with ⟨-, rfl⟩ | ⟨-, hv, -⟩
  · exact ⟨rfl, rfl, rfl, rfl⟩
  · exact lpcDecodeFrame_keeps hv

/-- R147: with a frame in force a pull is one sample of it. -/
theorem lpcNextPull_of_inForce {s : State} {v : Lpc} (hfin : s.lpc.fin = false) (h : LpcFrameInForce s v) :
    lpcNextPull s.params s.rom s.lpc = .ok (lpcSample s.params v) := by
  rcases h with ⟨hpos, rfl⟩ | ⟨hpos, hv, hvfin⟩
  · rw [lpcNextPull, hfin, if_neg Bool.false_ne_true, if_neg hpos]
  · simp [lpcNextPull, hfin, hpos, hv, hvfin]

theorem exec_lpcNext_of_inForce {s : State} {v : Lpc} (hfin : s.lpc.fin = false) (h : LpcFrameInForce s v) :
    exec .lpcNext s = .next { s with
      lpc := (lpcSample s.params v).1, res := resSample (lpcSample s.params v).2 } :=
  congrArg (lpcFinish s) (lpcNextPull_of_inForce hfin h)

/-- R147, R150 (D12, D13): the pull that decodes the stop frame returns 0 and synthesises nothing. -/
theorem exec_lpcNext_of_stop {s : State} {v : Lpc} (hfin : s.lpc.fin = false) (hpos : s.lpc.fpos = 0)
    (hv : lpcDecodeFrame s.params s.rom [] s.lpc = .ok v) (hvfin : v.fin = true) :
    exec .lpcNext s = .next { s with lpc := v, res := 0 } := by
  have hpull : lpcNextPull s.params s.rom s.lpc = .ok (v, 0) := by simp [lpcNextPull, hfin, hpos, hv, hvfin]
  exact congrArg (lpcFinish s) hpull

/-- Settles O29 (R147): `fin` after the decode says whether the frame was the stop frame. -/
theorem lpcNextDecodesTheFrameFirst : Obligations.LpcNextDecodesTheFrameFirst := by
  intro s f hfin hpos hstand
  obtain ⟨v, hv, -, hregs⟩ := lpcDecodeFrame_stands hstand
  have hvfin : v.fin = (lpcApply s.params f s.lpc).fin := (congrArg Lpc.fin hregs :)
  refine ⟨v, hv, fun hf => ?_, fun hf => ?_⟩
  · have hset : v.fin = true := by rw [hvfin, hf]; rfl
    exact ⟨hset, exec_lpcNext_of_stop hfin hpos hv hset⟩
  · have hclear : v.fin = false := by rw [hvfin, lpcApply_fin_of_ne _ _ hf, hfin]
    exact ⟨hclear, exec_lpcNext_of_inForce hfin (.inr ⟨hpos, hv, hclear⟩)⟩

/-- R147: an `LPC.NEXT` completes after the stop frame, within a frame, and where a whole frame stands at the cursor. -/
theorem exec_lpcNext_completes {s : State} (h : s.lpc.fin = true ∨ s.lpc.fpos ≠ 0 ∨ ∃ f, LpcFrameStands s f) :
    ∃ t, exec .lpcNext s = .next t := by
  cases hfin : s.lpc.fin with
  | true => exact ⟨_, (stopFrameEffect.2 s hfin).2⟩
  | false =>
    by_cases hpos : s.lpc.fpos = 0
    · obtain ⟨f, hf⟩ : ∃ f, LpcFrameStands s f := by simpa [hfin, hpos] using h
      obtain ⟨v, -, hstop, hsample⟩ := lpcNextDecodesTheFrameFirst s f hfin hpos hf
      by_cases hs : f = .stop
      · exact ⟨_, (hstop hs).2⟩
      · exact ⟨_, (hsample hs).2⟩
    · exact ⟨_, exec_lpcNext_of_inForce hfin (.inl ⟨hpos, rfl⟩)⟩

/-! ## The excitation (R152, R154) -/

theorem lpcVoiced_iff (u : Lpc) : lpcVoiced u = true ↔ u.period ≠ 0 := by
  simp [lpcVoiced]

theorem lpcExcite_voiced {P : Params} {u : Lpc} (h : u.period ≠ 0) :
    lpcExcite P u = ({ u with ppos := lpcNextPpos u }, lpcVoicedValue P u) := if_pos ((lpcVoiced_iff u).2 h)

theorem lpcExcite_unvoiced {P : Params} {u : Lpc} (h : u.period = 0) :
    lpcExcite P u = ({ u with lfsr := lfsrStep u.lfsr }, lpcUnvoicedValue u) :=
  if_neg fun hv => (lpcVoiced_iff u).1 hv h

/-- R154: one step of the noise register as a shift and a conditional feedback. -/
theorem lfsrStep_eq_xor (r : BitVec 16) :
    lfsrStep r = (r >>> 1) ^^^ (if r.getLsbD 0 then 0xB800#16 else 0) := by
  unfold lfsrStep
  split
  · rfl
  · simp

/-- R152: the lookup index, clamped into the table. -/
theorem lpcWaveAt_eq (P : Params) (ppos : Byte) :
    lpcWaveAt P ppos = P.lpcWave[(if ppos.toNat < 41 then ppos.toNat else 0)]'(by split <;> omega) := by
  unfold lpcWaveAt
  split <;> rfl

/-- R152: the product of a table entry and an energy, shifted by 8, fits an i16. -/
theorem lpcVoicedValue_toInt (P : Params) (u : Lpc) :
    (lpcVoicedValue P u).toInt = (lpcWaveAt P u.ppos).toInt * u.energy.toNat / 256 := by
  have hw₁ := BitVec.le_toInt (lpcWaveAt P u.ppos)
  have hw₂ := BitVec.toInt_lt (x := lpcWaveAt P u.ppos)
  have he : (u.energy.toNat : Int) ≤ 65535 := by have := u.energy.isLt; omega
  have hlow : -128 * (u.energy.toNat : Int) ≤ (lpcWaveAt P u.ppos).toInt * u.energy.toNat :=
    Int.mul_le_mul_of_nonneg_right (by simpa using hw₁) (Int.natCast_nonneg _)
  have hhigh : (lpcWaveAt P u.ppos).toInt * u.energy.toNat ≤ 127 * (u.energy.toNat : Int) :=
    Int.mul_le_mul_of_nonneg_right (by simp at hw₂; omega) (Int.natCast_nonneg _)
  rw [lpcVoicedValue, wraps16, asr, toInt_ofInt16] <;> omega

/-- R152: the pitch position counts up to the period. -/
theorem lpcNextPpos_toNat (u : Lpc) :
    (lpcNextPpos u).toNat = if u.ppos.toNat + 1 ≥ u.period.toNat then 0 else u.ppos.toNat + 1 := by
  have := u.period.isLt
  unfold lpcNextPpos
  split
  · rfl
  · rw [BitVec.toNat_add, show (1 : Byte).toNat = 1 from rfl]; omega

/-! ## The lattice by the spec's indices (R153, R155, R157) -/

/-- R153: the terms of K3 to K10 wrap the product where the parameter says. -/
theorem narrowTerm_eq (P : Params) (k : BitVec 8) (v : Sample) :
    narrowTerm P k v =
      if P.lpcNarrowWrap then asr (wraps16 (k.toInt * v.toInt)).toInt 7 else asr (k.toInt * v.toInt) 7 := by
  unfold narrowTerm
  split <;> rfl

/-- R155: the intermediate values of one sample by their index, `u 10` being the excitation. -/
def Forward.value (f : Forward) (u10 : Sample) : Nat → Sample
  | 0 => f.u0
  | 1 => f.u1
  | 2 => f.u2
  | 3 => f.u3
  | 4 => f.u4
  | 5 => f.u5
  | 6 => f.u6
  | 7 => f.u7
  | 8 => f.u8
  | 9 => f.u9
  | _ => u10

/-- R155: each value of the forward pass from the one above it and the old delay line. -/
theorem forwardPass_value (P : Params) (k : LpcK) (x : Vector Sample 10) (u10 : Sample) (i : Fin 10) :
    (forwardPass P k x u10).value u10 i.val =
      BitVec.ofInt 16 (((forwardPass P k x u10).value u10 (i.val + 1)).toInt - latticeTerm P k (i.val + 1) x[i]) := by
  fin_cases i <;> simp only [forwardPass, narrowTerm_eq] <;> rfl

/-- R157: each register of the new delay line from the old one below it, the first from the clamped output. -/
theorem reversePass_getElem (P : Params) (k : LpcK) (x : Vector Sample 10) (f : Forward) (u10 u0c : Sample) (i : Fin 9) :
    (reversePass P k x f u0c)[i.val + 1] =
      BitVec.ofInt 16 (x[i.val].toInt + latticeTerm P k (i.val + 1) (if i.val = 0 then u0c else f.value u10 i.val)) := by
  fin_cases i <;> simp only [reversePass, narrowTerm_eq] <;> rfl

/-- R147: a sample writes the frame position, the generators and the delay line. -/
theorem lpcSample_frame (P : Params) (u : Lpc) :
    (lpcSample P u).1 = { u with
      fpos := (lpcSample P u).1.fpos, ppos := (lpcSample P u).1.ppos, lfsr := (lpcSample P u).1.lfsr,
      x := (lpcSample P u).1.x } := by
  unfold lpcSample lpcExcite
  split <;> rfl

theorem lpcSample_fpos_toNat (P : Params) (u : Lpc) : (lpcSample P u).1.fpos.toNat = (u.fpos.toNat + 1) % 200 := by
  rw [lpcSample_fpos, BitVec.toNat_ofNat, Config.frameSamples]
  omega

/-- Settles O30 (R147, R152 to R158): the intermediate values are those of the forward pass over the delay line of the
unit, the frame in force having left it and the generators alone. -/
theorem lpcNextSynthesisesOneSample : Obligations.LpcNextSynthesisesOneSample := by
  intro s v hfin hforce
  obtain ⟨hfpos, hx, hppos, hlfsr⟩ := hforce.keeps
  simp only [← hfpos, ← hppos, ← hlfsr, ← hx]
  refine ⟨_, (forwardPass s.params v.k v.x (lpcExcite s.params v).2).value (lpcExcite s.params v).2,
    exec_lpcNext_of_inForce hfin hforce, rfl, lpcSample_frame _ _, lpcSample_fpos_toNat _ _, fun hvoiced => ?_,
    fun hunvoiced => ?_, forwardPass_value _ _ _ _, ?_, reversePass_getElem _ _ _ _ _ _, ?_, resSample_toNat_lt _⟩
  · simp only [lpcSample_lfsr, lpcSample_ppos, lpcExcite_voiced hvoiced, Forward.value, ← lpcWaveAt_eq, true_and]
    exact ⟨lpcNextPpos_toNat v, lpcVoicedValue_toInt _ v⟩
  · simp only [lpcSample_lfsr, lpcSample_ppos, lpcExcite_unvoiced hunvoiced, Forward.value, lpcUnvoicedValue, wraps16, true_and]
    exact ⟨lfsrStep_eq_xor _, (apply_ite _ _ _ _).symm⟩
  · exact (congrArg BitVec.toInt (lpcSample_x0 _ _)).trans (clampOutput_toInt _)
  · rw [resSample_setWidth, Int.mul_comm]
    exact (outputIsScaledBySixtyFour s.params v).1

/-! ## Silence (R159) -/

theorem wideTerm_zero (k : BitVec 16) : wideTerm k 0 = 0 := by
  simp [wideTerm, asr]

theorem narrowTerm_zero (P : Params) (k : BitVec 8) : narrowTerm P k 0 = 0 := by
  simp [narrowTerm, asr, wraps16]

theorem lpcExcite_of_energy_zero {P : Params} {u : Lpc} (h : u.energy = 0) : (lpcExcite P u).2 = 0 := by
  unfold lpcExcite
  split
  · simp [lpcVoicedValue, h, asr, wraps16]
  · simp [lpcUnvoicedValue, h, wraps16]

/-- R155 to R157: an empty delay line with no excitation stays empty, and the output is 0. -/
theorem lattice_zero (P : Params) (k : LpcK) : lattice P k (.replicate 10 0) 0 = (.replicate 10 0, 0) := by
  have hstage : forwardStage 0 0 = 0 := rfl
  have hback : reverseStage 0 0 = 0 := rfl
  have hforward : forwardPass P k (.replicate 10 0) 0 = ⟨0, 0, 0, 0, 0, 0, 0, 0, 0, 0⟩ := by
    simp only [forwardPass, Vector.getElem_replicate, wideTerm_zero, narrowTerm_zero, hstage]
  have hclamp : clampOutput 0 = 0 := rfl
  simp only [lattice, hforward, hclamp, reversePass, Vector.getElem_replicate, wideTerm_zero, narrowTerm_zero, hback]
  rfl

/-- Settles O32 (R159): no excitation into an empty delay line. -/
theorem silentLpcStaysSilent : Obligations.SilentLpcStaysSilent := by
  intro P u henergy hx
  have hline : u.x = .replicate 10 0 := Vector.ext fun i hi => by simpa using hx ⟨i, hi⟩
  have hlattice : lattice P u.k u.x (lpcExcite P u).2 = (.replicate 10 0, 0) := by
    rw [hline, lpcExcite_of_energy_zero henergy, lattice_zero]
  refine ⟨?_, (lpcSample_energy P u).trans henergy, fun i => ?_⟩
  · rw [lpcSample_result, hlattice]; rfl
  · rw [lpcSample_x, hlattice]; simp

/-- Settles O33 (R154): the values are computed, the law is `lfsrStep_ne_zero`. -/
theorem noiseRegisterSequence : Obligations.NoiseRegisterSequence :=
  ⟨by decide, lfsrStep_ne_zero⟩

end Sys2Proof.Machine
end

section
/-! The mixer (spec/44_mixer.md): bind and reset, the scheduler over one track and over all of them, the oscillators and
the output stage. -/
namespace Sys2Proof.Machine

/-! ## Reset, all-off and bind (R171 to R173) -/

/-- Settles O34 (R171, R173). -/
theorem mixResetAndAllOff : Obligations.MixResetAndAllOff :=
  fun s => ⟨⟨_, rfl, rfl, fun k => ⟨mixRestart_voice k, mixRestart_track k⟩⟩,
    ⟨_, rfl, rfl, fun k => ⟨silenceAll_voice s.mix k, silenceAll_track s.mix k⟩⟩⟩

theorem exec_mixBind_of_eq {a : Word} {k : Fin 8} (b c d : Word) (s : State) (h : a.toNat = k.val) :
    exec (.mixBind a b c d) s = mixFinish s ((bindTrack s.note s.mix k b c d).map fun m => (m, 0)) := by
  have hk : (⟨a.toNat, h ▸ k.isLt⟩ : Fin 8) = k := Fin.ext h
  rw [exec, execMixBind, dif_pos (h ▸ k.isLt), hk]

/-- Settles O35 (R172, D23): `bindTrack` reads the first record of a sequence that has one. -/
theorem mixBindEffect : Obligations.MixBindEffect := by
  intro s a b c d shift bound
  refine ⟨fun ha => ?_, fun k hk => ?_⟩
  · rw [exec, execMixBind, dif_neg (Nat.not_lt.2 ha), finish_ok]
  · rw [exec_mixBind_of_eq b c d s hk]
    refine ⟨fun hc => ?_, fun hc hb => ?_, fun hc hb => ?_⟩
    · subst hc
      rfl
    · have harmed : (c != 0) = true := by simpa using hc
      rw [bindTrack, if_neg hc, mixNoteRead_of_lt _ _ hb]
      simp only [boundTrack, harmed]
      rfl
    · rw [bindTrack, if_neg hc, mixNoteRead_of_le _ _ hb]
      rfl

/-! ## One track (R174 to R178) -/

/-- The record that `NOTE3` brings stands for the one at a cursor inside `NOTE` (log entry 9). -/
theorem noteRead_replaced {note : NoteMem} {i : Nat} (r : NoteRec) (h : i < note.size) :
    (mixNoteRead note i).map (fun _ => r) = .ok r := by
  rw [mixNoteRead_of_lt _ _ h]
  rfl

/-- R174 to R176: a track that reads inside `NOTE`, or reads nothing, is scheduled. -/
theorem exec_note3_scheduled {s : State} {k : Fin 8} (r : NoteRec) (h : ReadsNote s k → NoteReadable s k) :
    exec (.note3 k r) s = .next { s with mix :=
      { voice := s.mix.voice.set k (scheduled s.params r s.mix.track[k] s.mix.voice[k]).2
        track := s.mix.track.set k (scheduled s.params r s.mix.track[k] s.mix.voice[k]).1 } } := by
  have htrack := scheduleTrack_scheduled s.params (fun i => (mixNoteRead s.note i).map fun _ => r) s.mix.track[k]
    s.mix.voice[k] r fun ht => noteRead_replaced r (h ht)
  rw [exec, execNote3, scheduleLane, htrack]
  rfl

/-- Settles O36. -/
theorem note3SchedulesOneTrack : Obligations.Note3SchedulesOneTrack :=
  fun _ _ r h => exec_note3_scheduled r h

/-- `scheduled` is the scheduler over a `NOTE` in which every record is `r`. -/
theorem scheduleTrack_const (P : Params) (r : NoteRec) (t : Track) (v : Voice) :
    scheduleTrack P (fun _ => .ok r) t v = .ok ((scheduled P r t v).1, (scheduled P r t v).2) :=
  scheduleTrack_scheduled P _ t v r fun _ => rfl

/-- R176: a tick keeps the sequence and the shift of a track; its index stays, or moves on by one where commands
remain. -/
theorem scheduled_track (P : Params) (r : NoteRec) (t : Track) (v : Voice) :
    (scheduled P r t v).1.seqLen = t.seqLen ∧ (scheduled P r t v).1.pitchShift = t.pitchShift ∧
    ((scheduled P r t v).1.index = t.index ∨
      t.index.toNat < t.seqLen.toNat ∧ (scheduled P r t v).1.index = t.index + 1) := by
  rcases scheduleTrack_ok (scheduleTrack_const P r t v) with ⟨ht, -⟩ | ⟨-, ht, -⟩ | ⟨-, -, -, _, -, ht⟩ | ⟨-, -, -, ht⟩ |
    ⟨-, -, ht, -⟩ | ⟨-, hremain, r', -, hstart⟩
  iterate 5
    · rw [ht]
      exact ⟨rfl, rfl, .inl rfl⟩
  · obtain ⟨ht, -⟩ := Prod.mk.inj hstart
    rw [ht]
    exact ⟨rfl, rfl, .inr ⟨of_decide_eq_true hremain, rfl⟩⟩

/-! ## All tracks (R174) -/

/-- R174, R179: a tick that completes has read every record inside `NOTE`, and leaves each track as the scheduler says
and each voice as the oscillator moves it on. -/
theorem mixTickPull_scheduled {P : Params} {note : NoteMem} {m m' : Mix} {d : Byte}
    (h : mixTickPull P note m = .ok (m', d)) (k : Fin 8) :
    (TrackReads m.track[k] m.voice[k] → cursorIndex m.track[k] < note.size) ∧
    m'.track[k] = (scheduled P (readCells noteFill note.cells (cursorIndex m.track[k])) m.track[k] m.voice[k]).1 ∧
    m'.voice[k] = oscillated
      (scheduled P (readCells noteFill note.cells (cursorIndex m.track[k])) m.track[k] m.voice[k]).2 := by
  obtain ⟨m₁, hlanes, rfl, -⟩ := mixTickPull_ok h
  have htrack := (scheduleLanes_ok lanes_nodup hlanes k).1 (mem_lanes k)
  have hread : TrackReads m.track[k] m.voice[k] → cursorIndex m.track[k] < note.size := fun ht => by
    by_contra hn
    rw [scheduleTrack_refused _ _ _ _ _ ht (mixNoteRead_of_le _ _ (not_lt.1 hn))] at htrack
    cases htrack
  rw [scheduleTrack_scheduled _ _ _ _ _ fun ht => mixNoteRead_of_lt _ _ (hread ht)] at htrack
  rw [Except.ok.inj htrack, advanceVoices_track, advanceVoices_voice]
  exact ⟨hread, rfl, rfl⟩

/-- R174, R205: a tick completes wherever each record that is read lies inside `NOTE`. -/
theorem mixTickPull_answers {P : Params} {note : NoteMem} {m : Mix}
    (h : ∀ k : Fin 8, TrackReads m.track[k] m.voice[k] → cursorIndex m.track[k] < note.size) :
    ∃ m' d, mixTickPull P note m = .ok (m', d) := by
  cases hpull : mixTickPull P note m with
  | ok r => exact ⟨r.1, r.2, rfl⟩
  | error e =>
    obtain ⟨k, hreads, hout, -⟩ := mixTickPull_error_iff.1 hpull
    exact absurd (h k hreads) (Nat.not_lt.2 hout)

theorem exec_mixTick_of_ok {s : State} {m : Mix} {d : Byte} (h : mixTickPull s.params s.note s.mix = .ok (m, d)) :
    exec .mixTick s = .next { s with mix := m, res := resDuty d } := by
  rw [exec, execMixTick, h]
  rfl

theorem exec_mixTick_eq_next {s t : State} (h : exec .mixTick s = .next t) :
    ∃ m d, mixTickPull s.params s.note s.mix = .ok (m, d) ∧ t = { s with mix := m, res := resDuty d } := by
  obtain ⟨m, v, hmap, rfl⟩ := mixFinish_eq_next.1 h
  obtain ⟨⟨m', d⟩, hpull, heq⟩ := except_map_eq_ok.1 hmap
  obtain ⟨rfl, rfl⟩ := Prod.mk.inj heq
  exact ⟨m', d, hpull, rfl⟩

/-- Settles O38 (R174 to R176, R179). -/
theorem mixTickTracksFollowNote3 : Obligations.MixTickTracksFollowNote3 := by
  intro s t k h
  obtain ⟨m, d, hpull, rfl⟩ := exec_mixTick_eq_next h
  obtain ⟨hread, htrack, hvoice⟩ := mixTickPull_scheduled hpull k
  refine ⟨_, exec_note3_scheduled _ hread, ?_, ?_⟩
  · rw [Fin.getElem_fin, Fin.getElem_fin, Vector.getElem_set_self]
    exact htrack
  · rw [Fin.getElem_fin, Fin.getElem_fin, Vector.getElem_set_self]
    exact hvoice

/-- Settles O39 (R24, R35, R176): an index moves on only inside its sequence, whose length fits the register. -/
theorem trackIndexGrowsByAtMostOne : Obligations.TrackIndexGrowsByAtMostOne := by
  intro s t k h hin
  obtain ⟨m, d, hpull, rfl⟩ := exec_mixTick_eq_next h
  obtain ⟨-, htrack, -⟩ := mixTickPull_scheduled hpull k
  obtain ⟨hlen, -, hindex⟩ := scheduled_track s.params
    (readCells noteFill s.note.cells (cursorIndex s.mix.track[k])) s.mix.track[k] s.mix.voice[k]
  rw [← htrack] at hlen hindex
  have hbound := s.mix.track[k].seqLen.isLt
  rcases hindex with hstay | ⟨hremain, hmove⟩
  · simp only [hlen, hstay]
    omega
  · simp only [hlen, hmove, BitVec.toNat_add, toNat_one32]
    omega

/-- Settles O55 (R75, R205). -/
theorem recordsOutsideNoteAreRefused : Obligations.RecordsOutsideNoteAreRefused := by
  intro s k hreads hout
  refine ⟨fun r => ?_, fun hearlier => ?_⟩
  · have herr : (mixNoteRead s.note (cursorIndex s.mix.track[k])).map (fun _ => r) =
        .error (.streamOverrun .mix (noteCursor s k)) :=
      congrArg (Except.map fun _ => r) (mixNoteRead_of_le s.note (noteCursor s k) hout)
    have htrack := scheduleTrack_refused s.params (fun i => (mixNoteRead s.note i).map fun _ => r) s.mix.track[k]
      s.mix.voice[k] _ hreads herr
    rw [exec, execNote3, scheduleLane, htrack]
    rfl
  · have hpull : mixTickPull s.params s.note s.mix = .error (.streamOverrun .mix (noteCursor s k)) :=
      mixTickPull_error_iff.2 ⟨k, hreads, hout, rfl, hearlier⟩
    rw [exec, execMixTick, hpull]
    rfl

/-! ## The output stage (R180) -/

/-- R180: the sum is limited, biased and clamped to a byte. -/
theorem mixOutput_toNat (P : Params) (sum : Int) :
    ((mixOutput P sum).toNat : Int) =
      max 0 (min 255 (max (-(P.mixLimit : Int)) (min P.mixLimit sum) + P.mixBias)) := by
  have hinner := clamp_eq_max_min sum (-(P.mixLimit : Int)) P.mixLimit (by omega)
  have houter := clamp_eq_max_min (clamp sum (-(P.mixLimit : Int)) P.mixLimit + P.mixBias) 0 255 (by decide)
  rw [mixOutput, toNat_ofInt 8 _ (le_clamp _ _ _ (by decide)) (by rw [houter]; omega), houter, hinner]

/-- Sums that are limited alike give the same byte. -/
theorem mixOutput_congr {P : Params} {a b : Int}
    (h : max (-(P.mixLimit : Int)) (min P.mixLimit a) = max (-(P.mixLimit : Int)) (min P.mixLimit b)) :
    mixOutput P a = mixOutput P b := by
  apply BitVec.eq_of_toNat_eq
  have hcast : ((mixOutput P a).toNat : Int) = (mixOutput P b).toNat := by rw [mixOutput_toNat, mixOutput_toNat, h]
  exact_mod_cast hcast

/-- Settles O42 (R180, D26). -/
theorem outputSaturatesAtTheLimit : Obligations.OutputSaturatesAtTheLimit := by
  intro P sum hpos
  refine ⟨fun h => mixOutput_congr (by omega), fun h => mixOutput_congr (by omega), fun hlimit hbias => ⟨?_, ?_, ?_⟩⟩
  · rw [mixOutput_toNat, hlimit, hbias]
    omega
  · simp only [mixOutput, hlimit, hbias]
    decide
  · simp only [mixOutput, hlimit, hbias]
    decide

/-- R179: a voice contributes its amplitude, positive in the upper half of its phase. -/
theorem voiceSample_eq (v : Voice) :
    voiceSample v = if v.active = false then 0 else if 2 ^ 31 ≤ v.phase.toNat then v.amp.toInt else -v.amp.toInt := by
  have htop : v.phase.getLsbD 31 = true ↔ 2 ^ 31 ≤ v.phase.toNat := by
    rw [← BitVec.msb_eq_getLsbD_last, BitVec.msb_eq_decide, decide_eq_true_eq]
  unfold voiceSample
  cases hactive : v.active with
  | false => rfl
  | true => simp only [if_true, if_congr htop rfl rfl, Bool.true_eq_false, if_false]

theorem mixSum_eq (m : Mix) :
    mixSum m = voiceSample m.voice[0] + voiceSample m.voice[1] + voiceSample m.voice[2] + voiceSample m.voice[3] +
      voiceSample m.voice[4] + voiceSample m.voice[5] + voiceSample m.voice[6] + voiceSample m.voice[7] := by
  simp only [mixSum, lanes, List.map_cons, List.map_nil, List.sum_cons, List.sum_nil]
  simp only [Fin.getElem_fin, add_zero, ← add_assoc]
  rfl

theorem resDuty_toNat (d : Byte) : (resDuty d).toNat = d.toNat := by
  rw [resDuty, BitVec.toNat_setWidth]
  have := d.isLt
  omega

/-- Settles O37 (R174, R179, R180, D30). -/
theorem mixTickSchedulesThenMixes : Obligations.MixTickSchedulesThenMixes := by
  intro s hread
  obtain ⟨m, d, hpull⟩ := mixTickPull_answers (P := s.params) hread
  refine ⟨_, exec_mixTick_of_ok hpull, rfl, fun k => (mixTickPull_scheduled hpull k).2, ?_⟩
  obtain ⟨-, -, -, rfl⟩ := mixTickPull_ok hpull
  simp only [resDuty_toNat, mixOutput_toNat, mixSum_eq, voiceSample_eq]
  rfl

/-! ## A reset mixer (R171) -/

/-- A track that is not armed is left alone, and so is its voice. -/
theorem scheduled_of_not_armed {P : Params} {r : NoteRec} {t : Track} {v : Voice} (h : t.armed = false) :
    scheduled P r t v = (t, v) := if_pos h

theorem Mix.ext_lanes {m m' : Mix} (ht : ∀ k : Fin 8, m'.track[k] = m.track[k])
    (hv : ∀ k : Fin 8, m'.voice[k] = m.voice[k]) : m' = m := by
  obtain ⟨voice, track⟩ := m
  obtain ⟨voice', track'⟩ := m'
  congr
  · exact Vector.ext fun i hi => hv ⟨i, hi⟩
  · exact Vector.ext fun i hi => ht ⟨i, hi⟩

theorem mixSum_of_silent {m : Mix} (h : ∀ k : Fin 8, m.voice[k].active = false) : mixSum m = 0 := by
  have hzero : (fun k : Fin 8 => voiceSample m.voice[k]) = fun _ => 0 := by
    funext k
    rw [voiceSample_eq, if_pos (h k)]
  rw [mixSum, hzero]
  rfl

/-- A tick of a mixer with no track armed and no voice active leaves it as it is and returns the clamped bias. -/
theorem mixTickPull_of_silent (P : Params) (note : NoteMem) {m : Mix} (harmed : ∀ k : Fin 8, m.track[k].armed = false)
    (hactive : ∀ k : Fin 8, m.voice[k].active = false) :
    mixTickPull P note m = .ok (m, mixOutput P 0) := by
  obtain ⟨m', d, hpull⟩ := mixTickPull_answers (P := P) (note := note) (m := m) fun k hk => by
    rw [TrackReads, harmed k] at hk
    exact absurd hk.1 (by decide)
  have hsame : m' = m := Mix.ext_lanes
    (fun k => by rw [(mixTickPull_scheduled hpull k).2.1, scheduled_of_not_armed (harmed k)])
    (fun k => by
      rw [(mixTickPull_scheduled hpull k).2.2, scheduled_of_not_armed (harmed k), oscillated, hactive k]
      rfl)
  obtain ⟨-, -, -, hd⟩ := mixTickPull_ok hpull
  rw [hpull, hd, hsame, mixSum_of_silent hactive]

/-- Settles O40 (R171, D25, D26). -/
theorem resetMixerIsSilent : Obligations.ResetMixerIsSilent := by
  refine ⟨fun s => ⟨_, rfl, fun k => ⟨mixRestart_voice k, mixRestart_track k⟩⟩, fun s hreset => ?_⟩
  have hpull := mixTickPull_of_silent s.params s.note (m := s.mix) (fun k => by rw [(hreset k).2])
    (fun k => by rw [(hreset k).1])
  refine ⟨_, exec_mixTick_of_ok hpull, ?_⟩
  rw [resDuty_toNat, mixOutput_toNat]
  omega

/-! ## The phase increment (R177) -/

/-- The nearest integer to `n / d`, ties upward, for an even `d`. -/
theorem nearest_div (n : Nat) {d : Nat} (hd : 0 < d) (heven : d % 2 = 0) :
    2 * ((n + d / 2) / d) * d ≤ 2 * n + d ∧ 2 * n < 2 * ((n + d / 2) / d) * d + d := by
  have hle := Nat.div_mul_le_self (n + d / 2) d
  have hlt := Nat.lt_div_mul_add (a := n + d / 2) hd
  rw [Nat.mul_assoc]
  omega

theorem phaseInc_of_zero {period shift : Word} (h : adjustedPeriod period shift = 0) : phaseInc period shift = 0 :=
  if_pos h

theorem phaseInc_of_pos {period shift : Word} {adj : Nat} (hadj : adjustedPeriod period shift = adj) (h : 0 < adj) :
    phaseInc period shift = BitVec.ofNat 32 ((2 ^ 32 * 10 ^ 6 + adj * 8000 / 2) / (adj * 8000)) := by
  subst hadj
  exact if_neg (Nat.pos_iff_ne_zero.1 h)

/-- Settles O41 (R177, D22): the quotient rounds to the nearest integer, and from 126 microseconds on it fits the
register. -/
theorem phaseIncIsTheNearestInteger : Obligations.PhaseIncIsTheNearestInteger := by
  intro period shift adj nearest
  have hadj : adjustedPeriod period shift = adj := rfl
  have hnearest (h : 0 < adj) : nearest ((2 ^ 32 * 10 ^ 6 + adj * 8000 / 2) / (adj * 8000)) :=
    nearest_div _ (by omega) (by omega)
  refine ⟨phaseInc_of_zero, fun h => ⟨_, hnearest h, ?_⟩, fun h => ?_, fun h => ?_⟩
  · rw [phaseInc_of_pos hadj h, BitVec.toNat_ofNat]
  · rw [phaseInc_of_pos (hadj.trans h) (by decide)]
    rfl
  · have hpos : 0 < adj := Nat.lt_trans (by decide) h
    have hlt : (2 ^ 32 * 10 ^ 6 + adj * 8000 / 2) / (adj * 8000) < 2 ^ 32 := by
      rw [Nat.div_lt_iff_lt_mul (by omega)]
      omega
    rw [phaseInc_of_pos hadj hpos, BitVec.toNat_ofNat, Nat.mod_eq_of_lt hlt]
    exact hnearest hpos

end Sys2Proof.Machine
end

section
/-! The player (spec/45_player.md): the tick over the selected source, the poll, and the two deployment shapes. -/
namespace Sys2Proof.Machine

/-! ## The duty value (R194) -/

/-- R194 (D28): floor(sample / 256) + 128 fits a byte. -/
theorem duty16_toNat (v : Sample) : ((duty16 v).toNat : Int) = v.toInt / 256 + 128 := by
  have hlow := BitVec.le_toInt v
  have hhigh := BitVec.toInt_lt (x := v)
  rw [duty16, asr, toNat_ofInt] <;> omega

/-- Settles O48 (R194): the sample of the two-bit decoder is a whole multiple of 256. -/
theorem dutyOfATwobitSampleIsThePredictor : Obligations.DutyOfATwobitSampleIsThePredictor := by
  intro u
  have hduty := duty16_toNat (twobitSample u)
  rw [twobitSample_toInt] at hduty
  exact BitVec.eq_of_toNat_eq (by omega)

@[simp] theorem resDuty_setWidth (d : Byte) : (resDuty d).setWidth 8 = d := by
  simp [resDuty]

theorem resTicked_toNat (d : Byte) : (resTicked d).toNat = 256 + d.toNat := by
  have := d.isLt
  rw [resTicked, BitVec.toNat_add, BitVec.toNat_setWidth, show (0x100 : Word).toNat = 256 from rfl]
  omega

/-- R82, R196: the low byte of a poll that ticked is the duty value, and bit 8 says that it ticked. -/
theorem resTicked_fields (d : Byte) : (resTicked d).getLsbD 8 = true ∧ (resTicked d).setWidth 8 = d := by
  have := d.isLt
  constructor
  · rw [BitVec.getLsbD, resTicked_toNat, Nat.testBit_eq_decide_div_mod_eq, decide_eq_true_eq]
    omega
  · apply BitVec.eq_of_toNat_eq
    rw [BitVec.toNat_setWidth, resTicked_toNat]
    omega

/-! ## Reset and select (R191, R192) -/

/-- Settles O43 (R191, R192). -/
theorem playerResetAndSelect : Obligations.PlayerResetAndSelect := by
  refine fun s a now => ⟨rfl, fun ha => ?_, fun ha => ?_⟩
  · rw [exec, execPlayerSelect, if_pos ha, finish_ok, BitVec.ofNat_toNat]
  · rw [exec, execPlayerSelect, if_neg (Nat.not_lt.2 ha), finish_ok]

/-! ## The tick and the poll over the pull of the source (R193, R196, R197) -/

theorem exec_playerTick_not_running {s : State} (hrun : s.player.run = false) :
    exec .playerTick s = .next { s with res := 0 } := by
  simp [exec, execPlayerTick, hrun]

theorem exec_playerTick_running {s : State} (hrun : s.player.run = true) :
    exec .playerTick s = finish ((doTick s).map fun (t, d) => (t, resDuty d)) := by
  rw [exec, execPlayerTick, if_pos hrun]

theorem exec_playerTick_of_pull {s u : State} {d : Byte} (hrun : s.player.run = true)
    (h : playerPull s = .ok (u, d)) :
    exec .playerTick s = .next { u with player := { s.player with duty := some d }, res := resDuty d } := by
  rw [exec_playerTick_running hrun, doTick, h, ← playerPull_player h]
  rfl

theorem exec_playerTick_of_error {s : State} {r : Refusal} (hrun : s.player.run = true)
    (h : playerPull s = .error r) : exec .playerTick s = .refused r := by
  rw [exec_playerTick_running hrun, doTick, h]
  rfl

/-- R196: a sample period has passed. -/
theorem tickDue_iff (now mark : BitVec 16) : tickDue now mark = true ↔ 125 ≤ (now - mark).toNat := by
  rw [tickDue, decide_eq_true_eq]
  rfl

theorem exec_playerPoll_due {s : State} {now : BitVec 16} (hrun : s.player.run = true)
    (hdue : 125 ≤ (now - s.player.mark).toNat) :
    exec (.playerPoll now) s = finish ((doTick (advanceMark s)).map fun (t, d) => (t, resTicked d)) := by
  rw [exec, execPlayerPoll, hrun, (tickDue_iff _ _).2 hdue]
  rfl

theorem exec_playerPoll_not_due {s : State} {now : BitVec 16}
    (h : s.player.run = false ∨ (now - s.player.mark).toNat < 125) :
    exec (.playerPoll now) s = .next { s with res := 0 } := by
  have hidle : ¬ (s.player.run && tickDue now s.player.mark) = true := by
    rw [Bool.and_eq_true, tickDue_iff]
    rintro ⟨hrun, hdue⟩
    rcases h with hstopped | hearly
    · rw [hrun] at hstopped
      cases hstopped
    · omega
  rw [exec, execPlayerPoll, if_neg hidle, finish_ok]

theorem exec_playerPoll_of_pull {s u : State} {d : Byte} {now : BitVec 16} (hrun : s.player.run = true)
    (hdue : 125 ≤ (now - s.player.mark).toNat) (h : playerPull s = .ok (u, d)) :
    exec (.playerPoll now) s = .next { u with
      player := { s.player with mark := s.player.mark + 125, duty := some d }, res := resTicked d } := by
  rw [exec_playerPoll_due hrun hdue, doTick, playerPull_advanceMark, h, ← playerPull_player h]
  rfl

theorem exec_playerPoll_of_error {s : State} {r : Refusal} {now : BitVec 16} (hrun : s.player.run = true)
    (hdue : 125 ≤ (now - s.player.mark).toNat) (h : playerPull s = .error r) :
    exec (.playerPoll now) s = .refused r := by
  rw [exec_playerPoll_due hrun hdue, doTick, playerPull_advanceMark, h]
  rfl

/-- Settles O46 (R196, D29, D34): tick and due poll both follow the pull of the source. -/
theorem playerPollTicksWhenDue : Obligations.PlayerPollTicksWhenDue := by
  refine fun s now => ⟨exec_playerPoll_not_due, fun hrun hdue => ?_⟩
  cases hpull : playerPull s with
  | ok r =>
    rw [exec_playerTick_of_pull hrun hpull, exec_playerPoll_of_pull hrun hdue hpull]
    refine ⟨fun t ht => ?_, nofun⟩
    cases ht
    rfl
  | error e =>
    rw [exec_playerTick_of_error hrun hpull, exec_playerPoll_of_error hrun hdue hpull]
    exact ⟨nofun, fun r hr => hr⟩

/-! ## The source's own command (R193, R194) -/

/-- R193: the sources, each with the command that pulls it and the select value that names it. -/
def sourceCommands : List (Instr × BitVec 2) := [(.imaNext, 0), (.twobitNext, 1), (.lpcNext, 2), (.mixTick, 3)]

/-- R193, R194: where the source's own command completes, the pull leaves the same state, its duty value that of the
sample returned, or the mixer's byte itself. -/
theorem playerPull_of_next {s t : State} {i : Instr} {sel : BitVec 2} (hi : (i, sel) ∈ sourceCommands)
    (hsel : s.player.sel = sel) (h : exec i s = .next t) :
    ∃ d : Byte, playerPull s = .ok ({ t with res := s.res }, d) ∧
      (sel ≠ 3 → (d.toNat : Int) = (t.res.setWidth 16 : Sample).toInt / 256 + 128) ∧
      (sel = 3 → t.res = resDuty d) := by
  simp only [sourceCommands, List.mem_cons, Prod.mk.injEq, List.not_mem_nil, or_false] at hi
  rcases hi with ⟨rfl, rfl⟩ | ⟨rfl, rfl⟩ | ⟨rfl, rfl⟩ | ⟨rfl, rfl⟩
  · obtain ⟨u, v, hpull, rfl⟩ := imaFinish_eq_next.1 h
    refine ⟨duty16 v, by rw [playerPull_ima hsel, hpull]; rfl, fun _ => ?_, fun h3 => absurd h3 (by decide)⟩
    rw [resSample_setWidth, duty16_toNat]
  · obtain ⟨u, v, hpull, rfl⟩ := twobitFinish_eq_next.1 h
    refine ⟨duty16 v, by rw [playerPull_twobit hsel, hpull]; rfl, fun _ => ?_, fun h3 => absurd h3 (by decide)⟩
    rw [resSample_setWidth, duty16_toNat]
  · obtain ⟨u, v, hpull, rfl⟩ := lpcFinish_eq_next.1 h
    refine ⟨duty16 v, by rw [playerPull_lpc hsel, hpull]; rfl, fun _ => ?_, fun h3 => absurd h3 (by decide)⟩
    rw [resSample_setWidth, duty16_toNat]
  · obtain ⟨m, d, hpull, rfl⟩ := exec_mixTick_eq_next h
    exact ⟨d, by rw [playerPull_mix hsel, hpull]; rfl, fun h3 => absurd rfl h3, fun _ => rfl⟩

/-- R193: the pull is refused where the source's own command is. -/
theorem playerPull_of_refused {s : State} {i : Instr} {sel : BitVec 2} {r : Refusal} (hi : (i, sel) ∈ sourceCommands)
    (hsel : s.player.sel = sel) (h : exec i s = .refused r) : playerPull s = .error r := by
  simp only [sourceCommands, List.mem_cons, Prod.mk.injEq, List.not_mem_nil, or_false] at hi
  rcases hi with ⟨rfl, rfl⟩ | ⟨rfl, rfl⟩ | ⟨rfl, rfl⟩ | ⟨rfl, rfl⟩
  · rw [playerPull_ima hsel, imaFinish_eq_refused.1 h]; rfl
  · rw [playerPull_twobit hsel, twobitFinish_eq_refused.1 h]; rfl
  · rw [playerPull_lpc hsel, lpcFinish_eq_refused.1 h]; rfl
  · rw [playerPull_mix hsel, except_map_eq_error.1 (mixFinish_eq_refused.1 h)]; rfl

/-- R75, R193: where the pull reads nothing outside, the source's own command completes. -/
theorem exec_source_of_pullReadable {s : State} {i : Instr} {sel : BitVec 2} (h : PullReadable s)
    (hi : (i, sel) ∈ sourceCommands) (hsel : s.player.sel = sel) : ∃ t, exec i s = .next t := by
  obtain ⟨hima, htwobit, hlpc, hmix⟩ := h
  simp only [sourceCommands, List.mem_cons, Prod.mk.injEq, List.not_mem_nil, or_false] at hi
  rcases hi with ⟨rfl, rfl⟩ | ⟨rfl, rfl⟩ | ⟨rfl, rfl⟩ | ⟨rfl, rfl⟩
  · cases hn : imaHasNext s.ima with
    | false => exact ⟨_, exec_imaNext_at_end hn⟩
    | true =>
      exact ⟨_, (exec_imaNext_eq_nib4 s).trans (exec_nib4_decodes _ hn (hima hsel ((imaHasNext_iff _).1 hn)))⟩
  · cases hn : twobitHasNext s.twobit with
    | false => exact ⟨_, exec_twobitNext_at_end hn⟩
    | true =>
      exact ⟨_, (exec_twobitNext_eq_code2 s).trans
        (exec_code2_decodes _ hn (htwobit hsel ((twobitHasNext_iff _).1 hn)))⟩
  · exact exec_lpcNext_completes (hlpc hsel)
  · obtain ⟨m, d, hpull⟩ := mixTickPull_answers (hmix hsel)
    exact ⟨_, exec_mixTick_of_ok hpull⟩

/-- Settles O44 (R193, R194, R197): both outcomes of the source's own command are those of the pull. -/
theorem playerTickPullsTheSource : Obligations.PlayerTickPullsTheSource := by
  refine fun s => ⟨exec_playerTick_not_running, fun hrun => ⟨fun i sel hi hsel => ?_, fun hsel => ?_⟩⟩
  · have hsource : (i, sel) ∈ sourceCommands := List.mem_append_left [(Instr.mixTick, (3 : BitVec 2))] hi
    have hdecoder : sel ≠ 3 := by
      simp only [List.mem_cons, Prod.mk.injEq, List.not_mem_nil, or_false] at hi
      rcases hi with ⟨-, rfl⟩ | ⟨-, rfl⟩ | ⟨-, rfl⟩ <;> decide
    refine ⟨fun t ht => ?_, fun r hr => exec_playerTick_of_error hrun (playerPull_of_refused hsource hsel hr)⟩
    obtain ⟨d, hpull, hduty, -⟩ := playerPull_of_next hsource hsel ht
    exact ⟨d, hduty hdecoder, (exec_playerTick_of_pull hrun hpull :)⟩
  · have hsource : (Instr.mixTick, (3 : BitVec 2)) ∈ sourceCommands := by simp [sourceCommands]
    refine ⟨fun t ht => ?_, fun r hr => exec_playerTick_of_error hrun (playerPull_of_refused hsource hsel hr)⟩
    obtain ⟨d, hpull, -, hres⟩ := playerPull_of_next hsource hsel ht
    rw [exec_playerTick_of_pull hrun hpull, hres rfl, resDuty_setWidth, ← hres rfl]

/-- Settles O45 (R193 to R197, R75). -/
theorem playerTicksComplete : Obligations.PlayerTicksComplete := by
  intro s now hrun hread i sel hi hsel
  obtain ⟨t, ht⟩ := exec_source_of_pullReadable hread hi hsel
  obtain ⟨d, hpull, hduty, hres⟩ := playerPull_of_next hi hsel ht
  exact ⟨t, d, ht, hduty, hres, (exec_playerTick_of_pull hrun hpull :),
    fun hdue => (exec_playerPoll_of_pull hrun hdue hpull :)⟩

/-! ## The two deployment shapes (R198, R199) -/

/-- The state with another mark and another last result. -/
def withMark (s : State) (mark : BitVec 16) (res : Word) : State :=
  { s with player := { s.player with mark := mark }, res := res }

/-- What `forgetMark` forgets is what `withMark` writes. -/
@[simp] theorem forgetMark_withMark (s : State) (mark : BitVec 16) (res : Word) :
    forgetMark (withMark s mark res) = forgetMark s := rfl

/-- R193: the pull of the source does not look at the mark or the last result. -/
theorem playerPull_withMark (s : State) (mark : BitVec 16) (res : Word) :
    playerPull (withMark s mark res) = (playerPull s).map fun (t, d) => (withMark t mark res, d) := by
  rcases sel_cases s.player.sel with h | h | h | h
  · rw [playerPull_ima h, playerPull_ima (s := withMark s mark res) h]
    simp only [withMark]
    cases imaNextPull s.params s.rom s.ima <;> rfl
  · rw [playerPull_twobit h, playerPull_twobit (s := withMark s mark res) h]
    simp only [withMark]
    cases twobitNextPull s.params s.rom s.twobit <;> rfl
  · rw [playerPull_lpc h, playerPull_lpc (s := withMark s mark res) h]
    simp only [withMark]
    cases lpcNextPull s.params s.rom s.lpc <;> rfl
  · rw [playerPull_mix h, playerPull_mix (s := withMark s mark res) h]
    simp only [withMark]
    cases mixTickPull s.params s.note s.mix <;> rfl

/-- R197: a callback tick does not touch the mark, and does the same from every mark. -/
theorem exec_playerTick_withMark {s t : State} (h : exec .playerTick s = .next t) (mark : BitVec 16) (res : Word) :
    t.player.mark = s.player.mark ∧ exec .playerTick (withMark s mark res) = .next (withMark t mark t.res) := by
  cases hrun : s.player.run with
  | false =>
    obtain rfl := Host.Outcome.next.inj ((exec_playerTick_not_running hrun).symm.trans h)
    exact ⟨rfl, exec_playerTick_not_running hrun⟩
  | true =>
    cases hpull : playerPull s with
    | error e =>
      rw [exec_playerTick_of_error hrun hpull] at h
      cases h
    | ok r =>
      obtain rfl := Host.Outcome.next.inj ((exec_playerTick_of_pull hrun hpull).symm.trans h)
      have hmoved : playerPull (withMark s mark res) = .ok (withMark r.1 mark res, r.2) := by
        rw [playerPull_withMark, hpull]
        rfl
      exact ⟨rfl, (exec_playerTick_of_pull (s := withMark s mark res) hrun hmoved :)⟩

/-- A run of callback ticks does not touch the mark, and does the same from every mark and last result. -/
theorem tickRun_withMark {n : Nat} {s t : State} {ds : List Byte} (h : tickRun n s = some (ds, t)) (mark : BitVec 16)
    (res : Word) :
    t.player.mark = s.player.mark ∧ ∃ res', tickRun n (withMark s mark res) = some (ds, withMark t mark res') := by
  induction n generalizing s ds res with
  | zero =>
    simp only [tickRun, Option.some.injEq, Prod.mk.injEq] at h
    obtain ⟨rfl, rfl⟩ := h
    exact ⟨rfl, res, rfl⟩
  | succ n ih =>
    simp only [tickRun] at h
    split at h
    · next u hu =>
      obtain ⟨⟨ds', t'⟩, hrest, heq⟩ := Option.map_eq_some_iff.1 h
      obtain ⟨rfl, rfl⟩ := Prod.mk.inj heq
      obtain ⟨hmark, hmoved⟩ := exec_playerTick_withMark hu mark res
      obtain ⟨hmark', res', hrest'⟩ := ih hrest u.res
      refine ⟨hmark'.trans hmark, res', ?_⟩
      simp only [tickRun, hmoved, hrest', Option.map_some]
      rfl
    · cases h
    · cases h

/-- R196, R198: a poll that completes leaves the state but for its result, or is a callback tick with the mark on by
125; bit 8 of its result says which. -/
theorem exec_playerPoll_cases {s t : State} {now : BitVec 16} (h : exec (.playerPoll now) s = .next t) :
    (t.res.getLsbD 8 = false ∧ t = withMark s s.player.mark 0) ∨
    ∃ u, exec .playerTick s = .next u ∧ t.res.getLsbD 8 = true ∧ t.res.setWidth 8 = u.res.setWidth 8 ∧
      t = withMark u (s.player.mark + 125) t.res := by
  by_cases hidle : s.player.run = false ∨ (now - s.player.mark).toNat < 125
  · obtain rfl := Host.Outcome.next.inj ((exec_playerPoll_not_due hidle).symm.trans h)
    exact .inl ⟨BitVec.getLsbD_zero, rfl⟩
  · obtain ⟨hrun, hdue⟩ : s.player.run = true ∧ 125 ≤ (now - s.player.mark).toNat := by
      simpa only [not_or, Bool.not_eq_false, Nat.not_lt] using hidle
    cases hpull : playerPull s with
    | error e =>
      rw [exec_playerPoll_of_error hrun hdue hpull] at h
      cases h
    | ok r =>
      obtain rfl := Host.Outcome.next.inj ((exec_playerPoll_of_pull hrun hdue hpull).symm.trans h)
      obtain ⟨hticked, hduty⟩ := resTicked_fields r.2
      exact .inr ⟨_, exec_playerTick_of_pull hrun hpull, hticked, hduty.trans (resDuty_setWidth r.2).symm, rfl⟩

/-- Settles O47 (R198, R199), by induction over the polls: one that ticks is one callback tick from another mark, one
that does not ticks nothing. -/
theorem pollingEqualsTheTimerCallback : Obligations.PollingEqualsTheTimerCallback := by
  intro nows
  induction nows with
  | nil =>
    intro s t ds h
    obtain ⟨rfl, rfl⟩ := Prod.mk.inj (Option.some.inj h)
    exact ⟨s, rfl, rfl, rfl, by simp⟩
  | cons now rest ih =>
    intro s t ds h
    simp only [pollRun] at h
    split at h
    · next t₁ hpoll =>
      obtain ⟨⟨ds', t'⟩, hrest, heq⟩ := Option.map_eq_some_iff.1 h
      obtain ⟨hds, rfl⟩ := Prod.mk.inj heq
      obtain ⟨u, hticks, hforget, humark, htmark⟩ := ih t₁ t' ds' hrest
      rcases exec_playerPoll_cases hpoll with ⟨hidle, ht₁⟩ | ⟨s₁, htick, hticked, hduty, ht₁⟩
      · obtain rfl : ds' = ds := by rwa [hidle, if_neg Bool.false_ne_true] at hds
        rw [ht₁] at hticks htmark
        obtain ⟨-, res', hsame⟩ := tickRun_withMark hticks s.player.mark s.res
        exact ⟨withMark u s.player.mark res', hsame, hforget, rfl, htmark⟩
      · obtain rfl : s₁.res.setWidth 8 :: ds' = ds := by rwa [hticked, if_pos rfl, hduty] at hds
        rw [ht₁] at hticks htmark
        obtain ⟨hmark, -⟩ := exec_playerTick_withMark htick 0 0
        obtain ⟨-, res', hsame⟩ := tickRun_withMark hticks s₁.player.mark s₁.res
        have hsame₁ : tickRun ds'.length s₁ = some (ds', withMark u s₁.player.mark res') := hsame
        refine ⟨withMark u s₁.player.mark res', ?_, hforget, hmark, ?_⟩
        · simp only [List.length_cons, tickRun, htick, hsame₁, Option.map_some]
        · rw [htmark, List.length_cons, Nat.mul_succ, Nat.add_comm, BitVec.ofNat_add, ← BitVec.add_assoc]
          rfl
    · cases h
    · cases h

end Sys2Proof.Machine
end

section
/-! The whole machine: the invariant (spec/10_state.md section 12), the protection of the units from each other
(spec/60_exceptions.md section 3) and the refusals (spec/20_memory.md section 7). -/
namespace Sys2Proof.Machine

/-! ## The end of a stream (R112, R113) -/

theorem resBool_decide (p : Prop) [Decidable p] : resBool (decide p) = if p then 1 else 0 := by
  simp [resBool]

/-- Settles O13 (R112, R123, R133, R146). -/
theorem hasNextReportsUnreadInput : Obligations.HasNextReportsUnreadInput := by
  refine fun s => ⟨?_, ?_, ?_⟩
  · rw [exec, execImaHasNext, finish_ok, imaHasNext, resBool_decide]
  · rw [exec, execTwobitHasNext, finish_ok, twobitHasNext, resBool_decide]
  · rw [exec, execLpcHasNext, finish_ok, lpcHasNext]
    cases s.lpc.fin <;> rfl

/-- Settles O14 (R113, R124, R134, R147). -/
theorem pullPastTheEndReturnsZero : Obligations.PullPastTheEndReturnsZero := by
  refine fun s => ⟨fun hend => ?_, fun hend => ?_, fun hfin => (stopFrameEffect.2 s hfin).2⟩
  · have hn : imaHasNext s.ima = false := Bool.eq_false_iff.2 fun h => hend ((imaHasNext_iff _).1 h)
    exact ⟨exec_imaNext_at_end hn, fun c => congrArg (imaFinish s) (imaPull_at_end _ _ _ _ hn)⟩
  · have hn : twobitHasNext s.twobit = false := Bool.eq_false_iff.2 fun h => hend ((twobitHasNext_iff _).1 h)
    have hcode (c : BitVec 2) : exec (decodeCode2 c) s = .next { s with res := 0 } :=
      (exec_decodeCode2 c s).trans (congrArg (twobitFinish s) (twobitPull_at_end _ _ _ _ hn))
    simp only [List.forall_mem_cons, List.not_mem_nil, false_imp_iff, implies_true, and_true]
    exact ⟨exec_twobitNext_at_end hn, hcode 0, hcode 1, hcode 2, hcode 3⟩

/-! ## Protection (R20, R65, R209) -/

/-- From `s` to `t` only the registers of the units that `i` reaches are written, and no memory, parameter or port. -/
def WritesOnlyReached (i : Instr) (s t : State) : Prop :=
  t.rom = s.rom ∧ t.note = s.note ∧ t.params = s.params ∧ t.port = s.port ∧
  (¬ reaches i s .ima → t.ima = s.ima) ∧ (¬ reaches i s .twobit → t.twobit = s.twobit) ∧
  (¬ reaches i s .lpc → t.lpc = s.lpc) ∧ (¬ reaches i s .mix → t.mix = s.mix) ∧
  (unitOf i ≠ .player → t.player = s.player)

section
variable {i : Instr} {s : State}

theorem writesOnlyReached_res (v : Word) : WritesOnlyReached i s { s with res := v } :=
  ⟨rfl, rfl, rfl, rfl, fun _ => rfl, fun _ => rfl, fun _ => rfl, fun _ => rfl, fun _ => rfl⟩

theorem writesOnlyReached_ima (h : reaches i s .ima) (u : Ima) (v : Word) :
    WritesOnlyReached i s { s with ima := u, res := v } :=
  ⟨rfl, rfl, rfl, rfl, fun hn => absurd h hn, fun _ => rfl, fun _ => rfl, fun _ => rfl, fun _ => rfl⟩

theorem writesOnlyReached_twobit (h : reaches i s .twobit) (u : Twobit) (v : Word) :
    WritesOnlyReached i s { s with twobit := u, res := v } :=
  ⟨rfl, rfl, rfl, rfl, fun _ => rfl, fun hn => absurd h hn, fun _ => rfl, fun _ => rfl, fun _ => rfl⟩

theorem writesOnlyReached_lpc (h : reaches i s .lpc) (u : Lpc) (v : Word) :
    WritesOnlyReached i s { s with lpc := u, res := v } :=
  ⟨rfl, rfl, rfl, rfl, fun _ => rfl, fun _ => rfl, fun hn => absurd h hn, fun _ => rfl, fun _ => rfl⟩

theorem writesOnlyReached_mix (h : reaches i s .mix) (m : Mix) (v : Word) :
    WritesOnlyReached i s { s with mix := m, res := v } :=
  ⟨rfl, rfl, rfl, rfl, fun _ => rfl, fun _ => rfl, fun _ => rfl, fun hn => absurd h hn, fun _ => rfl⟩

theorem writesOnlyReached_player (h : unitOf i = .player) (p : Player) (v : Word) :
    WritesOnlyReached i s { s with player := p, res := v } :=
  ⟨rfl, rfl, rfl, rfl, fun _ => rfl, fun _ => rfl, fun _ => rfl, fun _ => rfl, fun hn => absurd h hn⟩

/-- What the player's own registers take beside, an instruction of the player may write. -/
theorem WritesOnlyReached.andPlayer {t : State} (ht : WritesOnlyReached i s t) (h : unitOf i = .player) (p : Player)
    (v : Word) : WritesOnlyReached i s { t with player := p, res := v } := by
  obtain ⟨hrom, hnote, hparams, hport, hima, htwobit, hlpc, hmix, -⟩ := ht
  exact ⟨hrom, hnote, hparams, hport, hima, htwobit, hlpc, hmix, fun hn => absurd h hn⟩

/-- R193, R209: the pull of a tick writes the selected source only. -/
theorem writesOnlyReached_pull {t : State} {d : Byte} (hi : ticks i = true) (h : playerPull s = .ok (t, d)) :
    WritesOnlyReached i s t := by
  rcases playerPull_ok h with ⟨hsel, u, v, -, rfl, -⟩ | ⟨hsel, u, v, -, rfl, -⟩ | ⟨hsel, u, v, -, rfl, -⟩ |
    ⟨hsel, m, -, rfl⟩
  · exact writesOnlyReached_ima (.inr ⟨hi, by simp [selected, hsel]⟩) u s.res
  · exact writesOnlyReached_twobit (.inr ⟨hi, by simp [selected, hsel]⟩) u s.res
  · exact writesOnlyReached_lpc (.inr ⟨hi, by simp [selected, hsel]⟩) u s.res
  · exact writesOnlyReached_mix (.inr ⟨hi, by simp [selected, hsel]⟩) m s.res
end

/-- Settles O49 (R20, R65, R209), by cases on the effect of the instruction. -/
theorem unitsAreProtectedFromEachOther : Obligations.UnitsAreProtectedFromEachOther := by
  intro i s t h
  change WritesOnlyReached i s t
  cases exec_effect h with
  | resultOnly v _ => exact writesOnlyReached_res v
  | imaRestarted _ _ _ hu => exact writesOnlyReached_ima (.inl hu) _ _
  | imaPulled _ _ _ hu => exact writesOnlyReached_ima (.inl hu) _ _
  | twobitRestarted _ _ _ hu => exact writesOnlyReached_twobit (.inl hu) _ _
  | twobitPulled _ _ _ hu => exact writesOnlyReached_twobit (.inl hu) _ _
  | lpcRestarted _ _ _ _ hu => exact writesOnlyReached_lpc (.inl hu) _ _
  | lpcPulled _ _ hu => exact writesOnlyReached_lpc (.inl hu) _ _
  | lpcFrame _ _ hu => exact writesOnlyReached_lpc (.inl hu.1) _ _
  | mixReset _ hu => exact writesOnlyReached_mix (.inl hu) _ _
  | mixBound _ _ _ _ _ _ hu => exact writesOnlyReached_mix (.inl hu) _ _
  | mixSilenced _ hu => exact writesOnlyReached_mix (.inl hu) _ _
  | mixTicked _ _ _ hu => exact writesOnlyReached_mix (.inl hu) _ _
  | mixScheduled _ _ _ _ hu => exact writesOnlyReached_mix (.inl hu.1) _ _
  | playerReset _ hu => exact writesOnlyReached_player hu _ _
  | playerSelected _ _ _ hu => exact writesOnlyReached_player hu _ _
  | playerTicked _ _ _ _ hu hticks _ hpull => exact (writesOnlyReached_pull hticks hpull).andPlayer hu _ _

/-! ## The power-on state (R34, R35) -/

/-- Settles O9 (R34). -/
theorem powerOnState : Obligations.PowerOnState := by
  refine ⟨⟨rfl, rfl, rfl, rfl, rfl, rfl⟩, ⟨rfl, rfl, rfl, rfl, rfl, rfl⟩,
    ⟨rfl, rfl, rfl, rfl, rfl, rfl, rfl, rfl, rfl, by decide, rfl, rfl, rfl⟩, by decide, ⟨rfl, rfl, rfl, rfl⟩, ?_⟩
  simp only [List.forall_mem_cons, List.not_mem_nil, false_imp_iff, implies_true, and_true]
  exact ⟨rfl, rfl, rfl, rfl, rfl⟩

/-- R121: whatever the OPEN increments are, the two-bit steps lie in 2..80. -/
theorem twobitStepAt_range (n : Nat) : 2 ≤ Config.twobitStepAt n ∧ Config.twobitStepAt n ≤ 80 := by
  induction n with
  | zero => decide
  | succ n ih =>
    have := (Config.twobitRaw (n + 1)).isLt
    rw [Config.twobitStepAt]
    omega

theorem twobitStepAt_le_succ (n : Nat) : Config.twobitStepAt n ≤ Config.twobitStepAt (n + 1) :=
  Nat.le_max_left _ _

theorem twobitStep_getElem (i : Nat) (hi : i < 16) :
    Config.params.twobitStep[i] = if i = 15 then 80 else Config.twobitStepAt i :=
  Vector.getElem_ofFn _

/-- R170: `MIX_AMP` is a positive i8. -/
theorem one_le_mixAmp : 1 ≤ Config.params.mixAmp.toInt := by
  have hlt := Config.mixAmpPred.isLt
  have hnat : Config.params.mixAmp.toNat = Config.mixAmpPred.val + 1 := by
    rw [Config.params, BitVec.toNat_ofNat]
    omega
  rw [BitVec.toInt_eq_toNat_of_lt (by omega), hnat]
  omega

/-- R8, R35, R121, R170: the parameters after power-on meet what the spec lets a claim assume. -/
theorem params_wf : Config.params.wf := by
  refine ⟨fun i => ?_, rfl, rfl, fun i => ?_, one_le_mixAmp, by decide, by decide, by decide⟩
  · have hrange := twobitStepAt_range i.val
    rw [Fin.getElem_fin, twobitStep_getElem]
    split <;> omega
  · have hrange := twobitStepAt_range i.val
    have hmono := twobitStepAt_le_succ i.val
    rw [twobitStep_getElem, twobitStep_getElem]
    split <;> split <;> omega

/-- Settles O10 (R34, R35, R121, R170). -/
theorem powerOnMeetsTheInvariant : Obligations.PowerOnMeetsTheInvariant where
  memory := memory_wf_reset
  params := params_wf
  ima := by decide
  twobit := by decide
  lpc := by decide
  mix := by decide
  player := by decide

end Sys2Proof.Machine
end

section
/-! The invariant of R35 is kept: by every operation of every unit, and so by every step. -/
namespace Sys2Proof.Machine

/-! ## The ADPCM decoders (R35, R61) -/

theorem imaRestart_ok {P : Params} (hP : P.wf) (u : Ima) : ImaOk (imaRestart P u) := by
  obtain ⟨-, -, -, -, -, -, -, hidx⟩ := hP
  exact ⟨hidx, Nat.zero_le _⟩

/-- R134: the step index saturates to its table, and the cursor moves on only while input is left. -/
theorem imaPull_keeps {P : Params} {rom : Rom} {pick : Byte → BitVec 4} {u u' : Ima} {v : Sample} (hu : ImaOk u)
    (h : imaPull P rom pick u = .ok (u', v)) : ImaOk u' := by
  rcases imaPull_ok h with ⟨-, rfl, -⟩ | ⟨hn, -, b, -, rfl, -⟩
  · exact hu
  · have hidx := imaDecode_idx_toNat P (pick b) u
    have hpos := imaAdvance_position u hn
    rw [imaHasNext_iff] at hn
    refine ⟨?_, ?_⟩
    · rw [Config.imaIdxMax]
      omega
    · rw [imaDecode_cur, imaDecode_nib, imaDecode_len]
      omega

theorem twobitRestart_ok (u : Twobit) : TwobitOk (twobitRestart u) := Nat.zero_le _

/-- R124: the cursor moves on only while input is left. -/
theorem twobitPull_keeps {P : Params} {rom : Rom} {pick : Byte → BitVec 2} {u u' : Twobit} {v : Sample}
    (hu : TwobitOk u) (h : twobitPull P rom pick u = .ok (u', v)) : TwobitOk u' := by
  rcases twobitPull_ok h with ⟨-, rfl, -⟩ | ⟨hn, -, b, -, rfl, -⟩
  · exact hu
  · have hpos := twobitAdvance_position u hn
    rw [twobitHasNext_iff] at hn
    rw [TwobitOk, twobitDecode_cur, twobitDecode_pos, twobitDecode_len]
    omega

/-! ## The LPC synthesizer (R35, R142, R150, R154) -/

theorem lpcRestart_ok (u : Lpc) : LpcOk (lpcRestart u) :=
  ⟨by simp [Config.frameSamples], by simp [Config.u0Min, Config.u0Max], by simp [lpcPos], by simp [Config.lfsrSeed],
    by simp⟩

/-- R148, R150: a frame decode of a unit that has not met the stop frame. -/
theorem lpcDecodeFrame_keepsOk {P : Params} {rom : Rom} {given : List Bool} {u w : Lpc} (hu : LpcOk u)
    (hfin : u.fin = false) (h : lpcDecodeFrame P rom given u = .ok w) : LpcOk w := by
  obtain ⟨hfpos, hx0, hpos, hlfsr, -⟩ := hu
  have hposw := lpcDecodeFrame_position h hpos
  obtain ⟨f, q, -, rfl⟩ := lpcDecodeFrame_ok h
  refine ⟨by simpa using hfpos, by simpa using hx0, by simpa using hposw, by simpa using hlfsr, fun hstop => ?_⟩
  by_cases hf : f = .stop
  · subst hf
    exact ⟨rfl, rfl⟩
  · rw [lpcApply_fin_of_ne _ _ hf, lpcSeek_fin, hfin] at hstop
    cases hstop

/-- R154: neither generator turns the noise register into 0. -/
theorem lpcExcite_lfsr_ne_zero (P : Params) {u : Lpc} (h : u.lfsr ≠ 0) : (lpcExcite P u).1.lfsr ≠ 0 := by
  by_cases hperiod : u.period = 0
  · rw [lpcExcite_unvoiced hperiod]
    exact lfsrStep_ne_zero _ h
  · rwa [lpcExcite_voiced hperiod]

/-- R147, R156: one sample. -/
theorem lpcSample_keeps (P : Params) {u : Lpc} (hu : LpcOk u) : LpcOk (lpcSample P u).1 := by
  obtain ⟨-, -, hpos, hlfsr, hstop⟩ := hu
  have hfpos := lpcSample_fpos_toNat P u
  have hx0 := clampOutput_toInt (forwardPass P u.k u.x (lpcExcite P u).2).u0
  rw [← lpcSample_x0] at hx0
  refine ⟨?_, ?_, ?_, lpcExcite_lfsr_ne_zero P hlfsr, ?_⟩
  · rw [hfpos, Config.frameSamples]
    omega
  · rw [hx0, Config.u0Min, Config.u0Max]
    omega
  · simpa [lpcPos] using hpos
  · simpa using hstop

theorem lpcNextPull_keeps {P : Params} {rom : Rom} {u u' : Lpc} {v : Sample} (hu : LpcOk u)
    (h : lpcNextPull P rom u = .ok (u', v)) : LpcOk u' := by
  rcases lpcNextPull_ok h with ⟨-, rfl, -⟩ | ⟨hfin, -, w, hw, ⟨-, rfl, -⟩ | ⟨-, hsample⟩⟩ | ⟨-, -, hsample⟩
  · exact hu
  · exact lpcDecodeFrame_keepsOk hu hfin hw
  · obtain rfl : u' = (lpcSample P w).1 := congrArg Prod.fst hsample
    exact lpcSample_keeps P (lpcDecodeFrame_keepsOk hu hfin hw)
  · obtain rfl : u' = (lpcSample P u).1 := congrArg Prod.fst hsample
    exact lpcSample_keeps P hu

/-! ## The mixer (R35, R182) -/

/-- What `MixOk` says of one track. -/
abbrev TrackOk (t : Track) : Prop := t.index.toNat ≤ t.seqLen.toNat ∧ 1 ≤ t.pitchShift.toNat

/-- What `MixOk` says of one voice. -/
abbrev VoiceOk (P : Params) (v : Voice) : Prop := v.active = true → v.amp = P.mixAmp ∧ v.phaseInc ≠ 0

/-- R178: the scheduler keeps a voice, silences it, or starts it with `MIX_AMP` unless its increment is 0. -/
theorem scheduled_voiceOk {P : Params} (r : NoteRec) (t : Track) {v : Voice} (hv : VoiceOk P v) :
    VoiceOk P (scheduled P r t v).2 := by
  rcases scheduleTrack_ok (scheduleTrack_const P r t v) with ⟨-, hkept⟩ | ⟨-, -, hkept⟩ | ⟨-, -, hsilent, -⟩ |
    ⟨-, -, hsilent, -⟩ | ⟨-, -, -, hkept⟩ | ⟨-, -, r', -, hstart⟩
  · rwa [hkept]
  · rwa [hkept]
  · rw [hsilent]
    nofun
  · rw [hsilent]
    nofun
  · rwa [hkept]
  · obtain ⟨-, hstarted⟩ := Prod.mk.inj hstart
    rw [hstarted]
    exact fun hactive => ⟨rfl, bne_iff_ne.1 hactive⟩

/-- R176: the index moves on only inside its sequence, whose length fits the register. -/
theorem scheduled_trackOk (P : Params) (r : NoteRec) {t : Track} (v : Voice) (ht : TrackOk t) :
    TrackOk (scheduled P r t v).1 := by
  obtain ⟨hin, hshift⟩ := ht
  obtain ⟨hlen, hkept, hindex⟩ := scheduled_track P r t v
  refine ⟨?_, by rwa [hkept]⟩
  have hbound := t.seqLen.isLt
  rcases hindex with hstay | ⟨hremain, hmove⟩
  · rwa [hlen, hstay]
  · rw [hlen, hmove, BitVec.toNat_add, toNat_one32]
    omega

theorem oscillated_ok {P : Params} {v : Voice} (hv : VoiceOk P v) : VoiceOk P (oscillated v) := by
  unfold oscillated
  split
  · exact hv
  · exact hv

theorem mixTickPull_keeps {P : Params} {note : NoteMem} {m m' : Mix} {d : Byte} (hm : MixOk P m)
    (h : mixTickPull P note m = .ok (m', d)) : MixOk P m' := by
  intro k
  obtain ⟨-, htrack, hvoice⟩ := mixTickPull_scheduled h k
  obtain ⟨ht, hv⟩ := hm k
  rw [htrack, hvoice]
  exact ⟨scheduled_trackOk P _ _ ht, oscillated_ok (scheduled_voiceOk _ _ hv)⟩

theorem mixRestart_ok (P : Params) : MixOk P mixRestart := by
  intro k
  rw [mixRestart_voice, mixRestart_track]
  exact ⟨⟨le_refl _, by decide⟩, nofun⟩

theorem silenceAll_ok {P : Params} {m : Mix} (hm : MixOk P m) : MixOk P (silenceAll m) := by
  intro k
  rw [silenceAll_voice, silenceAll_track]
  exact ⟨(hm k).1, nofun⟩

/-- R172: a bound track stands at the start of its sequence with a shift of at least 1. -/
theorem boundTrack_ok (t : Track) (seqBase seqLen shift delay : Word) :
    TrackOk (boundTrack t seqBase seqLen shift delay) := by
  refine ⟨Nat.zero_le _, ?_⟩
  rw [boundTrack_pitchShift, storedShift]
  split
  · decide
  · next h => exact Nat.pos_of_ne_zero fun hz => h (BitVec.eq_of_toNat_eq hz)

/-- R172: what a bind leaves. -/
theorem bindTrack_ok {note : NoteMem} {m m' : Mix} {k : Fin 8} {seqBase seqLen shift : Word}
    (h : bindTrack note m k seqBase seqLen shift = .ok m') :
    ∃ delay, m' = { m with track := m.track.set k (boundTrack m.track[k] seqBase seqLen shift delay) } := by
  unfold bindTrack at h
  split at h
  · exact ⟨_, (Except.ok.inj h).symm⟩
  · split at h
    · exact ⟨_, (Except.ok.inj h).symm⟩
    · cases h

theorem bindTrack_keeps {P : Params} {note : NoteMem} {m m' : Mix} {k : Fin 8} {seqBase seqLen shift : Word}
    (hm : MixOk P m) (h : bindTrack note m k seqBase seqLen shift = .ok m') : MixOk P m' := by
  obtain ⟨delay, rfl⟩ := bindTrack_ok h
  intro j
  refine ⟨?_, (hm j).2⟩
  by_cases hj : k.val = j.val
  · obtain rfl := Fin.ext hj
    rw [Fin.getElem_fin, Vector.getElem_set_self]
    exact boundTrack_ok _ seqBase seqLen shift delay
  · rw [Fin.getElem_fin, Vector.getElem_set_ne _ _ hj]
    exact (hm j).1

/-! ## The step (R35) -/

/-- R193: the pull of a tick keeps the invariant, whichever source it pulls. -/
theorem playerPull_keeps {s t : State} {d : Byte} (hs : Inv s) (h : playerPull s = .ok (t, d)) : Inv t := by
  rcases playerPull_ok h with ⟨-, u, v, hu, rfl, -⟩ | ⟨-, u, v, hu, rfl, -⟩ | ⟨-, u, v, hu, rfl, -⟩ | ⟨-, m, hm, rfl⟩
  · exact { hs with ima := imaPull_keeps hs.ima hu }
  · exact { hs with twobit := twobitPull_keeps hs.twobit hu }
  · exact { hs with lpc := lpcNextPull_keeps hs.lpc hu }
  · exact { hs with mix := mixTickPull_keeps hs.mix hm }

/-- Every command keeps the invariant. (A frame row by itself need not: it decodes behind the stop frame too.) -/
theorem exec_keeps_inv {i : Instr} {s t : State} (hi : isCommand i = true) (hs : Inv s) (h : exec i s = .next t) :
    Inv t := by
  cases exec_effect h with
  | resultOnly => exact { hs with }
  | imaRestarted => exact { hs with ima := imaRestart_ok hs.params _ }
  | imaPulled _ _ _ _ hu => exact { hs with ima := imaPull_keeps hs.ima hu }
  | twobitRestarted => exact { hs with twobit := twobitRestart_ok _ }
  | twobitPulled _ _ _ _ hu => exact { hs with twobit := twobitPull_keeps hs.twobit hu }
  | lpcRestarted => exact { hs with lpc := lpcRestart_ok _ }
  | lpcPulled _ _ _ hu => exact { hs with lpc := lpcNextPull_keeps hs.lpc hu }
  | lpcFrame _ _ hrow => exact absurd (hi.symm.trans hrow.2) (by decide)
  | mixReset => exact { hs with mix := mixRestart_ok _ }
  | mixBound _ _ _ _ _ _ _ hm => exact { hs with mix := bindTrack_keeps hs.mix hm }
  | mixSilenced => exact { hs with mix := silenceAll_ok hs.mix }
  | mixTicked _ _ _ _ hm => exact { hs with mix := mixTickPull_keeps hs.mix hm }
  | mixScheduled _ _ _ _ hrow => exact absurd (hi.symm.trans hrow.2) (by decide)
  | playerReset => exact { hs with player := nofun }
  | playerSelected => exact { hs with player := fun _ => rfl }
  | playerTicked _ _ _ _ _ _ hrun hpull => exact { playerPull_keeps hs hpull with player := fun _ => hrun }

/-- Settles O11 (R35, R154, R182): a step runs a command of the map over the same units. -/
theorem everyStepKeepsTheInvariant : Obligations.EveryStepKeepsTheInvariant := by
  intro s t hs h
  rcases step_next h with ⟨-, rfl⟩ | ⟨c, rest, i, -, hdecoded, hexec⟩
  · exact hs
  · exact exec_keeps_inv (s := { s with port := rest }) (decodeCommand_eq_some hdecoded).1 { hs with } hexec

end Sys2Proof.Machine
end

section
/-! What an instruction depends on (spec/10_state.md section 1) and where it is refused (spec/60_exceptions.md). -/
namespace Sys2Proof.Machine

/-! ## What an instruction of a unit depends on (R20, R115, R181) -/

section
variable {s t s' : State}

theorem imaFinish_agree {r : Except Refusal (Ima × Sample)} (h : imaFinish s r = .next s') :
    imaFinish t r = .next { t with ima := s'.ima, res := s'.res } := by
  obtain ⟨u, v, rfl, rfl⟩ := imaFinish_eq_next.1 h
  rfl

theorem twobitFinish_agree {r : Except Refusal (Twobit × Sample)} (h : twobitFinish s r = .next s') :
    twobitFinish t r = .next { t with twobit := s'.twobit, res := s'.res } := by
  obtain ⟨u, v, rfl, rfl⟩ := twobitFinish_eq_next.1 h
  rfl

theorem lpcFinish_agree {r : Except Refusal (Lpc × Sample)} (h : lpcFinish s r = .next s') :
    lpcFinish t r = .next { t with lpc := s'.lpc, res := s'.res } := by
  obtain ⟨u, v, rfl, rfl⟩ := lpcFinish_eq_next.1 h
  rfl

theorem mixFinish_agree {r : Except Refusal (Mix × Word)} (h : mixFinish s r = .next s') :
    mixFinish t r = .next { t with mix := s'.mix, res := s'.res } := by
  obtain ⟨m, v, rfl, rfl⟩ := mixFinish_eq_next.1 h
  rfl

/-- A frame by itself depends on the parameters, `ROM` and the unit, and leaves the result as it was. -/
theorem lpcFrame_agree {mode : BitVec 1} {f : Frame} (hrom : s.rom = t.rom) (hparams : s.params = t.params)
    (hu : s.lpc = t.lpc) (h : lpcFrame mode f s = .next s') : lpcFrame mode f t = .next { t with lpc := s'.lpc } := by
  obtain ⟨u, hdecoded, rfl⟩ := lpcFrame_eq_next.1 h
  rw [hrom, hparams, hu] at hdecoded
  exact lpcFrame_eq_next.2 ⟨u, hdecoded, rfl⟩

/-- R115: what an instruction of `IMA` does, over another state with the same parameters, `ROM` and unit. -/
theorem exec_ima_agree {i : Instr} (hi : unitOf i = .ima) (hrom : s.rom = t.rom) (hparams : s.params = t.params)
    (hu : s.ima = t.ima) (h : exec i s = .next s') : exec i t = .next { t with ima := s'.ima, res := s'.res } := by
  cases i
  case imaReset | imaHasNext | imaAttach =>
    cases h
    simp only [hparams, hu]
    rfl
  case imaNext | nib4 =>
    rw [exec] at h ⊢
    have hagree := imaFinish_agree (t := t) h
    rwa [hrom, hparams, hu] at hagree
  all_goals cases hi

/-- R115: what an instruction of `TWOBIT` does, over another state with the same parameters, `ROM` and unit. -/
theorem exec_twobit_agree {i : Instr} (hi : unitOf i = .twobit) (hrom : s.rom = t.rom) (hparams : s.params = t.params)
    (hu : s.twobit = t.twobit) (h : exec i s = .next s') :
    exec i t = .next { t with twobit := s'.twobit, res := s'.res } := by
  cases i
  case twobitReset | twobitHasNext | twobitAttach =>
    cases h
    simp only [hu]
    rfl
  case twobitNext | code2_0 | code2_1 | code2_2 | code2_3 =>
    have hagree := twobitFinish_agree (t := t) h
    rwa [hrom, hparams, hu] at hagree
  all_goals cases hi

/-- R115: what an instruction of `LPC` does, over another state with the same parameters, `ROM` and unit. -/
theorem exec_lpc_agree {i : Instr} (hi : unitOf i = .lpc) (hrom : s.rom = t.rom) (hparams : s.params = t.params)
    (hu : s.lpc = t.lpc) (h : exec i s = .next s') :
    exec i t = .next { t with lpc := s'.lpc, res := if isCommand i then s'.res else t.res } := by
  cases i
  case lpcReset | lpcHasNext | lpcAttach | lpcStart =>
    cases h
    simp only [hu]
    rfl
  case lpcNext =>
    have hagree := lpcFinish_agree (t := t) h
    rwa [hrom, hparams, hu] at hagree
  case lpcfSilence | lpcfStop =>
    have hagree := lpcFrame_agree hrom hparams hu h
    rwa [hu] at hagree
  case lpcfRepeatM0 | lpcfUnvoicedM0 | lpcfVoicedM0 | lpcfRepeatM1 | lpcfUnvoicedM1 | lpcfVoicedM1 =>
    exact lpcFrame_agree hrom hparams hu h
  all_goals cases hi

/-- R115, R181: what an instruction of `MIX` does, over another state with the same parameters, `NOTE` and unit. -/
theorem exec_mix_agree {i : Instr} (hi : unitOf i = .mix) (hnote : s.note = t.note) (hparams : s.params = t.params)
    (hu : s.mix = t.mix) (h : exec i s = .next s') :
    exec i t = .next { t with mix := s'.mix, res := if isCommand i then s'.res else t.res } := by
  cases i
  case mixReset | mixAllOff =>
    cases h
    simp only [hu]
    rfl
  case mixBind a b c d =>
    rw [exec, execMixBind] at h ⊢
    split at h
    · next ha =>
      have hagree := mixFinish_agree (t := t) h
      rw [hnote, hu] at hagree
      rwa [dif_pos ha]
    · next ha =>
      cases h
      rw [dif_neg ha, hu]
      rfl
  case mixTick =>
    have hagree := mixFinish_agree (t := t) h
    rwa [hnote, hparams, hu] at hagree
  case note3 k r =>
    obtain ⟨m, v, hlane, rfl⟩ := mixFinish_eq_next.1 h
    obtain ⟨m', hm, heq⟩ := except_map_eq_ok.1 hlane
    obtain ⟨rfl, rfl⟩ := Prod.mk.inj heq
    rw [hnote, hparams, hu] at hm
    rw [exec, execNote3, hm]
    rfl
  all_goals cases hi
end

/-- Settles O50 (R20, R115, R181). -/
theorem unitsDoNotObserveEachOther : Obligations.UnitsDoNotObserveEachOther := by
  intro i s t s' hrom hnote hparams h
  refine ⟨fun hi hu => ?_, fun hi hu => ?_, fun hi hu => ?_, fun hi hu => ?_⟩
  · exact ⟨_, exec_ima_agree hi hrom hparams hu h, rfl, rfl⟩
  · exact ⟨_, exec_twobit_agree hi hrom hparams hu h, rfl, rfl⟩
  · exact ⟨_, exec_lpc_agree hi hrom hparams hu h, rfl, fun hc => if_pos hc⟩
  · exact ⟨_, exec_mix_agree hi hnote hparams hu h, rfl, fun hc => if_pos hc⟩

/-! ## Where an instruction is refused (R75, R201, R205) -/

/-- The refusal `r` is the overrun of a read outside, of a unit the instruction runs. -/
def RefusedOutside (i : Instr) (s : State) (r : Refusal) : Prop :=
  ∃ unit addr, r = .streamOverrun unit addr ∧ reaches i s unit ∧ ReadsOutside i s unit addr

section
variable {i : Instr} {s : State} {r : Refusal}

theorem imaPull_refusedOutside {pick : Byte → BitVec 4} (hi : reaches i s .ima)
    (h : imaPull s.params s.rom pick s.ima = .error r) : RefusedOutside i s r := by
  obtain ⟨hn, hout, rfl⟩ := imaPull_error h
  exact ⟨_, _, rfl, hi, (imaHasNext_iff _).1 hn, rfl, hout⟩

theorem twobitPull_refusedOutside {pick : Byte → BitVec 2} (hi : reaches i s .twobit)
    (h : twobitPull s.params s.rom pick s.twobit = .error r) : RefusedOutside i s r := by
  obtain ⟨hn, hout, rfl⟩ := twobitPull_error h
  exact ⟨_, _, rfl, hi, (twobitHasNext_iff _).1 hn, rfl, hout⟩

/-- R205: a refused frame decode is refused at the first bit of the frame that may not be read. -/
theorem lpcDecodeFrame_refusedOutside {given : List Bool} (hi : reaches i s .lpc)
    (hdue : isCommand i = true → s.lpc.fin = false ∧ s.lpc.fpos = 0)
    (h : lpcDecodeFrame s.params s.rom given s.lpc = .error r) : RefusedOutside i s r := by
  obtain ⟨n, hn, hread, hstop, rfl⟩ := lpcDecodeFrame_refused h
  exact ⟨_, _, rfl, hi, hdue, n, hn, hread, hstop, rfl⟩

theorem lpcNextPull_refusedOutside (hi : reaches i s .lpc) (h : lpcNextPull s.params s.rom s.lpc = .error r) :
    RefusedOutside i s r := by
  obtain ⟨hfin, hpos, hdecode⟩ := lpcNextPull_error h
  exact lpcDecodeFrame_refusedOutside hi (fun _ => ⟨hfin, hpos⟩) hdecode

/-- R205: a refused tick of the mixer is refused at the first track that reads outside `NOTE`. -/
theorem mixTickPull_refused (h : mixTickPull s.params s.note s.mix = .error r) :
    ∃ addr, r = .streamOverrun .mix addr ∧ s.note.size ≤ addr ∧
      ∃ k : Fin 8, ReadsNote s k ∧ addr = noteCursor s k ∧ ∀ j, j < k → ReadsNote s j → NoteReadable s j := by
  obtain ⟨k, hreads, hout, rfl, hearlier⟩ := mixTickPull_error_iff.1 h
  exact ⟨_, rfl, hout, k, hreads, rfl, hearlier⟩

/-- R193, R205: a tick of the player is refused as the pull of its source is. -/
theorem playerPull_refusedOutside (hi : ticks i = true) (h : playerPull s = .error r) : RefusedOutside i s r := by
  rcases playerPull_error h with ⟨hsel, hpull⟩ | ⟨hsel, hpull⟩ | ⟨hsel, hpull⟩ | ⟨hsel, hpull⟩
  · exact imaPull_refusedOutside (.inr ⟨hi, by simp [selected, hsel]⟩) hpull
  · exact twobitPull_refusedOutside (.inr ⟨hi, by simp [selected, hsel]⟩) hpull
  · exact lpcNextPull_refusedOutside (.inr ⟨hi, by simp [selected, hsel]⟩) hpull
  · obtain ⟨addr, rfl, houtside⟩ := mixTickPull_refused hpull
    refine ⟨_, _, rfl, .inr ⟨hi, by simp [selected, hsel]⟩, ?_⟩
    cases i
    case playerPoll | playerTick => exact houtside
    all_goals cases hi

theorem bindTrack_error {note : NoteMem} {m : Mix} {k : Fin 8} {seqBase seqLen shift : Word}
    (h : bindTrack note m k seqBase seqLen shift = .error r) :
    seqLen ≠ 0 ∧ note.size ≤ seqBase.toNat ∧ r = .streamOverrun .mix seqBase.toNat := by
  unfold bindTrack at h
  split at h
  · cases h
  · next hlen =>
    by_cases hin : seqBase.toNat < note.size
    · rw [mixNoteRead_of_lt _ _ hin] at h
      cases h
    · rw [mixNoteRead_of_le _ _ (not_lt.1 hin)] at h
      exact ⟨hlen, not_lt.1 hin, (Except.error.inj h).symm⟩

theorem execMixBind_refusedOutside {a b c d : Word} (h : execMixBind a b c d s = .refused r) :
    RefusedOutside (.mixBind a b c d) s r := by
  unfold execMixBind at h
  split at h
  · next ha =>
    obtain ⟨hlen, hout, rfl⟩ := bindTrack_error (except_map_eq_error.1 (mixFinish_eq_refused.1 h))
    exact ⟨_, _, rfl, .inl rfl, hout, ha, hlen, rfl⟩
  · cases h

theorem execNote3_refusedOutside {k : Fin 8} {record : NoteRec} (h : execNote3 k record s = .refused r) :
    RefusedOutside (.note3 k record) s r := by
  have hlane := except_map_eq_error.1 (mixFinish_eq_refused.1 h)
  unfold scheduleLane at hlane
  split at hlane
  · cases hlane
  · next e he =>
    obtain rfl := Except.error.inj hlane
    obtain ⟨hreads, hread⟩ := scheduleTrack_error he
    have hnone := except_map_eq_error.1 hread
    obtain rfl := mixNoteRead_error hnone
    refine ⟨_, _, rfl, .inl rfl, ?_, hreads, rfl⟩
    by_contra hin
    rw [mixNoteRead_of_lt _ _ (not_le.1 hin)] at hnone
    cases hnone

theorem execPlayerTick_refusedOutside (h : execPlayerTick s = .refused r) : RefusedOutside .playerTick s r := by
  unfold execPlayerTick at h
  split at h
  · exact playerPull_refusedOutside rfl (doTick_error (except_map_eq_error.1 (finish_eq_refused.1 h)))
  · cases h

theorem execPlayerPoll_refusedOutside {now : BitVec 16} (h : execPlayerPoll now s = .refused r) :
    RefusedOutside (.playerPoll now) s r := by
  unfold execPlayerPoll at h
  split at h
  · have hpull := doTick_error (except_map_eq_error.1 (finish_eq_refused.1 h))
    rw [playerPull_advanceMark] at hpull
    exact playerPull_refusedOutside rfl (except_map_eq_error.1 hpull)
  · cases h

/-- R192: a select always completes. -/
theorem exec_playerSelect_completes (sel : Word) (now : BitVec 16) (s : State) :
    ∃ t, exec (.playerSelect sel now) s = .next t := by
  rw [exec, execPlayerSelect]
  split
  · exact ⟨_, rfl⟩
  · exact ⟨_, rfl⟩

/-- R201, R205: every refusal of an instruction is the overrun of a read outside. -/
theorem exec_refusedOutside (h : exec i s = .refused r) : RefusedOutside i s r := by
  cases i
  case imaNext | nib4 => exact imaPull_refusedOutside (.inl rfl) (imaFinish_eq_refused.1 h)
  case twobitNext | code2_0 | code2_1 | code2_2 | code2_3 =>
    exact twobitPull_refusedOutside (.inl rfl) (twobitFinish_eq_refused.1 h)
  case lpcNext => exact lpcNextPull_refusedOutside (.inl rfl) (lpcFinish_eq_refused.1 h)
  case lpcfSilence | lpcfStop | lpcfRepeatM0 | lpcfUnvoicedM0 | lpcfVoicedM0 | lpcfRepeatM1 | lpcfUnvoicedM1
      | lpcfVoicedM1 => exact lpcDecodeFrame_refusedOutside (.inl rfl) nofun (lpcFrame_eq_refused.1 h)
  case mixBind => exact execMixBind_refusedOutside h
  case mixTick =>
    obtain ⟨addr, rfl, houtside⟩ := mixTickPull_refused (except_map_eq_error.1 (mixFinish_eq_refused.1 h))
    exact ⟨_, _, rfl, .inl rfl, houtside⟩
  case note3 => exact execNote3_refusedOutside h
  case playerPoll => exact execPlayerPoll_refusedOutside h
  case playerTick => exact execPlayerTick_refusedOutside h
  case playerSelect sel now =>
    obtain ⟨t, ht⟩ := exec_playerSelect_completes sel now s
    rw [ht] at h
    cases h
  all_goals cases h

/-- R201: the commands that read no memory complete. -/
theorem exec_completes_of_no_read (hi : isCommand i = true) (hbind : ∀ a b c d, i ≠ .mixBind a b c d)
    (hpull : i ∉ [Instr.imaNext, .twobitNext, .lpcNext, .mixTick]) (htick : ticks i = false) :
    ∃ t, exec i s = .next t := by
  cases i
  case mixBind a b c d => exact absurd rfl (hbind a b c d)
  case imaNext | twobitNext | lpcNext | mixTick => exact absurd (by simp) hpull
  case playerPoll | playerTick => cases htick
  case playerSelect sel now => exact exec_playerSelect_completes sel now s
  case nib4 | code2_0 | code2_1 | code2_2 | code2_3 | lpcfSilence | lpcfStop | lpcfRepeatM0 | lpcfUnvoicedM0
      | lpcfVoicedM0 | lpcfRepeatM1 | lpcfUnvoicedM1 | lpcfVoicedM1 | note3 => cases hi
  all_goals exact ⟨_, rfl⟩
end

/-- Settles O51 (R75, R200, R201, R205, D31). -/
theorem onlyOverrunningReadsAreRefused : Obligations.OnlyOverrunningReadsAreRefused :=
  fun _ _ => ⟨nofun, fun _ => exec_refusedOutside, exec_completes_of_no_read⟩

end Sys2Proof.Machine
end
